-- ==== Sys2Proof/Word.lean ====
section
/-! DEFINITION. The plain data every other file is written in: a byte, a CPU address, a state word, a text
(00_scope.md R8, 10_state.md R13). -/

namespace Sys2Proof

/-- `u8`: one byte of the 8-bit bus and of an image (00_scope.md R5, R8). -/
abbrev Byte := BitVec 8

/-- `u16`: a CPU address (00_scope.md R5). -/
abbrev Addr := BitVec 16

/-- `u32`: the state word of a slot, `STATE_WIDTH = 32` (10_state.md R13; the width is the spec's decision D2, log 6). -/
abbrev StateWord := BitVec 32

/-- `i32`: a type code or a checksum, two's complement (00_scope.md R8). -/
abbrev Code := BitVec 32

/-- A text: the path an image came from (10_state.md R10). A list of characters, so that two paths can be compared by
evaluation (log 20). -/
abbrev Text := List Char

end Sys2Proof
end

