-- ==== Sys2Proof/Machine/Configuration.lean ====
section
/-! DEFINITION. The configuration's literals: every number the spec takes from the document, each stated once, here (00_scope.md R5, R7). No
other definition writes one of them, so an audit against the hardware changes one place. What the document leaves open stands in Config.lean,
under the same namespace. -/

namespace Sys2Proof.Machine

/-- An inclusive address range `[lo..hi]` (00_scope.md R8). -/
structure AddrRange where
  lo : Nat
  hi : Nat
deriving DecidableEq, Repr, Inhabited

/-- Whether an address lies in a range. -/
def AddrRange.has (r : AddrRange) (a : Nat) : Bool := decide (r.lo ≤ a) && decide (a ≤ r.hi)

end Sys2Proof.Machine

namespace Sys2Proof.Config

open Sys2Proof.Machine

/-! ### The address space (00_scope.md R5; 20_memory.md R35) -/

/-- The width of a word, read off its type: the widths of a byte, an address and a state word stand in Word.lean alone. -/
@[simp] abbrev widthOf {n : Nat} (_ : BitVec n) : Nat := n

/-- The number of bits of a CPU address. -/
@[simp] abbrev addrBits : Nat := widthOf (0 : Addr)

/-- `STATE_WIDTH`, the number of bits of a state word (10_state.md R13). -/
@[simp] abbrev stateBits : Nat := widthOf (0 : StateWord)

/-- The last address, read off the width of a CPU address, which stands in Word.lean. -/
@[simp] abbrev topAddr : Nat := (BitVec.allOnes _ : Addr).toNat

/-- The control page `CTRL_LO..CTRL_HI`. -/
@[simp] abbrev ctrl : AddrRange := ⟨0xD500, 0xD5FF⟩

/-- `WIN_8`. -/
@[simp] abbrev win8 : AddrRange := ⟨0x8000, 0x9FFF⟩

/-- `WIN_A`. -/
@[simp] abbrev winA : AddrRange := ⟨0xA000, 0xBFFF⟩

/-- `WIN_5200`. -/
@[simp] abbrev win5200 : AddrRange := ⟨0x4000, 0xBFFF⟩

/-! ### Bytes (00_scope.md R5; 41_type_descriptors.md R93) -/

/-- `FILL`, the value of a disabled or filled window. -/
@[simp] abbrev fill : Byte := 0xFF#8

/-- What a control-page read returns where no type drives it: "Most types return 0xFF". It is all ones, so it is neutral in the AND of the two
slots (40_control_page_access.md R71, R76). -/
@[simp] abbrev idleStatus : Byte := 0xFF#8

/-- `KB`. -/
@[simp] abbrev kiloByte : Nat := 1024

/-! ### The line maps (00_scope.md R5; 10_state.md R20) -/

/-- The number of address lines of a line map. -/
@[simp] abbrev addrLines : Nat := 17

/-- The number of data lines of a line map. -/
@[simp] abbrev dataLines : Nat := 8

/-! ### The container header (46_image_container.md R188) -/

/-- `HDR_LEN`. -/
@[simp] abbrev hdrLen : Nat := 16

/-- The four characters "CART" (the ASCII values are general knowledge, log 21). -/
@[simp] abbrev hdrMagic : List Byte := [0x43#8, 0x41#8, 0x52#8, 0x54#8]

/-- The offset of the magic. -/
@[simp] abbrev hdrMagicAt : Nat := 0x0

/-- The offset of the type code. -/
@[simp] abbrev hdrTypeAt : Nat := 0x4

/-- The offset of the checksum. -/
@[simp] abbrev hdrSumAt : Nat := 0x8

/-- A byte of the reserved field, the part of the header that no other field fills, as a writer stores it. -/
@[simp] abbrev hdrReserved : Byte := 0#8

/-! ### The designs the document names (41_type_descriptors.md R103 to R110) -/

/-- The size of `STD_8` in KB. -/
@[simp] abbrev std8Kb : Nat := 8

/-- The size of `OSS_16` in KB. -/
@[simp] abbrev oss16Kb : Nat := 16

/-- The bank size of `OSS_16` in bytes. -/
@[simp] abbrev ossBank : Nat := 4096

/-- The range of `OSS_16` in which scenario 2 shows a bank, the upper part of `WIN_A`. -/
@[simp] abbrev ossHighRange : AddrRange := ⟨0xB000, winA.hi⟩

/-- The range of `OSS_16` whose content the document does not state, the rest of `WIN_A` (R105). -/
@[simp] abbrev ossLowRange : AddrRange := ⟨winA.lo, ossHighRange.lo - 1⟩

/-- The low nibble of scenario 2 that selects bank 0. -/
@[simp] abbrev ossBank0Nibble : BitVec 4 := 0x0#4

/-- The low nibbles of scenario 2 that select bank 1. -/
@[simp] abbrev ossBank1Nibbles : BitVec 4 × BitVec 4 := (0x3#4, 0x7#4)

/-- The low nibble of scenario 2 that disables the window. -/
@[simp] abbrev ossOffNibble : BitVec 4 := 0x8#4

/-- The piggyback-select pattern of scenario 4 (R107). -/
@[simp] abbrev pbPattern : StateWord := 0b1000#32

/-- `SDX_PB_MASK` by default, the pattern of scenario 4 (00_scope.md R6; the spec's decision D15; log 16). -/
@[simp] abbrev sdxPbMaskDefault : StateWord := pbPattern

/-- The size of `ROT_32` in KB. -/
@[simp] abbrev rot32Kb : Nat := 32

/-- The bank size of `ROT_32` in bytes (the spec's decision D13). -/
@[simp] abbrev rotBank : Nat := 8192

/-- The cycle length of `ROT_32` (R109). -/
@[simp] abbrev rotCycle : Nat := 5

/-- The state of `ROT_32` that shows nothing, the last of the cycle (the spec's decision D13). -/
@[simp] abbrev rotOff : Nat := rotCycle - 1

/-- The old state from which `CLAMP` takes its default arm (R110). -/
@[simp] abbrev clampBoundary : StateWord := 4#32

end Sys2Proof.Config
end

