-- ==== Sys2Proof/Syntax.lean ====
section
/-! DEFINITION. The events as syntax: machines, slots, cartridge kinds, the operands of host commands, the ONE inductive
`Instr` (one constructor per row of spec/opcode_table.json), and `Event`, the encoded form that waits in the input
(30_encoding.md R50, R51, R55). -/

namespace Sys2Proof

/-- `Machine`: which window ranges exist (00_scope.md R6; 20_memory.md R35). -/
inductive MachineKind where
  | xlxe
  | a5200
deriving DecidableEq, Repr, Inhabited

/-- The two cartridge positions: primary `P`, piggyback `G` (10_state.md R10). -/
inductive SlotName where
  | P
  | G
deriving DecidableEq, Repr, Inhabited

/-- The test instances. `tSdx` to `tHook` are those of 95_test_vectors.md section 2 (30_encoding.md R60 admits them as kinds of a trace);
`tLine` and `tNv` are the model's own (log 19). None is a claim about a real cartridge. -/
inductive TestKind where
  | tSdx
  | tSub
  | tRdr
  | tRam
  | tHook
  | tLine
  | tNv
deriving DecidableEq, Repr, Inhabited

/-- `Kind`, the finite enumeration of cartridge types (10_state.md R11; 41_type_descriptors.md R92). The document names the
members from `std8` to `sc5200`; `sdx v` are the kinds of the SDX family and `other n` the open remainder, each with room for
256 members (log 4). -/
inductive Kind where
  | none
  | unknown
  | std8
  | oss16
  | sdx (v : BitVec 8)
  | rot32
  | clamp
  | bbsb
  | sc5200
  | other (n : BitVec 8)
  | test (t : TestKind)
deriving DecidableEq, Repr, Inhabited

/-- How `INSERT` receives the kind: directly, or as a type code `n`, the caller's `-cart-type <n>` (30_encoding.md R56; 46_image_container.md R197). -/
inductive KindArg where
  | named (kind : Kind)
  | code  (n : Code)
deriving DecidableEq, Repr, Inhabited

/-- One entry of the ordered record of `SAVE_STATE` (45_slot_operations.md R178): type code, source path, state word, raw flag. -/
structure SaveEntry where
  code  : Code
  path  : Text
  state : StateWord
  raw   : Bool
deriving DecidableEq, Repr, Inhabited

/-- One image file the host can hand to `RESTORE_STATE`: its path and its bytes. A path not listed cannot be opened
(45_slot_operations.md R180: `load : path -> bytes`). -/
structure FileAt where
  path  : Text
  bytes : List Byte
deriving DecidableEq, Repr, Inhabited

/-- The result of `READ_IMAGE`: success or one of the six errors, with what each carries (60_exceptions.md R200; 46_image_container.md R186). -/
inductive LoadResult where
  | ok            (kind : Kind) (sizeKb : Nat) (bytes : List Byte) (raw : Bool)
  | cantOpen
  | badFormat
  | tooFewData
  | badChecksum   (kind : Kind) (sizeKb : Nat) (bytes : List Byte) (raw : Bool)
  | ambiguousSize (kind : Kind) (sizeKb : Nat) (bytes : List Byte) (raw : Bool)
  | unknownSize
deriving DecidableEq, Repr, Inhabited

/-- One constructor per row of spec/opcode_table.json. A bus event carries the whole address and the data byte of its word
(30_encoding.md R51); on a read the data byte is ignored (R62 b) and kept, so that a word is never confused with another.
`BUS_OTHER` carries the peek and write bits too, because its rows leave them free. -/
inductive Instr where
  | ctrlRd            (addr : Addr) (data : Byte)
  | ctrlRdPeek        (addr : Addr) (data : Byte)
  | ctrlWr            (addr : Addr) (data : Byte)
  | ctrlWrPeek        (addr : Addr) (data : Byte)
  | winRd             (addr : Addr) (data : Byte)
  | winRdPeek         (addr : Addr) (data : Byte)
  | winWr             (addr : Addr) (data : Byte)
  | winWrPeek         (addr : Addr) (data : Byte)
  | winRdLo5200       (addr : Addr) (data : Byte)
  | winRdPeekLo5200   (addr : Addr) (data : Byte)
  | winWrLo5200       (addr : Addr) (data : Byte)
  | winWrPeekLo5200   (addr : Addr) (data : Byte)
  | busOtherQ0        (peek write : Bool) (addr : Addr) (data : Byte)
  | busOtherQ1        (peek write : Bool) (addr : Addr) (data : Byte)
  | busOtherQ3        (peek write : Bool) (addr : Addr) (data : Byte)
  | insert            (slot : SlotName) (kind : KindArg) (bytes : List Byte) (path : Text) (raw : Bool)
  | remove            (slot : SlotName)
  | coldStart
  | lineRemap         (slot : SlotName)
  | saveState
  | restoreState      (record : List SaveEntry) (files : List FileAt)
  | readImage         (file : Option (List Byte))
  | writeImage        (path : Text) (kind : Kind) (buf : Option (List Byte)) (raw : Bool)
  | remap             (slot : SlotName)
  | fullRemap
deriving DecidableEq, Repr

/-- The structured operands of a host command, which have no bit encoding (30_encoding.md R55). A command reads the fields it has
and no other: `INSERT` reads `kindArg`, `WRITE_IMAGE` reads `kind`. The default values are the operands a bare command code stands for (log 2). -/
structure HostOps where
  slot    : SlotName := .P
  kindArg : KindArg := .named .unknown
  kind    : Kind := .unknown
  bytes   : List Byte := List.replicate Config.kiloByte 0
  path    : Text := []
  raw     : Bool := true
  record  : List SaveEntry := [⟨0, [], 0, false⟩]
  files   : List FileAt := []
  file    : Option (List Byte) := Option.none
  buf     : Option (List Byte) := some []
deriving DecidableEq, Repr

/-- An event as it waits in the input: a bus word (30_encoding.md R51; 26 bits, held in 32 so that R62 (c) has something to refuse)
or a host command code (R55; 4 bits, held in 8) with its structured operands (log 1). -/
inductive Event where
  | bus  (word : BitVec 32)
  | host (code : BitVec 8) (ops : HostOps)
deriving DecidableEq, Repr

end Sys2Proof
end

