-- ==== Sys2Proof/Machine/AddressMap.lean ====
section
/-! DEFINITION. The address map: the cartridge windows of a machine and the control page, and the region of the opcode table an address lies in.
Every bound is read from Machine/Configuration.lean, so the windows of the memory map and the decode of a bus word move together
(00_scope.md R7; 20_memory.md R35; 30_encoding.md R52, R53, R57, R64). -/

namespace Sys2Proof.Machine

/-- The cartridge windows of a machine, in the order a full remap disables them (20_memory.md R35; 43_remap.md R141). -/
def windows : MachineKind → List AddrRange
  | .xlxe  => [Config.win8, Config.winA]
  | .a5200 => [Config.win5200]

/-- Whether an address lies in a cartridge window of the machine (20_memory.md R35). -/
def inWindow (m : MachineKind) (a : Nat) : Bool := (windows m).any (·.has a)

/-- The window addresses of both machines, `WIN_8` and `WIN_A` (30_encoding.md R53). -/
@[simp] abbrev sharedBlock : AddrRange := ⟨Config.win8.lo, Config.winA.hi⟩

/-- The window addresses only the 5200 machine has, the part of `WIN_5200` below `WIN_8` (30_encoding.md R53). -/
@[simp] abbrev only5200Block : AddrRange := ⟨Config.win5200.lo, Config.win8.lo - 1⟩

/-- The addresses below every window (30_encoding.md R64). -/
@[simp] abbrev belowBlock : AddrRange := ⟨0, Config.win5200.lo - 1⟩

/-- The addresses above every window, the control page among them (30_encoding.md R64). -/
@[simp] abbrev aboveBlock : AddrRange := ⟨Config.win5200.hi + 1, Config.topAddr⟩

end Sys2Proof.Machine

namespace Sys2Proof

open Machine

/-- Whether an address lies on the control page (30_encoding.md R52). -/
def onControlPage (addr : Addr) : Bool := Config.ctrl.has addr.toNat

/-- The regions the bus rows of spec/opcode_table.json tell apart (30_encoding.md R52, R53, R64). -/
inductive BusRegion where
  /-- The control page: the four `CTRL_*` rows. -/
  | controlPage
  /-- A window address both machines have: `WIN_*`. -/
  | window
  /-- A window address only the 5200 machine has: `WIN_*.LO5200`. -/
  | window5200
  /-- Below every window: `BUS_OTHER.Q0`. -/
  | below
  /-- In a window of the 5200 machine alone, seen from a machine without it: `BUS_OTHER.Q1`. -/
  | between
  /-- Above every window, off the control page: `BUS_OTHER.Q3`. -/
  | above
deriving DecidableEq, Repr

/-- The region of an address: the control page, a window of the machine (split by whether `XLXE` has the address too), and what is neither, which is
not the block's (30_encoding.md R52, R53, R57). -/
def busRegion (m : MachineKind) (addr : Addr) : BusRegion :=
  if onControlPage addr then .controlPage
  else if inWindow m addr.toNat then
    if inWindow .xlxe addr.toNat then .window else .window5200
  else if belowBlock.has addr.toNat then .below
  else if inWindow .a5200 addr.toNat then .between
  else .above

end Sys2Proof
end

