-- ==== Sys2Proof/WellFormed.lean ====
section
/-! DEFINITION. Which events are well formed on a machine: the address of a bus event lies where its row of the opcode table says, and a
row of one machine stands on that machine only (30_encoding.md R52, R53, R57, R64). A host command's operands have no bit
encoding (R55), so every host command is well formed as syntax; the preconditions of R168 belong to its meaning. -/

namespace Sys2Proof

/-- Whether an event is one the machine's decoder can give. -/
def Instr.wf (m : MachineKind) : Instr → Bool
  | .ctrlRd addr _          => decide (busRegion m addr = .controlPage)
  | .ctrlRdPeek addr _      => decide (busRegion m addr = .controlPage)
  | .ctrlWr addr _          => decide (busRegion m addr = .controlPage)
  | .ctrlWrPeek addr _      => decide (busRegion m addr = .controlPage)
  | .winRd addr _           => decide (busRegion m addr = .window)
  | .winRdPeek addr _       => decide (busRegion m addr = .window)
  | .winWr addr _           => decide (busRegion m addr = .window)
  | .winWrPeek addr _       => decide (busRegion m addr = .window)
  | .winRdLo5200 addr _     => decide (busRegion m addr = .window5200)
  | .winRdPeekLo5200 addr _ => decide (busRegion m addr = .window5200)
  | .winWrLo5200 addr _     => decide (busRegion m addr = .window5200)
  | .winWrPeekLo5200 addr _ => decide (busRegion m addr = .window5200)
  | .busOtherQ0 _ _ addr _  => decide (busRegion m addr = .below)
  | .busOtherQ1 _ _ addr _  => decide (busRegion m addr = .between)
  | .busOtherQ3 _ _ addr _  => decide (busRegion m addr = .above)
  | .insert _ _ _ _ _       => true
  | .remove _               => true
  | .coldStart              => true
  | .lineRemap _            => true
  | .saveState              => true
  | .restoreState _ _       => true
  | .readImage _            => true
  | .writeImage _ _ _ _     => true
  | .remap _                => true
  | .fullRemap              => true

end Sys2Proof
end

