-- ==== Sys2Proof/Decode.lean ====
section
/-! DEFINITION. The decoder, total on every event, and after it the encoder (30_encoding.md R51 to R53, R55, R57, R62, R64). -/

namespace Sys2Proof

open Machine

/-- Why an event spells nothing (30_encoding.md R62). -/
inductive DecodeError where
  /-- A bus word of 2^26 or more (R62 c). -/
  | busWordTooWide
  /-- A host command code of 10 or more (R62 d). -/
  | reservedHostCode
deriving DecidableEq, Repr

/-- What `(p, w)` selects among the four forms of an event (30_encoding.md R52). -/
def selectForm (p w : Bool) (rd rdPeek wr wrPeek : Instr) : Instr :=
  match p, w with
  | false, false => rd
  | true,  false => rdPeek
  | false, true  => wr
  | true,  true  => wrPeek

/-- The event a bus word's fields select: `(p, w)` and the region of the address (30_encoding.md R52, R53, R57). -/
def decodeFields (m : MachineKind) (p w : Bool) (addr : Addr) (data : Byte) : Instr :=
  match busRegion m addr with
  | .controlPage => selectForm p w (.ctrlRd addr data) (.ctrlRdPeek addr data) (.ctrlWr addr data) (.ctrlWrPeek addr data)
  | .window => selectForm p w (.winRd addr data) (.winRdPeek addr data) (.winWr addr data) (.winWrPeek addr data)
  | .window5200 => selectForm p w (.winRdLo5200 addr data) (.winRdPeekLo5200 addr data) (.winWrLo5200 addr data) (.winWrPeekLo5200 addr data)
  | .below => .busOtherQ0 p w addr data
  | .between => .busOtherQ1 p w addr data
  | .above => .busOtherQ3 p w addr data

/-- Decode of a `BUS` word: `p` is bit 25, `w` bit 24, `addr` bits 23:8, `data` bits 7:0 (30_encoding.md R51). -/
def decodeBus (m : MachineKind) (word : BitVec 32) : Except DecodeError Instr :=
  if 2 ^ 26 ≤ word.toNat then .error .busWordTooWide
  else .ok (decodeFields m (word.getLsbD 25) (word.getLsbD 24) (word.extractLsb' 8 16) (word.extractLsb' 0 8))

/-- Decode of a `HOST` command code with its operands (30_encoding.md R55). Codes 8 and 9 "are issued only by other rules of this spec, never by
the host"; an event of code 8 or 9 from the input, of which the spec does not say what it would do, runs the step `REMAP` or `FULL_REMAP`: the
model's choice (log 24). -/
def decodeHost (code : BitVec 8) (ops : HostOps) : Except DecodeError Instr :=
  match code.toNat with
  | 0 => .ok (.insert ops.slot ops.kindArg ops.bytes ops.path ops.raw)
  | 1 => .ok (.remove ops.slot)
  | 2 => .ok .coldStart
  | 3 => .ok (.lineRemap ops.slot)
  | 4 => .ok .saveState
  | 5 => .ok (.restoreState ops.record ops.files)
  | 6 => .ok (.readImage ops.file)
  | 7 => .ok (.writeImage ops.path ops.kind ops.buf ops.raw)
  | 8 => .ok (.remap ops.slot)
  | 9 => .ok .fullRemap
  | _ => .error .reservedHostCode

/-- The decoder of a machine (30_encoding.md R64). -/
def decode (m : MachineKind) : Event → Except DecodeError Instr
  | .bus word => decodeBus m word
  | .host code ops => decodeHost code ops

/-- The word `(p << 25) | (w << 24) | (addr << 8) | data` (30_encoding.md R51). -/
def busWord (p w : Bool) (addr : Addr) (data : Byte) : BitVec 32 :=
  BitVec.ofNat 32 (p.toNat * 2 ^ 25 + w.toNat * 2 ^ 24 + addr.toNat * 2 ^ 8 + data.toNat)

/-- The encoder: the event that spells an instruction (30_encoding.md R51, R55). A host command leaves the operands it does not read at
their default values. -/
def encode : Instr → Event
  | .ctrlRd addr data          => .bus (busWord false false addr data)
  | .ctrlRdPeek addr data      => .bus (busWord true false addr data)
  | .ctrlWr addr data          => .bus (busWord false true addr data)
  | .ctrlWrPeek addr data      => .bus (busWord true true addr data)
  | .winRd addr data           => .bus (busWord false false addr data)
  | .winRdPeek addr data       => .bus (busWord true false addr data)
  | .winWr addr data           => .bus (busWord false true addr data)
  | .winWrPeek addr data       => .bus (busWord true true addr data)
  | .winRdLo5200 addr data     => .bus (busWord false false addr data)
  | .winRdPeekLo5200 addr data => .bus (busWord true false addr data)
  | .winWrLo5200 addr data     => .bus (busWord false true addr data)
  | .winWrPeekLo5200 addr data => .bus (busWord true true addr data)
  | .busOtherQ0 p w addr data  => .bus (busWord p w addr data)
  | .busOtherQ1 p w addr data  => .bus (busWord p w addr data)
  | .busOtherQ3 p w addr data  => .bus (busWord p w addr data)
  | .insert slot kindArg bytes path raw => .host 0 { slot, kindArg, bytes, path, raw }
  | .remove slot               => .host 1 { slot }
  | .coldStart                 => .host 2 {}
  | .lineRemap slot            => .host 3 { slot }
  | .saveState                 => .host 4 {}
  | .restoreState record files => .host 5 { record, files }
  | .readImage file            => .host 6 { file }
  | .writeImage path kind buf raw => .host 7 { path, kind, buf, raw }
  | .remap slot                => .host 8 { slot }
  | .fullRemap                 => .host 9 {}

/-- A row of spec/opcode_table.json over the bus word: the machine it holds on (`none` for both), match and mask (30_encoding.md R64). -/
structure BusRow where
  machine : Option MachineKind
  mtch    : Nat
  mask    : Nat
deriving DecidableEq, Repr

/-- Bits 25 and 24 of a word: the form `(p, w)` selects (30_encoding.md R51). -/
def formBits (p w : Bool) : Nat := p.toNat * 2 ^ 25 + w.toNat * 2 ^ 24

/-- The bits of a bus word that tell an aligned block of addresses from the rest of the address space. -/
def blockMask (r : AddrRange) : Nat := (Config.topAddr - (r.hi - r.lo)) * 2 ^ 8

/-- A row of one form over a block of addresses (30_encoding.md R52, R53). -/
def BusRow.form (m : Option MachineKind) (r : AddrRange) (p w : Bool) : BusRow :=
  ⟨m, formBits p w + r.lo * 2 ^ 8, formBits true true + blockMask r⟩

/-- The four rows of the control page (30_encoding.md R52). -/
def BusRow.page (p w : Bool) : BusRow := .form none Config.ctrl p w

/-- The four rows of the window addresses both machines have (30_encoding.md R53). -/
def BusRow.window (p w : Bool) : BusRow := .form none sharedBlock p w

/-- The four rows of the window addresses only the 5200 machine has (30_encoding.md R53). -/
def BusRow.window5200 (p w : Bool) : BusRow := .form (some .a5200) only5200Block p w

/-- A row of the rest of the bus, over a block of addresses and every form (30_encoding.md R64). -/
def BusRow.other (m : Option MachineKind) (r : AddrRange) : BusRow := ⟨m, r.lo * 2 ^ 8, blockMask r⟩

/-- The row of a bus instruction; `none` for a host command. -/
def Instr.busRow : Instr → Option BusRow
  | .ctrlRd _ _          => some (.page false false)
  | .ctrlRdPeek _ _      => some (.page true false)
  | .ctrlWr _ _          => some (.page false true)
  | .ctrlWrPeek _ _      => some (.page true true)
  | .winRd _ _           => some (.window false false)
  | .winRdPeek _ _       => some (.window true false)
  | .winWr _ _           => some (.window false true)
  | .winWrPeek _ _       => some (.window true true)
  | .winRdLo5200 _ _     => some (.window5200 false false)
  | .winRdPeekLo5200 _ _ => some (.window5200 true false)
  | .winWrLo5200 _ _     => some (.window5200 false true)
  | .winWrPeekLo5200 _ _ => some (.window5200 true true)
  | .busOtherQ0 _ _ _ _  => some (.other none belowBlock)
  | .busOtherQ1 _ _ _ _  => some (.other (some .xlxe) only5200Block)
  | .busOtherQ3 _ _ _ _  => some (.other none aboveBlock)
  | .insert _ _ _ _ _    => none
  | .remove _            => none
  | .coldStart           => none
  | .lineRemap _         => none
  | .saveState           => none
  | .restoreState _ _    => none
  | .readImage _         => none
  | .writeImage _ _ _ _  => none
  | .remap _             => none
  | .fullRemap           => none

/-- Every bus row of the table, in the table's order. -/
def busRows : List BusRow :=
  [.page false false, .page true false, .page false true, .page true true,
   .window false false, .window true false, .window false true, .window true true,
   .window5200 false false, .window5200 true false, .window5200 false true, .window5200 true true,
   .other none belowBlock, .other (some .xlxe) only5200Block, .other none aboveBlock]

/-- Whether a row's machine and bits match a word (30_encoding.md R64: `v & mask = match`, "the rows of its configured `Machine` and of
`both`"). -/
def BusRow.matchesWord (r : BusRow) (m : MachineKind) (word : BitVec 32) : Bool :=
  decide (r.machine = none ∨ r.machine = some m) && decide (word.toNat &&& r.mask = r.mtch)

/-- The number of set bits of a mask. -/
def maskBits (n : Nat) : Nat := ((List.range 26).filter fun b => n.testBit b).length

/-- The event a table word stands for: one whole byte of a `HOST` code, or a `BUS` word, with the default operands where the table gives
none (log 2). -/
def tableEvent (nbits w : Nat) : Event :=
  if nbits ≤ 8 then .host (BitVec.ofNat 8 w) {} else .bus (BitVec.ofNat 32 w)

/-- The instruction the decoder reads from a table word, on the machine the model's reset configures (log 3). -/
def decodeTableWord (nbits w : Nat) : Option Instr :=
  match decode .xlxe (tableEvent nbits w) with
  | .ok i => some i
  | .error _ => none

end Sys2Proof
end

