-- ==== Sys2Proof/Machine/Kinds.lean ====
section
/-! DEFINITION. The kinds in an order: which of them are cartridge types, and a number for each, so that a table of type codes given as data is a
code for every kind (00_scope.md R6, `KindCode`; log 8). -/

namespace Sys2Proof

/-- Whether a kind is a cartridge type: every kind but `None`, the empty slot, and `Unknown`, which has no code (10_state.md R11;
45_slot_operations.md R178). -/
def Kind.isType : Kind → Bool
  | .none => false
  | .unknown => false
  | .std8 => true
  | .oss16 => true
  | .sdx _ => true
  | .rot32 => true
  | .clamp => true
  | .bbsb => true
  | .sc5200 => true
  | .other _ => true
  | .test _ => true

/-- The place of a test instance among them. -/
def TestKind.index : TestKind → Nat
  | .tSdx => 0
  | .tSub => 1
  | .tRdr => 2
  | .tRam => 3
  | .tHook => 4
  | .tLine => 5
  | .tNv => 6

/-- The place of a kind. -/
def Kind.index : Kind → Nat
  | .none => 0
  | .unknown => 1
  | .std8 => 2
  | .oss16 => 3
  | .rot32 => 4
  | .clamp => 5
  | .bbsb => 6
  | .sc5200 => 7
  | .test t => 8 + t.index
  | .sdx v => 256 + v.toNat
  | .other n => 512 + n.toNat

/-- How many places there are. -/
abbrev Kind.places : Nat := 768

/-- The test instance at a place. -/
def TestKind.ofIndex : Nat → TestKind
  | 0 => .tSdx
  | 1 => .tSub
  | 2 => .tRdr
  | 3 => .tRam
  | 4 => .tHook
  | 5 => .tLine
  | _ => .tNv

/-- The kind at a place, `None` where there is none. -/
def Kind.ofIndex (n : Nat) : Kind :=
  if 512 ≤ n then .other (BitVec.ofNat 8 (n - 512))
  else if 256 ≤ n then .sdx (BitVec.ofNat 8 (n - 256))
  else if 8 ≤ n then .test (TestKind.ofIndex (n - 8))
  else
    match n with
    | 1 => .unknown
    | 2 => .std8
    | 3 => .oss16
    | 4 => .rot32
    | 5 => .clamp
    | 6 => .bbsb
    | 7 => .sc5200
    | _ => .none

theorem Kind.index_lt (k : Kind) : k.index < Kind.places := by
  cases k with
  | sdx v => have := v.isLt; simp only [Kind.index, Kind.places]; omega
  | other n => have := n.isLt; simp only [Kind.index, Kind.places]; omega
  | test t => cases t <;> decide
  | _ => decide

/-- A kind's place is its own. -/
theorem Kind.ofIndex_index (k : Kind) : Kind.ofIndex k.index = k := by
  cases k with
  | sdx v =>
    have := v.isLt
    have h1 : ¬ 512 ≤ 256 + v.toNat := by omega
    simp [Kind.index, Kind.ofIndex, h1]
  | other n => simp [Kind.index, Kind.ofIndex]
  | test t => cases t <;> decide
  | _ => decide

theorem Kind.index_inj {k l : Kind} (h : k.index = l.index) : k = l := by
  rw [← Kind.ofIndex_index k, h, Kind.ofIndex_index]

end Sys2Proof
end

