-- ==== Sys2Proof/Machine/State.lean ====
section
/-! DEFINITION. The state as plain data, the reasons a step stops, and the state after reset (10_state.md; 70_reset_and_hazards.md R220). -/

namespace Sys2Proof.Machine

/-- One slot record, `x[s]` (10_state.md R10). -/
structure Slot where
  kind   : Kind
  sizeKb : Nat
  buffer : Option (List Byte)
  state  : StateWord
  path   : Text
  raw    : Bool
deriving DecidableEq, Repr

/-- The canonical empty record (10_state.md R12 c; the spec's decision D16). -/
def Slot.empty : Slot where
  kind := .none
  sizeKb := 0
  buffer := Option.none
  state := 0
  path := []
  raw := false

/-- The bytes of the window image `W.byte`: cells with strictly rising addresses, none holding the byte an unlisted address reads as. -/
abbrev Memory := List Host.Cell

/-- The window image `W` (10_state.md R22): the addresses with `W.en` set and those with `W.ram` set, each strictly rising, and `W.byte`. -/
structure Window where
  en    : List Nat
  ram   : List Nat
  bytes : Memory
deriving DecidableEq, Repr

/-- The four commands of the memory-window mapper (43_remap.md R136). -/
inductive MapperCmd where
  | enable  (lo hi : Nat)
  | disable (lo hi : Nat)
  | copy    (lo hi : Nat) (bytes : List Byte)
  | markRam (lo hi : Nat)
deriving DecidableEq, Repr

/-- The handled flag of a control-page write (40_control_page_access.md R74). -/
inductive Handled where
  | unhandled
  | handled
deriving DecidableEq, Repr

/-- The result of `WRITE_IMAGE` (46_image_container.md R193; 60_exceptions.md R200). -/
inductive IoResult where
  | ok
  | ioError
deriving DecidableEq, Repr

/-- One write to storage: the path, the file's bytes, and how it ended. -/
structure FileWrite where
  path   : Text
  bytes  : List Byte
  result : IoResult
deriving DecidableEq, Repr

/-- What the block answered to the last event (log 11): the byte of a read, the handled flag of a write, the mapper commands in the order
issued, the cold-restart token, the saved record, the loader's result, the writer's result, the files written. -/
structure Output where
  data        : Option Byte := none
  handled     : Option Handled := none
  commands    : List MapperCmd := []
  coldRestart : Bool := false
  record      : Option (List SaveEntry) := none
  load        : Option LoadResult := none
  io          : Option IoResult := none
  writes      : List FileWrite := []
deriving DecidableEq, Repr

/-- The checksum helper of loader tables given as data: the open one, or the byte sum that 95_test_vectors.md section 3.8 uses as a test
instance (log 8). -/
inductive ChecksumFn where
  | external
  | byteSum
deriving DecidableEq, Repr

/-- Whether tables are those of a `KindCode` and a `SizeTable`: the rows name cartridge types, no type and no code twice, every code is at least 1
and below `base`, from where the types with no row are numbered; and the size table lists cartridge types (45_slot_operations.md R178;
46_image_container.md R188; log 8). -/
def lawfulTables (codes : List (Kind × Code)) (base : Nat) (sizeKinds : List Kind) : Bool :=
  codes.all (fun r => r.1.isType && decide (0 < r.2.toNat) && decide (r.2.toNat < base)) &&
    decide (codes.map (·.1)).Nodup && decide (codes.map (·.2)).Nodup &&
    decide (0 < base) && decide (base + Kind.places < 2 ^ 31) && sizeKinds.all Kind.isType

/-- Loader parameters given as data (00_scope.md R6; log 8): the codes of some types, a number from which the others are numbered in the order of
`Kind.index`, `KIND_CODE_MAX`, the kinds of `SizeTable` (each is paired with its declared size), the checksum helper, `PRESIZE_FILL`. -/
structure LoaderTables where
  codes       : List (Kind × Code)
  base        : Nat
  codeMax     : Nat
  sizeKinds   : List Kind
  checksum    : ChecksumFn
  presizeFill : Byte
  lawful      : lawfulTables codes base sizeKinds = true
deriving DecidableEq, Repr

/-- The state of the machine. `p`, `g`, `active` and `window` are the block's state and the window image (10_state.md R10, R15, R22);
`input` is what the outside has still to say and `out` what the block answered last; `machine`, `autoreboot`, `loader` and `sdxPbMask` are
parameters of 00_scope.md R6, constant during a run (log 3, log 8, log 16); `ioCount` numbers the writes to storage (log 10). -/
structure State where
  machine    : MachineKind
  autoreboot : Bool
  loader     : Option LoaderTables
  sdxPbMask  : StateWord
  p          : Slot
  g          : Slot
  active     : SlotName
  window     : Window
  input      : List Event
  out        : Output
  ioCount    : Nat
deriving DecidableEq, Repr

/-- Why an `INSERT` was refused: its type code (30_encoding.md R62 e), a precondition (45_slot_operations.md R168), or the combination R171 refuses. -/
inductive InsertFailure where
  /-- The kind is given as a type code outside `1..KIND_CODE_MAX` (30_encoding.md R62 e). -/
  | codeRange
  /-- The kind is given as a type code that is no kind's (30_encoding.md R56; log 17). -/
  | codeOfNoKind
  /-- R168 (a): the kind is `None`. -/
  | kindNone
  /-- R168 (b): the length is no positive multiple of 1024. -/
  | length
  /-- R168 (c): not the size the kind accepts. -/
  | size
  /-- R168 (d): the kind's mapping is not defined for the machine. -/
  | machine
  /-- R168 (e): a precondition of 44_address_line_remapper.md R154. -/
  | lineMap
  /-- R168 (f): a piggyback while the primary is empty. -/
  | noPrimary
  /-- R171: a nonvolatile line-remapped kind. -/
  | nonvolatileLineMap
deriving DecidableEq, Repr

/-- The reasons a step stops with a fault. The block raises no fault of its own (60_exceptions.md R201, R205). -/
inductive Fault where
  /-- "The only fatal condition" of the software host (60_exceptions.md R204). No meaning of the model raises it: its sequences are
  mathematical and cannot run out. Safe. -/
  | outOfMemory
deriving DecidableEq, Repr

/-- The refusals of the model (60_exceptions.md R213): events the sources give no meaning. All are safe: a claim about such an event
cannot be proved (log 17). -/
inductive Refusal where
  /-- An instruction that has no meaning yet. Raised by no arm. -/
  | notModelled (mnemonic : String)
  /-- An event word that spells no event (30_encoding.md R62). Raised by `step`. -/
  | decode (e : DecodeError)
  /-- A `BufRead` or `BufWrite` outside the buffer (00_scope.md R9). Raised by a remap and by a RAM store. -/
  | bufferRange
  /-- A slot whose kind has no mapping for this machine and size (41_type_descriptors.md R113). Raised by a remap; no insertion
  lets such a slot arise. -/
  | mappingUndefined
  /-- The type code or a precondition of `INSERT` fails (30_encoding.md R62 e; 45_slot_operations.md R168). Raised by `INSERT`, and for a
  precondition by `RESTORE_STATE`. -/
  | insert (f : InsertFailure)
  /-- `LINE_REMAP` fails a precondition of 44_address_line_remapper.md R154. Raised by `LINE_REMAP`. -/
  | lineRemap
  /-- A nonvolatile line-remapped kind would be written back (45_slot_operations.md R171). Raised by a removal. -/
  | nonvolatileLineMap
  /-- `SAVE_STATE` with a slot of kind `Unknown` (45_slot_operations.md R178). -/
  | saveUnknown
  /-- `RESTORE_STATE` naming a code with no kind (45_slot_operations.md R180). -/
  | restoreCode
  /-- `RESTORE_STATE` of a record shorter than its sign promises (93_implementation_defined.md U14). -/
  | restoreRecord
deriving DecidableEq, Repr

/-- What a meaning answers. -/
abbrev Answer := Host.Outcome State Fault Refusal

/-- The window image with nothing enabled (10_state.md R25). -/
def Window.empty : Window := ⟨[], [], []⟩

/-- Power-on with no cartridge (70_reset_and_hazards.md R220 a; 10_state.md R25), on an `XLXE` machine with no autoreboot, the open loader
parameters (log 3, log 8) and `SDX_PB_MASK` at its default (41_type_descriptors.md R107; log 16). -/
def State.reset : State where
  machine := .xlxe
  autoreboot := false
  loader := none
  sdxPbMask := Config.sdxPbMaskDefault
  p := Slot.empty
  g := Slot.empty
  active := .P
  window := Window.empty
  input := []
  out := {}
  ioCount := 0

end Sys2Proof.Machine
end

