-- ==== Sys2Proof/Machine/Descriptor.lean ====
section
/-! DEFINITION. The shape of a cartridge type: segments, descriptors, line maps, and what makes them well formed
(41_type_descriptors.md R90, R91, R94; 44_address_line_remapper.md R151; 42_window_access.md R126). -/

namespace Sys2Proof.Machine

/-- The OR of one mask per set bit of `v`, bit 0 first: the construction shared by the scatter function of RAM types and the two
line functions of the remapper (42_window_access.md R126; 44_address_line_remapper.md R153, R157). -/
def orMasks : List Nat → Nat → Nat
  | [], _ => 0
  | m :: ms, v => (if v % 2 = 1 then m else 0) ||| orMasks ms (v / 2)

/-- What a segment shows (41_type_descriptors.md R91). -/
inductive Content where
  | disabled
  | fill
  | romAt (off : Nat)
  | ram
deriving DecidableEq, Repr, Inhabited

/-- One entry of a type's mapping for a state (41_type_descriptors.md R91). -/
structure Segment where
  lo      : Nat
  hi      : Nat
  content : Content
deriving DecidableEq, Repr, Inhabited

/-- Whether a segment covers an address. -/
def Segment.has (g : Segment) (a : Nat) : Bool := decide (g.lo ≤ a) && decide (a ≤ g.hi)

/-- The number of addresses of a segment, `|[lo..hi]|` (00_scope.md R8). -/
def Segment.size (g : Segment) : Nat := g.hi + 1 - g.lo

/-- What a mapping shows at an address: the content of its first segment there, with that segment. -/
def segmentAt (segs : List Segment) (a : Nat) : Option Segment := segs.find? (·.has a)

/-- The trigger ranges and the transition of a window-switched design (41_type_descriptors.md R90; 42_window_access.md R121). -/
structure Hook where
  ranges : List AddrRange
  tr     : StateWord → Addr → Bool → Byte → Option StateWord
deriving Inhabited

/-- Whether an access of `addr` fires the hook. -/
def Hook.triggers (h : Hook) (addr : Addr) : Bool := h.ranges.any (·.has addr.toNat)

/-- The RAM functions of a RAM-backed type (41_type_descriptors.md R90, R99): the two flags of its state word, and the masks of its scatter
function, one per address bit and one per state bit (42_window_access.md R126). -/
structure RamOps where
  locked   : StateWord → Bool
  writable : StateWord → Bool
  amask    : Vector Nat Config.addrBits
  smask    : Vector Nat Config.stateBits
deriving Inhabited

/-- `scatter(st, addr)`, the buffer offset of a window address (42_window_access.md R126). -/
def RamOps.scatter (r : RamOps) (st : StateWord) (a : Nat) : Nat :=
  orMasks r.amask.toList a ||| orMasks r.smask.toList st.toNat

/-- The passthrough function of a primary type that can switch a piggyback in: of the mask parameter `SDX_PB_MASK` and the state word
(41_type_descriptors.md R90, R106, R107; log 16). -/
structure Passthrough where
  selectsPiggyback : StateWord → StateWord → Bool
deriving Inhabited

/-- `TypeTable(kind)`: the record of pure functions and constants of a type (41_type_descriptors.md R90). -/
structure Descriptor where
  initState   : StateWord
  wr          : StateWord → Addr → Byte → Option StateWord
  rd          : StateWord → Addr → Option StateWord
  status      : StateWord → Addr → Byte
  map         : StateWord → MachineKind → Nat → List Segment
  hook        : Option Hook
  ram         : Option RamOps
  passthrough : Option Passthrough
  nonvolatile : Bool
deriving Inhabited

/-- The unsupported descriptor: of `None`, of `Unknown`, and of any kind a table does not support
(41_type_descriptors.md R101, R102; its values are the spec's decision D16). The defaults of R93 are its `rd` and `status`. -/
def Descriptor.unsupported : Descriptor where
  initState := 0
  wr _ _ _ := Option.none
  rd _ _ := Option.none
  status _ _ := Config.idleStatus
  map _ _ _ := []
  hook := Option.none
  ram := Option.none
  passthrough := Option.none
  nonvolatile := false

/-- A mapping shows RAM at an address. -/
def ramAt (segs : List Segment) (a : Nat) : Prop := ∃ g ∈ segs, g.has a = true ∧ g.content = .ram

/-- A mapping covers an address. -/
def covers (segs : List Segment) (a : Nat) : Prop := ∃ g ∈ segs, g.has a = true

/-- A descriptor is well formed on a machine, with an image of `kb` KB (41_type_descriptors.md R91, and R100: a nonvolatile type is RAM-backed). -/
structure Descriptor.Wf (d : Descriptor) (m : MachineKind) (kb : Nat) : Prop where
  inWindows    : ∀ st, ∀ g ∈ d.map st m kb, ∃ w ∈ windows m, w.lo ≤ g.lo ∧ g.lo ≤ g.hi ∧ g.hi ≤ w.hi
  disjoint     : ∀ st, (d.map st m kb).Pairwise fun a b => a.hi < b.lo ∨ b.hi < a.lo
  romBound     : ∀ st, ∀ g ∈ d.map st m kb, ∀ off, g.content = .romAt off → off + (g.hi - g.lo) < kb * Config.kiloByte
  ramBound     : ∀ st, ∀ g ∈ d.map st m kb, g.content = .ram →
    ∃ r, d.ram = some r ∧ ∀ a, g.has a = true → r.scatter st a < kb * Config.kiloByte
  ramInjective : ∀ st r, d.ram = some r → ∀ a b, ramAt (d.map st m kb) a → ramAt (d.map st m kb) b →
    r.scatter st a = r.scatter st b → a = b
  coverage     : ∀ st st' a, covers (d.map st m kb) a → covers (d.map st' m kb) a
  nonvolatile  : d.nonvolatile = true → d.ram.isSome = true

/-- No ROM segment of a mapping shows a buffer byte that a RAM segment of it shows too. DEDUCED: 41_type_descriptors.md R91 asks this of two RAM
addresses, not of a ROM and a RAM address; where it failed, the store of 42_window_access.md R125, which refreshes the one address, would leave
the window image apart from the mapping, against 20_memory.md R43 and 43_remap.md R142 (log 23). -/
def Descriptor.Apart (d : Descriptor) (m : MachineKind) (kb : Nat) : Prop := ∀ st a b g off r, segmentAt (d.map st m kb) a = some g →
  g.content = .romAt off → d.ram = some r → ramAt (d.map st m kb) b → r.scatter st b ≠ off + (a - g.lo)

theorem Descriptor.unsupported_wf (m : MachineKind) (kb : Nat) : Descriptor.unsupported.Wf m kb := by
  constructor <;> simp [Descriptor.unsupported, ramAt, covers]

/-- A type with no RAM shows no byte both ways. -/
theorem Descriptor.Apart.of_no_ram {d : Descriptor} {m : MachineKind} {kb : Nat} (h : d.ram = Option.none) : d.Apart m kb :=
  fun _ _ _ _ _ _ _ _ hr => by rw [h] at hr; cases hr

/-- Well-formedness looks at the mapping, the RAM functions and the nonvolatile flag alone. -/
theorem Descriptor.Wf.of_eq {d e : Descriptor} {m : MachineKind} {kb : Nat} (h : d.Wf m kb)
    (hm : e.map = d.map) (hr : e.ram = d.ram) (hn : e.nonvolatile = d.nonvolatile) : e.Wf m kb := by
  obtain ⟨_, _, _, _, em, _, er, _, en⟩ := e
  simp only at hm hr hn
  subst hm hr hn
  exact ⟨h.inWindows, h.disjoint, h.romBound, h.ramBound, h.ramInjective, h.coverage, h.nonvolatile⟩

/-- The two index tables of a line-remapped kind, both permutations (10_state.md R20; 44_address_line_remapper.md R151). -/
structure LineMap where
  amap     : Vector (Fin Config.addrLines) Config.addrLines
  dmap     : Vector (Fin Config.dataLines) Config.dataLines
  amapPerm : amap.toList.Nodup
  dmapPerm : dmap.toList.Nodup

/-- `PermAddr(amap, i)` (44_address_line_remapper.md R153). -/
def LineMap.permAddr (lm : LineMap) (i : Nat) : Nat := orMasks (lm.amap.toList.map fun l => 2 ^ l.val) i

/-- `PermData(dmap, y)` (44_address_line_remapper.md R153). -/
def LineMap.permData (lm : LineMap) (y : Byte) : Byte :=
  BitVec.ofNat _ (orMasks (lm.dmap.toList.map fun l => 2 ^ l.val) y.toNat)

/-- A type as the model holds it: the one machine it is defined for (41_type_descriptors.md R113), its one declared size in KB
(46_image_container.md R188), its descriptor with the proof that it is well formed (R94), and its line maps if it is of one of
the two copy-protected families (R112). -/
structure TypeEntry where
  machine : MachineKind := .xlxe
  sizeKb  : Nat := 0
  d       : Descriptor := Descriptor.unsupported
  lineMap : Option LineMap := Option.none
  wf      : d.Wf machine sizeKb := by exact Descriptor.unsupported_wf _ _
deriving Inhabited

/-- An entry the document does not contain: well formed, with no window hook, which the two window-switched designs alone have
(41_type_descriptors.md R90, R94; 20_memory.md R33, R34), and with its ROM and its RAM apart (log 23). -/
structure OpenEntry where
  entry  : TypeEntry := {}
  noHook : entry.d.hook = Option.none := by rfl
  apart  : entry.d.Apart entry.machine entry.sizeKb := by exact Descriptor.Apart.of_no_ram rfl
deriving Inhabited

/-- The descriptor of a named design banked through the control page: what the document gives or leaves open of it, and the defaults of
41_type_descriptors.md R93 for the rest (no read transition, status 0xFF, no hook, no RAM, no passthrough, not nonvolatile). -/
def bankedDescriptor (init : StateWord) (wr : StateWord → Addr → Byte → Option StateWord) (map : StateWord → List Segment) : Descriptor :=
  { Descriptor.unsupported with
    initState := init
    wr := wr
    map := fun st _ _ => map st }

/-- What the document leaves open of a named design of machine `m` that is banked through the control page, besides its write transition: its size, its
initial state, and a well-formed mapping (41_type_descriptors.md R94, R106, R110); and it declares a size, since an occupied slot holds a positive
number of kilobytes (10_state.md R12; log 5). -/
structure BankedEntry (m : MachineKind) where
  sizeKb   : Nat := 1
  init     : StateWord := 0
  map      : StateWord → List Segment := fun _ => []
  positive : 0 < sizeKb := by decide
  wf       : (bankedDescriptor init (fun _ _ _ => Option.none) map).Wf m sizeKb := by
    constructor <;> simp [bankedDescriptor, Descriptor.unsupported, ramAt, covers]
deriving Inhabited

/-- The descriptor of a window-switched design: the control page does nothing, the window hook does everything
(41_type_descriptors.md R111; 42_window_access.md R121). -/
def hookedDescriptor (init : StateWord) (map : StateWord → List Segment) (hook : Hook) : Descriptor where
  initState := init
  wr _ _ _ := Option.none
  rd _ _ := Option.none
  status _ _ := Config.idleStatus
  map st _ _ := map st
  hook := some hook
  ram := Option.none
  passthrough := Option.none
  nonvolatile := false

/-- What R111 leaves open of a window-switched design on machine `m`, with what it fixes: the mapping is well formed, and the trigger
ranges lie inside the mapped window; and it declares a size (log 5). -/
structure HookEntry (m : MachineKind) where
  sizeKb   : Nat := 1
  init     : StateWord := 0
  map      : StateWord → List Segment := fun _ => []
  hook     : Hook := ⟨[], fun _ _ _ _ => Option.none⟩
  positive : 0 < sizeKb := by decide
  wf       : (hookedDescriptor init map hook).Wf m sizeKb := by
    constructor <;> simp [hookedDescriptor, ramAt, covers]
  mapped   : ∀ st, ∀ r ∈ hook.ranges, ∀ a, r.has a = true → covers (map st) a := by simp
deriving Inhabited

/-- An open content of one range: off, filled, or a bank at some offset of at most `maxOff`. -/
inductive OpenContent (maxOff : Nat) where
  | disabled
  | fill
  | romAt (off : Fin (maxOff + 1))
deriving Inhabited

/-- The content an open content stands for. -/
def OpenContent.content {n : Nat} : OpenContent n → Content
  | .disabled => .disabled
  | .fill => .fill
  | .romAt off => .romAt off.val

end Sys2Proof.Machine
end

