-- ==== Sys2Proof/Config.lean ====
section
/-! DEFINITION. What the spec leaves open: the type tables of 00_scope.md R6 and the free values. Every constant here is opaque: nothing is
known of it but what its type carries. The numbers the document gives stand in Machine/Configuration.lean, and the loader's open parameters in
Machine/Loader.lean, all under this namespace. -/

namespace Sys2Proof

open Sys2Proof.Machine

/-- The type of an `other` kind: a well-formed entry with no hook and with its ROM and its RAM apart, assumed nothing else of
(41_type_descriptors.md R94; logs 5 and 23). -/
opaque Config.openType : BitVec 8 → OpenEntry

/-- The mapping, size and initial state of an SDX-family kind, which the document does not give (41_type_descriptors.md R106; log 5). The family is of
the XLXE machine: the example of R107 has an `STD_8` behind it (DEDUCED, log 5). -/
opaque Config.sdxBase : BitVec 8 → BankedEntry .xlxe

/-- The write transition of an SDX-family kind, which the document does not give (41_type_descriptors.md R106; log 5). -/
opaque Config.sdxWr : BitVec 8 → StateWord → Addr → Byte → Option StateWord

/-- The machine `CLAMP` is defined for, which the document does not give (41_type_descriptors.md R110, R113; log 5). -/
opaque Config.clampMachine : MachineKind

/-- What the document does not give of `CLAMP` besides its machine and the two arms (41_type_descriptors.md R110; log 5). -/
opaque Config.clampBase : BankedEntry Config.clampMachine

/-- `ClampCase`, the arm below 4 (41_type_descriptors.md R110). -/
opaque Config.clampCase : StateWord → Addr → Byte → Option StateWord

/-- `ClampDefault`, the arm from 4 on (41_type_descriptors.md R110). -/
opaque Config.clampDefault : StateWord → Addr → Byte → Option StateWord

/-- The machine `BBSB` is defined for, which the document does not give (41_type_descriptors.md R111, R113; log 18). -/
opaque Config.bbsbMachine : MachineKind

/-- `BBSB`, "Bounty Bob paging" (41_type_descriptors.md R111; log 18). -/
opaque Config.bbsb : HookEntry Config.bbsbMachine

/-- `SC_5200`, the 5200 "SuperCart" (41_type_descriptors.md R111; log 18). -/
opaque Config.sc5200 : HookEntry .a5200

/-- `init_state` of `OSS_16` (41_type_descriptors.md R104). -/
opaque Config.ossInit : StateWord

/-- `OssOther(n, st)`: the twelve nibbles the document does not give (41_type_descriptors.md R104). -/
opaque Config.ossOther : BitVec 4 → StateWord → Option StateWord

/-- The read-triggered transition of `OSS_16` (41_type_descriptors.md R104: "`rd` is a configuration field for it"). -/
opaque Config.ossRd : StateWord → Addr → Option StateWord

/-- `OssLow(st)`: what 0xA000..0xAFFF shows in a state other than the disabled one (41_type_descriptors.md R105). -/
opaque Config.ossLow : StateWord → OpenContent (3 * Config.ossBank)

/-- What 0xB000..0xBFFF shows in a state that is none of `s0`, `s1`, `sd` (41_type_descriptors.md R104; log 14). -/
opaque Config.ossHigh : StateWord → OpenContent (3 * Config.ossBank)

/-- What `ROT_32` shows in a state above 4, which only a restored record can bring about (41_type_descriptors.md R109; log 15). -/
opaque Config.rotAbove : StateWord → OpenContent (3 * Config.rotBank)

/-- `SizeOf` of a kind that declares no size, `None` or `Unknown` (46_image_container.md R188, R193; log 9). -/
opaque Config.undeclaredSizeKb : Kind → Nat

/-- What `READ_IMAGE` answers for a header whose code is in range and is no kind's code, as a function of the file
(46_image_container.md R186, R189; log 9). -/
opaque Config.codeGap : List Byte → LoadResult

/-- Whether the `n`-th write to storage fails (46_image_container.md R193: "`IoError` if the write fails"; log 10). -/
opaque Config.storageFails : Nat → Bool

end Sys2Proof
end

