-- ==== Sys2Proof/Machine/Operands.lean ====
section
/-! DEFINITION. Operand forms: the sub-fields of a control-page access and the classes of descriptor functions built on them
(30_encoding.md R58; 41_type_descriptors.md R95, R96), big-endian header fields (20_memory.md R30; 46_image_container.md R188), and the
names of slots and records (00_scope.md R9). -/

namespace Sys2Proof.Machine

/-- `addr[7:4]`, the high nibble of the low address byte (30_encoding.md R58; the reading is the spec's decision D12). -/
def highNibble (addr : Addr) : BitVec 4 := addr.extractLsb' 4 4

/-- `addr[3:0]` (30_encoding.md R58). -/
def lowNibble (addr : Addr) : BitVec 4 := addr.extractLsb' 0 4

/-- The address-decoded single register: `new_state = addr & mask` (41_type_descriptors.md R95). -/
def addrRegister (mask : StateWord) (addr : Addr) : StateWord := addr.setWidth 32 &&& mask

/-- The value-decoded single register: `new_state = value & mask` (41_type_descriptors.md R95). -/
def valueRegister (mask : StateWord) (v : Byte) : StateWord := v.setWidth 32 &&& mask

/-- The mapping of a single-register type with a disable bit: off, or the bank its other bits select (41_type_descriptors.md R95). -/
def bankedMap (mask dbit : StateWord) (bank lo hi : Nat) (n : StateWord) : List Segment :=
  if n &&& dbit ≠ 0 then [⟨lo, hi, .disabled⟩] else [⟨lo, hi, .romAt ((n &&& (mask &&& ~~~dbit)).toNat * bank)⟩]

/-- The sub-range class: a write outside the sub-range `K` is unhandled (41_type_descriptors.md R96). -/
def inSubRange (k : BitVec 4) (addr : Addr) (inner : Option StateWord) : Option StateWord :=
  if highNibble addr = k then inner else Option.none

/-- The four bytes of an `i32`, most significant first (46_image_container.md R193, `be32`). -/
def be32 (v : Code) : List Byte :=
  [v.extractLsb' 24 8, v.extractLsb' 16 8, v.extractLsb' 8 8, v.extractLsb' 0 8]

/-- The `n` bytes at offset `o` of a file. -/
def bytesAt (file : List Byte) (o n : Nat) : List Byte := (file.drop o).take n

/-- A file with the bytes `bs` stored at offset `o`. -/
def putBytes (file : List Byte) (o : Nat) (bs : List Byte) : List Byte := file.take o ++ bs ++ file.drop (o + bs.length)

/-- The big-endian field at offset `o` of a file (20_memory.md R30; 46_image_container.md R188). -/
def readBe32 (file : List Byte) (o : Nat) : Code :=
  file.getD o 0 ++ file.getD (o + 1) 0 ++ file.getD (o + 2) 0 ++ file.getD (o + 3) 0

/-- The record of a slot, `x[s]` (00_scope.md R9). -/
def State.slot (s : State) : SlotName → Slot
  | .P => s.p
  | .G => s.g

/-- Replacing the record of a slot (00_scope.md R9). -/
def State.setSlot (s : State) (sl : SlotName) (x : Slot) : State :=
  match sl with
  | .P => { s with p := x }
  | .G => { s with g := x }

/-- The state with nothing answered yet: every event starts so (log 11). -/
def State.clearOut (s : State) : State := { s with out := {} }

end Sys2Proof.Machine
end

