-- ==== Sys2Proof/Machine/Flags.lean ====
section
/-! DEFINITION. The flags of the block: it has no condition codes (10_state.md R18). The flags it has live in the state word and are read
through the descriptor; the handled flag is an output of one event (40_control_page_access.md R74). -/

namespace Sys2Proof.Machine

/-- The handled flag of a write that reaches several slots: handled if one slot handled it (40_control_page_access.md R73). -/
def Handled.or : Handled → Handled → Handled
  | .unhandled, h => h
  | .handled, _ => .handled

/-- The piggyback-select pattern under a mask (41_type_descriptors.md R107). -/
def selectPattern (mask st : StateWord) : Bool := decide (st &&& mask = Config.pbPattern)

/-- Whether a RAM-backed type's state lets a write through: unlocked and read-write (42_window_access.md R125; the second gate is the spec's
decision D11). -/
def RamOps.storesIn (r : RamOps) (st : StateWord) : Bool := !r.locked st && r.writable st

/-- Whether a state of a passthrough type selects the piggyback, under the mask parameter; false for any other type (10_state.md R16). -/
def Descriptor.selects (d : Descriptor) (mask st : StateWord) : Bool :=
  match d.passthrough with
  | some pt => pt.selectsPiggyback mask st
  | Option.none => false

end Sys2Proof.Machine
end

