-- ==== Sys2Proof/Machine/Types.lean ====
section
/-! DEFINITION. `TypeTable`: the entry of every kind (41_type_descriptors.md R101 to R113), and the test instances of 95_test_vectors.md
section 2. Each entry carries the proof that its descriptor is well formed (R94). -/

namespace Sys2Proof.Machine

/-! ### Small facts the well-formedness proofs share -/

/-- A mapping that is one segment over a fixed range of a window is well formed when its ROM offset stays inside the image; with a `Ram`
segment, when the scatter function is in range and injective there. -/
theorem wf_of_one_segment {d : Descriptor} {m : MachineKind} {kb lo hi : Nat} (c : StateWord → Content)
    (hmap : ∀ st, d.map st m kb = [⟨lo, hi, c st⟩])
    (hwin : ∃ w ∈ windows m, w.lo ≤ lo ∧ lo ≤ hi ∧ hi ≤ w.hi)
    (hrom : ∀ st off, c st = .romAt off → off + (hi - lo) < kb * Config.kiloByte)
    (hram : ∀ st, c st = .ram → ∃ r, d.ram = some r ∧
      (∀ a, lo ≤ a → a ≤ hi → r.scatter st a < kb * Config.kiloByte) ∧
      ∀ a b, lo ≤ a → a ≤ hi → lo ≤ b → b ≤ hi → r.scatter st a = r.scatter st b → a = b)
    (hnv : d.nonvolatile = true → d.ram.isSome = true) : d.Wf m kb where
  inWindows st g hg := by
    rw [hmap, List.mem_singleton] at hg
    subst hg
    exact hwin
  disjoint st := by rw [hmap]; exact List.pairwise_singleton _ _
  romBound st g hg off hc := by
    rw [hmap, List.mem_singleton] at hg
    subst hg
    exact hrom st off hc
  ramBound st g hg hc := by
    rw [hmap, List.mem_singleton] at hg
    subst hg
    obtain ⟨r, hr, hb, _⟩ := hram st hc
    refine ⟨r, hr, fun a ha => ?_⟩
    simp only [Segment.has, Bool.and_eq_true, decide_eq_true_eq] at ha
    exact hb a ha.1 ha.2
  ramInjective st r hr a b ha hb hab := by
    obtain ⟨g, hg, hga, hc⟩ := ha
    obtain ⟨g', hg', hgb, _⟩ := hb
    rw [hmap, List.mem_singleton] at hg hg'
    subst hg hg'
    obtain ⟨r', hr', _, hi⟩ := hram st hc
    rw [hr] at hr'
    cases hr'
    simp only [Segment.has, Bool.and_eq_true, decide_eq_true_eq] at hga hgb
    exact hi a b hga.1 hga.2 hgb.1 hgb.2 hab
  coverage st st' a h := by
    obtain ⟨g, hg, hga⟩ := h
    rw [hmap, List.mem_singleton] at hg
    subst hg
    exact ⟨⟨lo, hi, c st'⟩, by rw [hmap]; exact List.mem_singleton.2 rfl, hga⟩
  nonvolatile := hnv

/-- Two adjacent segments over fixed ranges, neither of them RAM, are well formed when their ROM offsets stay inside the image. -/
theorem wf_of_two_segments {d : Descriptor} {m : MachineKind} {kb lo mid hi : Nat} (c1 c2 : StateWord → Content)
    (hmap : ∀ st, d.map st m kb = [⟨lo, mid, c1 st⟩, ⟨mid + 1, hi, c2 st⟩])
    (hwin : ∃ w ∈ windows m, w.lo ≤ lo ∧ lo ≤ mid ∧ mid + 1 ≤ hi ∧ hi ≤ w.hi)
    (hrom1 : ∀ st off, c1 st = .romAt off → off + (mid - lo) < kb * Config.kiloByte)
    (hrom2 : ∀ st off, c2 st = .romAt off → off + (hi - (mid + 1)) < kb * Config.kiloByte)
    (hram1 : ∀ st, c1 st ≠ .ram) (hram2 : ∀ st, c2 st ≠ .ram)
    (hnv : d.nonvolatile = false) : d.Wf m kb where
  inWindows st g hg := by
    obtain ⟨w, hw, h1, h2, h3, h4⟩ := hwin
    rw [hmap] at hg
    simp only [List.mem_cons, List.not_mem_nil, or_false] at hg
    rcases hg with rfl | rfl
    · exact ⟨w, hw, h1, h2, by simp only; omega⟩
    · exact ⟨w, hw, by simp only; omega, h3, h4⟩
  disjoint st := by rw [hmap]; simp
  romBound st g hg off hc := by
    rw [hmap] at hg
    simp only [List.mem_cons, List.not_mem_nil, or_false] at hg
    rcases hg with rfl | rfl
    · exact hrom1 st off hc
    · exact hrom2 st off hc
  ramBound st g hg hc := by
    rw [hmap] at hg
    simp only [List.mem_cons, List.not_mem_nil, or_false] at hg
    rcases hg with rfl | rfl
    · exact absurd hc (hram1 st)
    · exact absurd hc (hram2 st)
  ramInjective st r _ a b ha _ _ := by
    obtain ⟨g, hg, _, hc⟩ := ha
    rw [hmap] at hg
    simp only [List.mem_cons, List.not_mem_nil, or_false] at hg
    rcases hg with rfl | rfl
    · exact absurd hc (hram1 st)
    · exact absurd hc (hram2 st)
  coverage st st' a h := by
    obtain ⟨g, hg, hga⟩ := h
    rw [hmap] at hg ⊢
    simp only [List.mem_cons, List.not_mem_nil, or_false] at hg
    rcases hg with rfl | rfl
    · exact ⟨⟨lo, mid, c1 st'⟩, List.mem_cons_self, hga⟩
    · exact ⟨⟨mid + 1, hi, c2 st'⟩, List.mem_cons_of_mem _ List.mem_cons_self, hga⟩
  nonvolatile h := by rw [hnv] at h; cases h

/-- `OpenContent` is never RAM, and its offset is bounded. -/
theorem OpenContent.content_ne_ram {n : Nat} (c : OpenContent n) : c.content ≠ .ram := by
  cases c <;> simp [OpenContent.content]

theorem OpenContent.content_romAt {n off : Nat} {c : OpenContent n} (h : c.content = .romAt off) : off ≤ n := by
  cases c with
  | romAt o =>
    simp only [OpenContent.content, Content.romAt.injEq] at h
    omega
  | disabled => cases h
  | fill => cases h

/-- The identity masks of the low `n` bits give `v mod 2^n`. -/
theorem orMasks_low (n : Nat) : ∀ k v, orMasks ((List.range' k n).map (2 ^ ·)) v = 2 ^ k * (v % 2 ^ n) := by
  induction n with
  | zero => intro k v; simp [orMasks, Nat.mod_one]
  | succ n ih =>
    intro k v
    have hv : 2 ^ k * (v % 2 ^ (n + 1)) = 2 ^ k * (v % 2) + 2 ^ (k + 1) * (v / 2 % 2 ^ n) := by
      have : v % 2 ^ (n + 1) = v % 2 + 2 * (v / 2 % 2 ^ n) := by
        rw [Nat.pow_succ, Nat.mul_comm (2 ^ n) 2, Nat.mod_mul]
      rw [this, Nat.pow_succ]
      ring
    have hlt : 2 ^ k * (v % 2) < 2 ^ (k + 1) := by
      have : v % 2 < 2 := Nat.mod_lt _ (by decide)
      rw [Nat.pow_succ]
      exact Nat.mul_lt_mul_of_pos_left this (Nat.two_pow_pos k)
    have hite : (if v % 2 = 1 then 2 ^ k else 0) = 2 ^ k * (v % 2) := by
      rcases Nat.mod_two_eq_zero_or_one v with h | h <;> simp [h]
    rw [List.range'_succ, List.map_cons, orMasks, ih, hite, hv, Nat.or_comm,
      ← Nat.two_pow_add_eq_or_of_lt hlt, Nat.add_comm]

theorem orMasks_zeros (n : Nat) : ∀ v, orMasks (List.replicate n 0) v = 0 := by
  induction n with
  | zero => intro v; rfl
  | succ n ih => intro v; simp [List.replicate_succ, orMasks, ih]

theorem orMasks_append (ms ns : List Nat) : ∀ v, orMasks (ms ++ ns) v = orMasks ms v ||| orMasks ns (v / 2 ^ ms.length) := by
  induction ms with
  | nil => intro v; simp [orMasks]
  | cons m ms ih =>
    intro v
    simp only [List.cons_append, orMasks, ih, List.length_cons, Nat.pow_succ, Nat.or_assoc, Nat.div_div_eq_div_mul,
      Nat.mul_comm]

/-! ### The named designs -/

/-- `None` and `Unknown`: the unsupported descriptor (41_type_descriptors.md R101, R102). -/
def unsupportedEntry : TypeEntry := {}

/-- `STD_8` (41_type_descriptors.md R103). -/
def std8Descriptor : Descriptor :=
  { Descriptor.unsupported with map := fun _ _ _ => [⟨Config.winA.lo, Config.winA.hi, .romAt 0⟩] }

def std8Entry : TypeEntry where
  machine := .xlxe
  sizeKb := Config.std8Kb
  d := std8Descriptor
  wf := wf_of_one_segment (fun _ => .romAt 0) (fun _ => rfl) ⟨Config.winA, by decide, by decide⟩
    (fun _ off h => by cases h; decide) (fun _ h => by cases h) (fun h => by cases h)

/-- `s0`, `s1`, `sd` of `OSS_16` (41_type_descriptors.md R104; the numbers are the spec's decision D14). -/
def ossS0 : StateWord := 0#32

/-- See `ossS0`. -/
def ossS1 : StateWord := 1#32

/-- See `ossS0`. -/
def ossSd : StateWord := 0x80000000#32

/-- The write transition of `OSS_16`: the low nibble of the address alone (41_type_descriptors.md R104). -/
def ossWr (st : StateWord) (addr : Addr) : Option StateWord :=
  if lowNibble addr = Config.ossBank0Nibble then some ossS0
  else if lowNibble addr = Config.ossBank1Nibbles.1 ∨ lowNibble addr = Config.ossBank1Nibbles.2 then some ossS1
  else if lowNibble addr = Config.ossOffNibble then some ossSd
  else Config.ossOther (lowNibble addr) st

/-- What `OSS_16` shows in 0xA000..0xAFFF (41_type_descriptors.md R105). -/
def ossLowContent (st : StateWord) : Content :=
  if st = ossSd then .disabled else (Config.ossLow st).content

/-- What `OSS_16` shows in 0xB000..0xBFFF (41_type_descriptors.md R104). -/
def ossHighContent (st : StateWord) : Content :=
  if st = ossS0 then .romAt 0
  else if st = ossS1 then .romAt Config.ossBank
  else if st = ossSd then .disabled
  else (Config.ossHigh st).content

/-- The two segments of `OSS_16` (41_type_descriptors.md R104, R105). DESIGN CHOICE: their order in the list, 0xA000..0xAFFF first, which is the
order of the mapper commands a remap issues (43_remap.md R139, R143); the spec gives the two segments and no order (log 14). -/
def oss16Descriptor : Descriptor :=
  { Descriptor.unsupported with
    initState := Config.ossInit
    wr := fun st addr _ => ossWr st addr
    rd := Config.ossRd
    map := fun st _ _ => [⟨Config.ossLowRange.lo, Config.ossLowRange.hi, ossLowContent st⟩,
      ⟨Config.ossHighRange.lo, Config.ossHighRange.hi, ossHighContent st⟩] }

theorem ossLowContent_ne_ram (st : StateWord) : ossLowContent st ≠ .ram := by
  unfold ossLowContent
  split
  · simp
  · exact OpenContent.content_ne_ram _

theorem ossHighContent_ne_ram (st : StateWord) : ossHighContent st ≠ .ram := by
  unfold ossHighContent
  split
  · simp
  · split
    · simp
    · split
      · simp
      · exact OpenContent.content_ne_ram _

theorem ossLowContent_le {st : StateWord} {off : Nat} (h : ossLowContent st = .romAt off) : off ≤ 3 * Config.ossBank := by
  unfold ossLowContent at h
  split at h
  · cases h
  · exact OpenContent.content_romAt h

theorem ossHighContent_le {st : StateWord} {off : Nat} (h : ossHighContent st = .romAt off) : off ≤ 3 * Config.ossBank := by
  unfold ossHighContent at h
  split at h
  · cases h; decide
  · split at h
    · cases h; decide
    · split at h
      · cases h
      · exact OpenContent.content_romAt h

/-- `OSS_16` (41_type_descriptors.md R104, R105). -/
def oss16Entry : TypeEntry where
  machine := .xlxe
  sizeKb := Config.oss16Kb
  d := oss16Descriptor
  wf := wf_of_two_segments ossLowContent ossHighContent (fun _ => rfl) ⟨Config.winA, by decide, by decide⟩
    (fun _ off h => by have := ossLowContent_le h; simp only [Config.kiloByte, Config.ossBank, Config.oss16Kb] at *; omega)
    (fun _ off h => by have := ossHighContent_le h; simp only [Config.kiloByte, Config.ossBank, Config.oss16Kb] at *; omega)
    ossLowContent_ne_ram ossHighContent_ne_ram rfl

/-- An SDX-family kind: its own banking is open, its passthrough function is the piggyback-select pattern under the mask parameter, everything else is
the default, and it has no line maps (41_type_descriptors.md R93, R106, R107, R112; log 5). DEDUCED: it is of the XLXE machine, since the example of
R107, as those of 43_remap.md R141 and 45_slot_operations.md R178, has an `STD_8` behind it, which is of that machine alone (R103, R113; log 5). -/
def sdxEntry (v : BitVec 8) : TypeEntry where
  machine := .xlxe
  sizeKb := (Config.sdxBase v).sizeKb
  d := { bankedDescriptor (Config.sdxBase v).init (Config.sdxWr v) (Config.sdxBase v).map with passthrough := some ⟨selectPattern⟩ }
  wf := (Config.sdxBase v).wf.of_eq rfl rfl rfl

/-- What `ROT_32` shows in 0xA000..0xBFFF: the bank of the state, nothing in state 4 (41_type_descriptors.md R109; the spec's decision D13); open
above (log 15). -/
def rotContent (st : StateWord) : Content :=
  if st.toNat < Config.rotOff then .romAt (st.toNat * Config.rotBank)
  else if st.toNat = Config.rotOff then .disabled
  else (Config.rotAbove st).content

/-- The rotate-on-every-write transition (41_type_descriptors.md R109): `(st + 1) mod 5`. -/
def rotWr (st : StateWord) : StateWord := BitVec.ofNat _ ((st.toNat + 1) % Config.rotCycle)

def rot32Descriptor : Descriptor :=
  { Descriptor.unsupported with
    wr := fun st _ _ => some (rotWr st)
    map := fun st _ _ => [⟨Config.winA.lo, Config.winA.hi, rotContent st⟩] }

theorem rotContent_ne_ram (st : StateWord) : rotContent st ≠ .ram := by
  unfold rotContent
  split
  · simp
  · split
    · simp
    · exact OpenContent.content_ne_ram _

theorem rotContent_le {st : StateWord} {off : Nat} (h : rotContent st = .romAt off) : off ≤ 3 * Config.rotBank := by
  unfold rotContent at h
  split at h
  · cases h; simp only [Config.rotOff, Config.rotCycle, Config.rotBank] at *; omega
  · split at h
    · cases h
    · exact OpenContent.content_romAt h

/-- `ROT_32` (41_type_descriptors.md R109). -/
def rot32Entry : TypeEntry where
  machine := .xlxe
  sizeKb := Config.rot32Kb
  d := rot32Descriptor
  wf := wf_of_one_segment rotContent (fun _ => rfl) ⟨Config.winA, by decide, by decide⟩
    (fun _ off h => by have := rotContent_le h; simp only [Config.kiloByte, Config.rotBank, Config.rot32Kb] at *; omega)
    (fun st h => absurd h (rotContent_ne_ram st)) (fun h => by cases h)

/-- The write transition of `CLAMP`: an explicit conditional at `old_state >= 4`, both arms open (41_type_descriptors.md R110). -/
def clampWr (st : StateWord) (addr : Addr) (v : Byte) : Option StateWord :=
  if Config.clampBoundary ≤ st then Config.clampDefault st addr v else Config.clampCase st addr v

/-- `CLAMP`: its write transition, an open mapping and initial state, and the defaults; it has no line maps (41_type_descriptors.md R93, R110, R112;
log 5). -/
def clampEntry : TypeEntry where
  machine := Config.clampMachine
  sizeKb := Config.clampBase.sizeKb
  d := bankedDescriptor Config.clampBase.init clampWr Config.clampBase.map
  wf := Config.clampBase.wf.of_eq rfl rfl rfl

/-- A window-switched design as an entry (41_type_descriptors.md R111). -/
def HookEntry.entry {m : MachineKind} (h : HookEntry m) : TypeEntry where
  machine := m
  sizeKb := h.sizeKb
  d := hookedDescriptor h.init h.map h.hook
  wf := h.wf

/-! ### The test instances (95_test_vectors.md section 2; log 19) -/

/-- `T_SDX` and `T_SUB` share this mapping: bit 3 disables, bits 2:0 are the 8 KB bank. -/
def testBanks (n : StateWord) : List Segment := bankedMap 0x0F#32 8#32 8192 Config.winA.lo Config.winA.hi n

theorem testBanks_one (n : StateWord) :
    testBanks n = [⟨Config.winA.lo, Config.winA.hi, if n &&& 8#32 ≠ 0 then .disabled else .romAt ((n &&& 7#32).toNat * 8192)⟩] := by
  simp only [testBanks, bankedMap]
  have : (0x0F#32 &&& ~~~8#32) = 7#32 := by decide
  rw [this]
  split <;> rfl

theorem testBanks_le {n : StateWord} {off : Nat}
    (h : (if n &&& 8#32 ≠ 0 then Content.disabled else .romAt ((n &&& 7#32).toNat * 8192)) = .romAt off) : off ≤ 7 * 8192 := by
  split at h
  · cases h
  · cases h
    have : (n &&& 7#32).toNat ≤ 7 := by rw [BitVec.toNat_and]; exact Nat.and_le_right
    omega

def tSdxDescriptor : Descriptor :=
  { Descriptor.unsupported with
    wr := fun _ _ v => some (valueRegister 0x0F#32 v)
    status := fun st _ => st.setWidth 8
    map := fun st _ _ => testBanks st
    passthrough := some ⟨fun _ => selectPattern 0b1000#32⟩ }

def tSdxEntry : TypeEntry where
  machine := .xlxe
  sizeKb := 64
  d := tSdxDescriptor
  wf := wf_of_one_segment _ (fun st => testBanks_one st) ⟨Config.winA, by decide, by decide⟩
    (fun _ off h => by have := testBanks_le h; simp only [Config.kiloByte]; omega)
    (fun st h => by split at h <;> cases h) (fun h => by cases h)

def tSubDescriptor : Descriptor :=
  { Descriptor.unsupported with
    wr := fun _ addr _ => inSubRange 0xE#4 addr (some (addrRegister 0x0F#32 addr))
    status := fun st _ => st.setWidth 8
    map := fun st _ _ => testBanks st }

def tSubEntry : TypeEntry where
  machine := .xlxe
  sizeKb := 64
  d := tSubDescriptor
  wf := wf_of_one_segment _ (fun st => testBanks_one st) ⟨Config.winA, by decide, by decide⟩
    (fun _ off h => by have := testBanks_le h; simp only [Config.kiloByte]; omega)
    (fun st h => by split at h <;> cases h) (fun h => by cases h)

def tRdrDescriptor : Descriptor :=
  { Descriptor.unsupported with
    wr := fun _ _ _ => some 0#32
    rd := fun _ _ => some 1#32
    map := fun st _ _ => [⟨Config.winA.lo, Config.winA.hi, if st = 0 then .romAt 0 else .disabled⟩] }

def tRdrEntry : TypeEntry where
  machine := .xlxe
  sizeKb := 8
  d := tRdrDescriptor
  wf := wf_of_one_segment (fun st => if st = 0 then .romAt 0 else .disabled) (fun _ => rfl)
    ⟨Config.winA, by decide, by decide⟩
    (fun _ off h => by split at h <;> cases h; decide) (fun st h => by split at h <;> cases h) (fun h => by cases h)

/-- The RAM functions of `T_RAM`: bit 0 locks, `scatter(st, addr) = addr & 0x1FFF`. -/
def tRamOps : RamOps where
  locked st := decide (st &&& 1#32 = 1#32)
  writable _ := true
  amask := #v[0x1, 0x2, 0x4, 0x8, 0x10, 0x20, 0x40, 0x80, 0x100, 0x200, 0x400, 0x800, 0x1000, 0, 0, 0]
  smask := Vector.replicate 32 0

theorem tRamOps_scatter (st : StateWord) (a : Nat) : tRamOps.scatter st a = a % 8192 := by
  have ha : tRamOps.amask.toList = (List.range' 0 13).map (2 ^ ·) ++ List.replicate 3 0 := by decide
  have hs : tRamOps.smask.toList = List.replicate 32 0 := by simp [tRamOps]
  rw [RamOps.scatter, ha, hs, orMasks_append, orMasks_low, orMasks_zeros, orMasks_zeros]
  simp

def tRamDescriptor (nonvolatile : Bool) : Descriptor :=
  { Descriptor.unsupported with
    initState := 1#32
    wr := fun _ _ v => some (valueRegister 1#32 v)
    map := fun _ _ _ => [⟨Config.winA.lo, Config.winA.hi, .ram⟩]
    ram := some tRamOps
    nonvolatile := nonvolatile }

/-- `T_RAM`; with `true` the model's own `T_NV`, its nonvolatile variant (log 19). -/
def tRamEntry (nonvolatile : Bool) : TypeEntry where
  machine := .xlxe
  sizeKb := 8
  d := tRamDescriptor nonvolatile
  wf := wf_of_one_segment (fun _ => .ram) (fun _ => rfl) ⟨Config.winA, by decide, by decide⟩
    (fun _ off h => by cases h)
    (fun st _ => ⟨tRamOps, rfl, fun a h1 h2 => by rw [tRamOps_scatter]; simp only [Config.kiloByte]; omega,
      fun a b h1 h2 h3 h4 h => by rw [tRamOps_scatter, tRamOps_scatter] at h; simp only at *; omega⟩)
    (fun _ => rfl)

def tHookFn : Hook where
  ranges := [⟨0xBFF6, 0xBFF7⟩]
  tr _ addr _ _ := some (addr.setWidth 32 &&& 1#32)

/-- The bank `T_HOOK` shows: 8 KB bank `n`; its two reachable states are 0 and 1, and any other shows bank 1 (log 19). -/
def tHookBank (st : StateWord) : Content := .romAt (if st = 0 then 0 else 8192)

def tHookEntry : TypeEntry where
  machine := .xlxe
  sizeKb := 16
  d := hookedDescriptor 0#32 (fun st => [⟨Config.winA.lo, Config.winA.hi, tHookBank st⟩]) tHookFn
  wf := wf_of_one_segment tHookBank (fun _ => rfl) ⟨Config.winA, by decide, by decide⟩
    (fun st off h => by
      unfold tHookBank at h
      split at h <;> cases h <;> decide)
    (fun st h => by unfold tHookBank at h; cases h) (fun h => by cases h)

/-- The wiring of the worked example of 44_address_line_remapper.md R152 (`amap`) and of 95_test_vectors.md section 3.6 (`dmap`). -/
def exampleLineMap : LineMap where
  amap := #v[1, 2, 0, 3, 4, 5, 6, 7, 8, 9, 10, 11, 12, 13, 14, 15, 16]
  dmap := #v[1, 2, 0, 3, 4, 5, 6, 7]
  amapPerm := by decide
  dmapPerm := by decide

/-- `T_LINE`, the model's own: `STD_8` with crossed lines (log 19). -/
def tLineEntry : TypeEntry := { std8Entry with lineMap := some exampleLineMap }

/-! ### The table -/

/-- The entry of a test instance. -/
def testEntry : TestKind → TypeEntry
  | .tSdx => tSdxEntry
  | .tSub => tSubEntry
  | .tRdr => tRdrEntry
  | .tRam => tRamEntry false
  | .tHook => tHookEntry
  | .tLine => tLineEntry
  | .tNv => tRamEntry true

/-- `TypeTable` (41_type_descriptors.md R90, R92, R94). -/
def typeEntry : Kind → TypeEntry
  | .none => unsupportedEntry
  | .unknown => unsupportedEntry
  | .std8 => std8Entry
  | .oss16 => oss16Entry
  | .sdx v => sdxEntry v
  | .rot32 => rot32Entry
  | .clamp => clampEntry
  | .bbsb => Config.bbsb.entry
  | .sc5200 => Config.sc5200.entry
  | .other n => (Config.openType n).entry
  | .test t => testEntry t

/-- `D(s)`, by kind (00_scope.md R9). -/
def descr (k : Kind) : Descriptor := (typeEntry k).d

/-- `LineMap(kind)` (10_state.md R20). -/
def lineMapOf (k : Kind) : Option LineMap := (typeEntry k).lineMap

/-- `SizeOf(kind)`, the kind's one declared size in KB (46_image_container.md R188); a kind that declares none has a free value (log 9). -/
def declaredKb (k : Kind) : Nat :=
  match k with
  | .none => Config.undeclaredSizeKb .none
  | .unknown => Config.undeclaredSizeKb .unknown
  | k => (typeEntry k).sizeKb

/-- Whether a kind is a cartridge type of the machine's enumeration with a declared size: no test instance, and no member of the open remainder whose
entry declares none (41_type_descriptors.md R92; 46_image_container.md R188). -/
def declaresSize (k : Kind) : Bool :=
  match k with
  | .none => false
  | .unknown => false
  | .test _ => false
  | k => decide (0 < (typeEntry k).sizeKb)

/-- Whether the kind accepts this image size (45_slot_operations.md R168 c). `Unknown` accepts any. -/
def acceptsSize (k : Kind) (kb : Nat) : Bool :=
  match k with
  | .none => false
  | .unknown => true
  | k => decide (kb = (typeEntry k).sizeKb)

/-- Whether the kind's mapping is defined for the machine (45_slot_operations.md R168 d; 41_type_descriptors.md R113). `Unknown` is inserted on
either. -/
def acceptsMachine (k : Kind) (m : MachineKind) : Bool :=
  match k with
  | .none => false
  | .unknown => true
  | k => decide (m = (typeEntry k).machine)

/-- The mapping of a slot record on a machine: empty for `None` and `Unknown`, undefined where R113 leaves it so. -/
def mappingOf (m : MachineKind) (x : Slot) : Option (List Segment) :=
  if x.kind = .none then some []
  else if acceptsSize x.kind x.sizeKb && acceptsMachine x.kind m then
    some ((descr x.kind).map x.state m x.sizeKb)
  else Option.none

end Sys2Proof.Machine
end

