-- ==== Sys2Proof/Machine/Loader.lean ====
section
/-! DEFINITION. The open parameters of the image loader (00_scope.md R6) with the laws the spec puts on them: `KindCode` is at least 1 and each
code is one type's (45_slot_operations.md R178, R180), and `SizeTable` pairs a kind with its one declared size (46_image_container.md R188). They
are the opaque constant `Config.loader` or tables given as data (log 8). -/

namespace Sys2Proof.Machine

/-- The open parameters of the image loader: `KindCode`, the kind with a code, `KIND_CODE_MAX`, the kinds of `SizeTable`, `Checksum`,
`PRESIZE_FILL`, with the laws of 45_slot_operations.md R178, R180 and 46_image_container.md R188. DESIGN CHOICE: no law bounds a code by `codeMax`, so a
type may have a code that no headered file can carry: R178 speaks of "a code in `1..KIND_CODE_MAX`", but 46_image_container.md R195 of "every kind with a
code in range", which leaves room for others (log 8). -/
structure LoaderOps where
  code        : Kind → Code
  kindOf      : Code → Option Kind
  codeMax     : Nat
  sizeKinds   : List Kind
  checksum    : List Byte → Code
  presizeFill : Byte
  positive    : ∀ k, k.isType = true → 0 < (code k).toInt
  kindOf_iff  : ∀ c k, kindOf c = some k ↔ k.isType = true ∧ code k = c
  types       : ∀ k ∈ sizeKinds, k.isType = true

/-- `SizeTable`: each kind paired with its declared size (46_image_container.md R188). -/
def LoaderOps.sizeTable (ops : LoaderOps) : List (Nat × Kind) := ops.sizeKinds.map fun k => (declaredKb k, k)

/-- `KindCode(k)`, with `KindCode(None) = 0` (45_slot_operations.md R178). -/
def codeOf (ops : LoaderOps) (k : Kind) : Code := if k = .none then 0#32 else ops.code k

/-- The kind with `KindCode(k) = c`: `None` for 0, else a cartridge type, never `Unknown` (45_slot_operations.md R178, R180). -/
def kindOfCode (ops : LoaderOps) (c : Code) : Option Kind := if c = 0#32 then some .none else ops.kindOf c

/-! ### Codes given as data -/

/-- The code of a kind in tables: its row's, or its place counted from `base`; a kind that is no cartridge type has no row. -/
def tableCode (codes : List (Kind × Code)) (base : Nat) (k : Kind) : Code :=
  match codes.lookup k with
  | some c => c
  | Option.none => BitVec.ofNat 32 (base + k.index)

/-- The kind whose code in tables is `c`. -/
def tableKindOf (codes : List (Kind × Code)) (base : Nat) (c : Code) : Option Kind :=
  match codes.find? (fun r => decide (r.2 = c)) with
  | some r => some r.1
  | Option.none =>
    let k := Kind.ofIndex (c.toNat - base)
    if k.isType && decide (tableCode codes base k = c) then some k else Option.none

theorem lookup_eq_some_iff {codes : List (Kind × Code)} (h : (codes.map (·.1)).Nodup) (k : Kind) (c : Code) :
    codes.lookup k = some c ↔ (k, c) ∈ codes := by
  induction codes with
  | nil => simp
  | cons r codes ih =>
    obtain ⟨l, d⟩ := r
    simp only [List.map_cons, List.nodup_cons] at h
    have ih := ih h.2
    by_cases hk : k = l
    · subst hk
      have hno : (k, c) ∉ codes := fun hm => h.1 (List.mem_map.2 ⟨_, hm, rfl⟩)
      simp [List.lookup, hno, eq_comm]
    · have : (k == l) = false := by simpa using hk
      simp [List.lookup, this, ih, hk]

/-- What lawful tables are. -/
theorem lawfulTables_iff {codes : List (Kind × Code)} {base : Nat} {sizeKinds : List Kind} (h : lawfulTables codes base sizeKinds = true) :
    (∀ r ∈ codes, r.1.isType = true ∧ 0 < r.2.toNat ∧ r.2.toNat < base) ∧ (codes.map (·.1)).Nodup ∧ (codes.map (·.2)).Nodup ∧
    0 < base ∧ base + Kind.places < 2 ^ 31 ∧ ∀ k ∈ sizeKinds, k.isType = true := by
  simpa only [lawfulTables, Bool.and_eq_true, List.all_eq_true, decide_eq_true_eq, and_assoc] using h

theorem tableCode_toNat {codes : List (Kind × Code)} {base : Nat} (hb : base + Kind.places < 2 ^ 31) {k : Kind}
    (h : codes.lookup k = Option.none) : (tableCode codes base k).toNat = base + k.index := by
  have := k.index_lt
  rw [tableCode, h, BitVec.toNat_ofNat, Nat.mod_eq_of_lt (by omega)]

theorem tableCode_positive {codes : List (Kind × Code)} {base : Nat} {sizeKinds : List Kind} (h : lawfulTables codes base sizeKinds = true)
    (k : Kind) : 0 < (tableCode codes base k).toInt := by
  obtain ⟨hr, hk, -, h0, hb, -⟩ := lawfulTables_iff h
  have hpos : ∀ c : Code, 0 < c.toNat → c.toNat < 2 ^ 31 → 0 < c.toInt := fun c h1 h2 => by
    rw [BitVec.toInt_eq_toNat_of_lt (by omega)]
    omega
  cases hl : codes.lookup k with
  | some c =>
    obtain ⟨-, h1, h2⟩ := hr _ ((lookup_eq_some_iff hk k c).1 hl)
    have : tableCode codes base k = c := by simp [tableCode, hl]
    rw [this]
    exact hpos c h1 (by simp only at h2; omega)
  | none =>
    have hn := tableCode_toNat hb hl
    have := k.index_lt
    exact hpos _ (by omega) (by omega)

/-- In lawful tables a code is one type's, and the kind found for it is that type. -/
theorem tableKindOf_iff {codes : List (Kind × Code)} {base : Nat} {sizeKinds : List Kind} (h : lawfulTables codes base sizeKinds = true)
    (c : Code) (k : Kind) : tableKindOf codes base c = some k ↔ k.isType = true ∧ tableCode codes base k = c := by
  obtain ⟨hr, hk, hc, h0, hb, -⟩ := lawfulTables_iff h
  unfold tableKindOf
  cases hf : codes.find? (fun r => decide (r.2 = c)) with
  | some r =>
    have hmem := List.mem_of_find?_eq_some hf
    have hrc : r.2 = c := by simpa using List.find?_some hf
    have hlook : codes.lookup r.1 = some c := (lookup_eq_some_iff hk _ _).2 (by rw [← hrc]; exact hmem)
    constructor
    · intro he
      cases he
      exact ⟨(hr r hmem).1, by simp [tableCode, hlook]⟩
    · rintro ⟨-, he⟩
      cases hl : codes.lookup k with
      | some d =>
        have hd : d = c := by simpa [tableCode, hl] using he
        have hkm := (lookup_eq_some_iff hk k d).1 hl
        have : r = (k, d) := List.inj_on_of_nodup_map hc hmem hkm (by simp [hrc, hd])
        simp [this]
      | none =>
        have hn := tableCode_toNat hb hl
        have := (hr r hmem).2.2
        rw [hrc, ← he, hn] at this
        omega
  | none =>
    simp only [Bool.and_eq_true, decide_eq_true_eq, Option.ite_none_right_eq_some, Option.some.injEq]
    constructor
    · rintro ⟨h1, rfl⟩
      exact h1
    · rintro ⟨h1, h2⟩
      cases hl : codes.lookup k with
      | some d =>
        have hd : d = c := by simpa [tableCode, hl] using h2
        have := List.find?_eq_none.1 hf _ ((lookup_eq_some_iff hk k d).1 hl)
        simp [hd] at this
      | none =>
        have hn := tableCode_toNat hb hl
        have hki : Kind.ofIndex (c.toNat - base) = k := by
          rw [← h2, hn, Nat.add_sub_cancel_left, Kind.ofIndex_index]
        rw [hki]
        exact ⟨⟨h1, h2⟩, rfl⟩

/-- The byte sum modulo 2^32, the test instance of 95_test_vectors.md section 3.8. -/
def byteSum (bs : List Byte) : Code := bs.foldl (fun a b => a + b.setWidth 32) 0#32

/-! ### The open parameters -/

/-- The kinds at the first `n` places that are cartridge types. -/
def typesBelow (n : Nat) : List Kind := ((List.range n).map Kind.ofIndex).filter Kind.isType

theorem mem_typesBelow {n : Nat} {k : Kind} (hn : k.index < n) (hk : k.isType = true) : k ∈ typesBelow n :=
  List.mem_filter.2 ⟨List.mem_map.2 ⟨k.index, List.mem_range.2 hn, Kind.ofIndex_index k⟩, hk⟩

theorem isType_of_declaresSize {k : Kind} (h : declaresSize k = true) : k.isType = true := by
  cases k <;> first | rfl | cases h

/-- Parameters that meet the laws: the codes count the kinds. -/
def LoaderOps.counting : LoaderOps where
  code := tableCode [] 1
  kindOf := tableKindOf [] 1
  codeMax := 0
  sizeKinds := typesBelow Kind.places
  checksum := fun _ => 0
  presizeFill := 0
  positive := fun k _ => tableCode_positive (sizeKinds := []) (by decide) k
  kindOf_iff := tableKindOf_iff (sizeKinds := []) (by decide)
  types := fun _ hk => (List.mem_filter.1 hk).2

theorem LoaderOps.counting_complete (k : Kind) (h : declaresSize k = true) : k ∈ LoaderOps.counting.sizeKinds := by
  have hs : LoaderOps.counting.sizeKinds = typesBelow Kind.places := by rw [LoaderOps.counting]
  rw [hs]
  exact mem_typesBelow k.index_lt (isType_of_declaresSize h)

/-- The open parameters, with a complete `SizeTable`: every cartridge type that declares a size is paired with it (DEDUCED from
46_image_container.md R188; log 8). -/
structure OpenLoader where
  ops      : LoaderOps := LoaderOps.counting
  complete : ∀ k, declaresSize k = true → k ∈ ops.sizeKinds := by exact LoaderOps.counting_complete
deriving Inhabited

end Sys2Proof.Machine

namespace Sys2Proof

open Sys2Proof.Machine

/-- The loader parameters of the machine, assumed nothing of but their laws (00_scope.md R6; 46_image_container.md R190, R193; log 8). -/
opaque Config.loader : OpenLoader

end Sys2Proof

namespace Sys2Proof.Machine

/-- Loader tables as loader operations. -/
def LoaderTables.ops (t : LoaderTables) : LoaderOps where
  code k := if k.isType then tableCode t.codes t.base k else Config.loader.ops.code k
  kindOf := tableKindOf t.codes t.base
  codeMax := t.codeMax
  sizeKinds := t.sizeKinds
  checksum := match t.checksum with
    | .external => Config.loader.ops.checksum
    | .byteSum => byteSum
  presizeFill := t.presizeFill
  positive k hk := by rw [if_pos hk]; exact tableCode_positive t.lawful k
  kindOf_iff c k := by
    rw [tableKindOf_iff t.lawful]
    by_cases hk : k.isType = true <;> simp [hk]
  types := (lawfulTables_iff t.lawful).2.2.2.2.2

/-- The loader parameters of the machine (00_scope.md R6; log 8). -/
def State.loaderOps (s : State) : LoaderOps :=
  match s.loader with
  | Option.none => Config.loader.ops
  | some t => t.ops

end Sys2Proof.Machine
end

