-- ==== Sys2Proof/Machine/Ops.lean ====
section
/-! DEFINITION. The shared operations: the window image and the mapper commands (43_remap.md R136, R137), the buffer (00_scope.md R9), the
remap steps (43_remap.md R138 to R141), `commit` and the per-slot procedures (40_control_page_access.md R77 to R79), the window hook
and the RAM store (42_window_access.md R121, R125), and the write of an image file (46_image_container.md R193). The block takes no exception
(60_exceptions.md R205), so there is no exception entry and no return to share. -/

namespace Sys2Proof.Machine

/-! ### The bytes of the window image -/

/-- What `W.byte` reads as at an address nothing was copied to: the model's choice, the fill value, where 10_state.md R25 leaves it unspecified and
unobservable (log 7). -/
def unlistedByte : Byte := Config.fill

/-- The canonical form of a memory: addresses strictly rising, no entry equal to what an unlisted address reads as. -/
abbrev Memory.wf (m : Memory) : Prop :=
  m.Pairwise (fun c d => c.1 < d.1) ∧ ∀ c ∈ m, c.2 ≠ unlistedByte

/-- The byte a memory holds at an address. -/
def memRead : Memory → Nat → Byte
  | [], _ => unlistedByte
  | c :: m, a => if c.1 = a then c.2 else memRead m a

/-- The cells of a run of bytes from an address on; a byte an unlisted address reads as makes no cell. -/
def cellsFrom : Nat → List Byte → Memory
  | _, [] => []
  | a, b :: bs => if b = unlistedByte then cellsFrom (a + 1) bs else (a, b) :: cellsFrom (a + 1) bs

/-- Writing a run of bytes from an address on, keeping the canonical form. -/
def memWrite (m : Memory) (lo : Nat) (bs : List Byte) : Memory :=
  m.filter (fun c => decide (c.1 < lo)) ++ cellsFrom lo bs ++ m.filter (fun c => decide (lo + bs.length ≤ c.1))

/-! ### The address sets of the window image -/

/-- The canonical form of an address set: strictly rising. -/
abbrev AddrSet.wf (s : List Nat) : Prop := s.Pairwise (· < ·)

/-- Adding every address of `[lo..hi]`. -/
def setInsert (s : List Nat) (lo hi : Nat) : List Nat :=
  s.filter (fun a => decide (a < lo)) ++ List.range' lo (hi + 1 - lo) ++ s.filter (fun a => decide (lo ≤ a) && decide (hi < a))

/-- Removing every address of `[lo..hi]`. -/
def setRemove (s : List Nat) (lo hi : Nat) : List Nat :=
  s.filter (fun a => decide (a < lo) || decide (hi < a))

/-- The canonical form of the window image. -/
abbrev Window.wf (w : Window) : Prop := AddrSet.wf w.en ∧ AddrSet.wf w.ram ∧ Memory.wf w.bytes

/-! ### The mapper (43_remap.md R136) -/

/-- The effect of one mapper command on the window image (43_remap.md R136; the semantics is the spec's decision D4). -/
def Window.apply (w : Window) : MapperCmd → Window
  | .enable lo hi => { w with en := setInsert w.en lo hi }
  | .disable lo hi => { w with en := setRemove w.en lo hi, ram := setRemove w.ram lo hi }
  | .copy lo hi bytes => { w with bytes := memWrite w.bytes lo bytes, ram := setRemove w.ram lo hi }
  | .markRam lo hi => { w with ram := setInsert w.ram lo hi }

/-- Whether `W.en` is set at an address. -/
def Window.isOn (w : Window) (a : Nat) : Bool := decide (a ∈ w.en)

/-- Whether `W.ram` is set at an address. -/
def Window.isRam (w : Window) (a : Nat) : Bool := decide (a ∈ w.ram)

/-- `WinRead(a)` (43_remap.md R137). -/
def winRead (w : Window) (a : Nat) : Byte := if w.isOn a then memRead w.bytes a else Config.fill

/-- Issuing one mapper command: its effect on the window image, and its place among the commands of the event (43_remap.md R143). -/
def State.issue (s : State) (c : MapperCmd) : State :=
  { s with window := s.window.apply c, out := { s.out with commands := s.out.commands ++ [c] } }

/-- Issuing a list of mapper commands in order. -/
def State.issueAll (s : State) (cs : List MapperCmd) : State := cs.foldl State.issue s

/-! ### The buffer (00_scope.md R9) -/

/-- `BufRead(s, off)`; nothing outside the buffer (00_scope.md R9). -/
def bufRead (x : Slot) (off : Nat) : Option Byte := (x.buffer.getD [])[off]?

/-- `BufWrite(s, off, v)`; nothing outside the buffer (00_scope.md R9). -/
def bufWrite (x : Slot) (off : Nat) (v : Byte) : Option Slot :=
  match x.buffer with
  | Option.none => Option.none
  | some b => if off < b.length then some { x with buffer := some (b.set off v) } else Option.none

/-- `n` consecutive buffer bytes from an offset: `[BufRead(s, off + k) for k in 0..n-1]`. -/
def bufSlice (x : Slot) (off n : Nat) : Option (List Byte) :=
  let bs := ((x.buffer.getD []).drop off).take n
  if bs.length = n then some bs else Option.none

/-- The buffer bytes at the offsets of a list. -/
def bufGather (x : Slot) (offs : List Nat) : Option (List Byte) :=
  let b := x.buffer.getD []
  if offs.all (fun o => decide (o < b.length)) then some (offs.map fun o => b.getD o 0) else Option.none

/-! ### The remap steps -/

/-- `seg_bytes(s, seg)` (43_remap.md R138). -/
def segBytes (x : Slot) (g : Segment) : Option (List Byte) :=
  match g.content with
  | .disabled => some []
  | .fill => some (List.replicate g.size Config.fill)
  | .romAt off => bufSlice x off g.size
  | .ram =>
    match (descr x.kind).ram with
    | Option.none => Option.none
    | some r => bufGather x ((List.range' g.lo g.size).map (r.scatter x.state))

/-- The mapper commands of one segment, in the order of 43_remap.md R139 (the order is the spec's decision D4). -/
def segCommands (x : Slot) (g : Segment) : Option (List MapperCmd) :=
  match g.content, segBytes x g with
  | .disabled, _ => some [.disable g.lo g.hi]
  | .ram, some bs => some [.copy g.lo g.hi bs, .markRam g.lo g.hi, .enable g.lo g.hi]
  | _, some bs => some [.copy g.lo g.hi bs, .enable g.lo g.hi]
  | _, Option.none => Option.none

/-- The mapper commands of a mapping, segment by segment in list order (43_remap.md R139). -/
def segsCommands (x : Slot) : List Segment → Option (List MapperCmd)
  | [] => some []
  | g :: gs =>
    match segCommands x g, segsCommands x gs with
    | some cs, some ds => some (cs ++ ds)
    | _, _ => Option.none

/-- The mapper commands that show a slot record on a machine. -/
def mapCommands (m : MachineKind) (x : Slot) : Except Refusal (List MapperCmd) :=
  match mappingOf m x with
  | Option.none => .error .mappingUndefined
  | some segs =>
    match segsCommands x segs with
    | Option.none => .error .bufferRange
    | some cs => .ok cs

/-- `REMAP(s)`: only the active slot is mapped (43_remap.md R139, R140). -/
def State.remap (s : State) (sl : SlotName) : Except Refusal State :=
  if sl ≠ s.active then .ok s
  else
    match mapCommands s.machine (s.slot sl) with
    | .ok cs => .ok (s.issueAll cs)
    | .error e => .error e

/-- What `active` is as a function of the mask parameter and the two records (10_state.md R16; the sharpening is the spec's decision D7). -/
def activeOf (mask : StateWord) (p g : Slot) : SlotName :=
  if g.kind ≠ .none ∧ (descr p.kind).selects mask p.state = true then .G else .P

/-- The commands that disable every cartridge window of a machine (43_remap.md R141). -/
def disableCommands (m : MachineKind) : List MapperCmd := (windows m).map fun r => .disable r.lo r.hi

/-- `FULL_REMAP`: recompute `active`, disable every window, map the active slot (43_remap.md R141). -/
def State.fullRemap (s : State) : Except Refusal State :=
  let s1 := { s with active := activeOf s.sdxPbMask s.p s.g }
  (s1.issueAll (disableCommands s1.machine)).remap s1.active

/-! ### Transitions -/

/-- Whether a transition of the primary toggles which slot is active (40_control_page_access.md R79). -/
def toggles (s : State) (sl : SlotName) (old n : StateWord) : Bool :=
  decide (sl = .P) && decide (s.g.kind ≠ .none) &&
    ((descr s.p.kind).selects s.sdxPbMask old != (descr s.p.kind).selects s.sdxPbMask n)

/-- `commit(s, n)`: the one place a transition takes effect (40_control_page_access.md R79). -/
def State.commit (s : State) (sl : SlotName) (n : StateWord) : Except Refusal State :=
  if n = (s.slot sl).state then .ok s
  else
    let s1 := s.setSlot sl { s.slot sl with state := n }
    if toggles s sl (s.slot sl).state n then s1.fullRemap else s1.remap sl

/-- Committing the new state of a transition, if there is one. -/
def State.commitOpt (s : State) (sl : SlotName) : Option StateWord → Except Refusal State
  | Option.none => .ok s
  | some n => s.commit sl n

/-- The status byte of a slot (40_control_page_access.md R77). -/
def statusByte (x : Slot) (addr : Addr) : Byte := (descr x.kind).status x.state addr

/-- `on_read(s, addr, p)`: the transition unless peeking, then the status byte (40_control_page_access.md R77; status after the transition
is the spec's decision D8). -/
def State.onRead (s : State) (sl : SlotName) (addr : Addr) (peek : Bool) : Except Refusal (State × Byte) :=
  match (if peek then .ok s else s.commitOpt sl ((descr (s.slot sl).kind).rd (s.slot sl).state addr)) with
  | .ok t => .ok (t, statusByte (t.slot sl) addr)
  | .error e => .error e

/-- `on_write(s, addr, v, p)` (40_control_page_access.md R78, R74). -/
def State.onWrite (s : State) (sl : SlotName) (addr : Addr) (v : Byte) (peek : Bool) : Except Refusal (State × Handled) :=
  if peek then .ok (s, .unhandled)
  else
    match (descr (s.slot sl).kind).wr (s.slot sl).state addr v with
    | Option.none => .ok (s, .unhandled)
    | some n =>
      match s.commit sl n with
      | .ok t => .ok (t, .handled)
      | .error e => .error e

/-- The part of a control-page read one slot plays: nothing and the idle byte when it is empty (40_control_page_access.md R71, R76). -/
def State.readSlot (s : State) (sl : SlotName) (addr : Addr) (peek : Bool) : Except Refusal (State × Byte) :=
  if (s.slot sl).kind = .none then .ok (s, Config.idleStatus) else s.onRead sl addr peek

/-- The part of a control-page write one slot plays: nothing when it is empty (40_control_page_access.md R73, R76). -/
def State.writeSlot (s : State) (sl : SlotName) (addr : Addr) (v : Byte) (peek : Bool) : Except Refusal (State × Handled) :=
  if (s.slot sl).kind = .none then .ok (s, .unhandled) else s.onWrite sl addr v peek

/-- `fire_hook(s, addr, w, v)` (42_window_access.md R121). -/
def State.fireHook (s : State) (sl : SlotName) (addr : Addr) (w : Bool) (v : Byte) : Except Refusal State :=
  match (descr (s.slot sl).kind).hook with
  | Option.none => .ok s
  | some h => if h.triggers addr then s.commitOpt sl (h.tr (s.slot sl).state addr w v) else .ok s

/-- `ram_store(s, r, addr, v)`: the gates, the buffer byte, the window copy (42_window_access.md R125). -/
def State.ramStore (s : State) (sl : SlotName) (r : RamOps) (addr : Addr) (v : Byte) : Except Refusal State :=
  if r.storesIn (s.slot sl).state then
    match bufWrite (s.slot sl) (r.scatter (s.slot sl).state addr.toNat) v with
    | Option.none => .error .bufferRange
    | some x =>
      let t := s.setSlot sl x
      .ok { t with window := { t.window with bytes := memWrite t.window.bytes addr.toNat [v] } }
  else .ok s

/-! ### Image files -/

/-- The container header of an image, each field stored at the offset `READ_IMAGE` reads it from (46_image_container.md R188, R193). -/
def imageHeader (ops : LoaderOps) (kind : Kind) (body : List Byte) : List Byte :=
  let blank := List.replicate Config.hdrLen Config.hdrReserved
  let magic := putBytes blank Config.hdrMagicAt Config.hdrMagic
  let typed := putBytes magic Config.hdrTypeAt (be32 (codeOf ops kind))
  putBytes typed Config.hdrSumAt (be32 (ops.checksum body))

/-- The bytes `WRITE_IMAGE` writes (46_image_container.md R193). -/
def imageFile (ops : LoaderOps) (kind : Kind) (buf : Option (List Byte)) (raw : Bool) : List Byte :=
  let body := buf.getD (List.replicate (declaredKb kind * Config.kiloByte) ops.presizeFill)
  if raw then body
  else imageHeader ops kind body ++ body

/-- How the next write to storage ends (46_image_container.md R193; log 10). -/
def State.nextIo (s : State) : IoResult := if Config.storageFails s.ioCount then .ioError else .ok

/-- Writing an image file: the file leaves in the output, and the next write will be another one (46_image_container.md R193). -/
def State.writeFile (s : State) (path : Text) (kind : Kind) (buf : Option (List Byte)) (raw : Bool) : State :=
  { s with
    ioCount := s.ioCount + 1
    out := { s.out with writes := s.out.writes ++ [⟨path, imageFile s.loaderOps kind buf raw, s.nextIo⟩] } }

/-! ### From an operation to an answer -/

/-- The answer of an operation that can be refused. -/
def answer (r : Except Refusal State) : Answer :=
  match r with
  | .ok t => .next t
  | .error e => .refused e

/-- Giving a read byte as the event's output. -/
def State.giveData (s : State) (b : Byte) : State := { s with out := { s.out with data := some b } }

/-- Giving the handled flag as the event's output. -/
def State.giveHandled (s : State) (h : Handled) : State := { s with out := { s.out with handled := some h } }

end Sys2Proof.Machine
end

