-- ==== Sys2Proof/Machine/BusOther.lean ====
section
/-! DEFINITION. `BUS_OTHER`: an address that is not the block's. State and window image are unchanged and the block returns nothing
(30_encoding.md R57). -/

namespace Sys2Proof.Machine

/-- `BUS_OTHER.Q0`, 0x0000..0x3FFF (30_encoding.md R57). -/
def execBusOtherQ0 (s : State) : Answer := .next s.clearOut

/-- `BUS_OTHER.Q1`, 0x4000..0x7FFF on the XLXE machine (30_encoding.md R57). -/
def execBusOtherQ1 (s : State) : Answer := .next s.clearOut

/-- `BUS_OTHER.Q3`, 0xC000..0xFFFF but for the control page (30_encoding.md R57). -/
def execBusOtherQ3 (s : State) : Answer := .next s.clearOut

end Sys2Proof.Machine
end

