-- ==== Sys2Proof/Machine/ControlPage.lean ====
section
/-! DEFINITION. The four control-page events (40_control_page_access.md R71 to R75). -/

namespace Sys2Proof.Machine

/-- The routing of a control-page read: primary first, then piggyback, results ANDed (40_control_page_access.md R71, R72, R76). -/
def State.ctrlRead (s : State) (addr : Addr) (peek : Bool) : Except Refusal State :=
  match s.readSlot .P addr peek with
  | .error e => .error e
  | .ok (t, rp) =>
    match t.readSlot .G addr peek with
    | .error e => .error e
    | .ok (u, rg) => .ok (u.giveData (Config.idleStatus &&& rp &&& rg))

/-- The routing of a control-page write: both slots see it, the flags are ORed (40_control_page_access.md R73, R76). -/
def State.ctrlWrite (s : State) (addr : Addr) (v : Byte) (peek : Bool) : Except Refusal State :=
  match s.writeSlot .P addr v peek with
  | .error e => .error e
  | .ok (t, hp) =>
    match t.writeSlot .G addr v peek with
    | .error e => .error e
    | .ok (u, hg) => .ok (u.giveHandled (hp.or hg))

/-- `CTRL_RD` (40_control_page_access.md R71). -/
def execCtrlRd (addr : Addr) (s : State) : Answer := answer (s.clearOut.ctrlRead addr false)

/-- `CTRL_RD.PEEK` (40_control_page_access.md R72). -/
def execCtrlRdPeek (addr : Addr) (s : State) : Answer := answer (s.clearOut.ctrlRead addr true)

/-- `CTRL_WR` (40_control_page_access.md R73). -/
def execCtrlWr (addr : Addr) (data : Byte) (s : State) : Answer := answer (s.clearOut.ctrlWrite addr data false)

/-- `CTRL_WR.PEEK`: nothing but the flag `Unhandled` (40_control_page_access.md R75; the flag is the spec's decision D9). -/
def execCtrlWrPeek (addr : Addr) (data : Byte) (s : State) : Answer := answer (s.clearOut.ctrlWrite addr data true)

end Sys2Proof.Machine
end

