-- ==== Sys2Proof/Machine/Image.lean ====
section
/-! DEFINITION. The image loader and writer, `READ_IMAGE` and `WRITE_IMAGE` (46_image_container.md R185 to R195). -/

namespace Sys2Proof.Machine

/-- The kinds the size table gives for a raw size; a zero-length file matches nothing (46_image_container.md R186, R187). -/
def sizeMatches (ops : LoaderOps) (kb : Nat) : List Kind :=
  if kb = 0 then [] else (ops.sizeTable.filter fun r => decide (r.1 = kb)).map (·.2)

/-- Reading a file whose length is a multiple of 1024 (46_image_container.md R186, R187). -/
def readRaw (ops : LoaderOps) (file : List Byte) : LoadResult :=
  let kb := file.length / Config.kiloByte
  match sizeMatches ops kb with
  | [] => .unknownSize
  | [k] => .ok k kb file true
  | _ :: _ :: _ => .ambiguousSize .unknown kb file true

/-- Reading the image behind a valid header of kind `k` (46_image_container.md R186, R190 to R192). -/
def readBody (ops : LoaderOps) (file : List Byte) (k : Kind) : LoadResult :=
  let need := declaredKb k * Config.kiloByte
  if file.length - Config.hdrLen < need then .tooFewData
  else
    let body := bytesAt file Config.hdrLen need
    if ops.checksum body = readBe32 file Config.hdrSumAt then .ok k (declaredKb k) body false
    else .badChecksum k (declaredKb k) body false

/-- Reading a file whose length is no multiple of 1024 (46_image_container.md R186, R188, R189; a code in range that is no kind's has a free
value, log 9). -/
def readHeadered (ops : LoaderOps) (file : List Byte) : LoadResult :=
  if file.length < Config.hdrLen ∨ bytesAt file Config.hdrMagicAt Config.hdrMagic.length ≠ Config.hdrMagic then .badFormat
  else if (readBe32 file Config.hdrTypeAt).toInt < 1 ∨ (ops.codeMax : Int) < (readBe32 file Config.hdrTypeAt).toInt then .badFormat
  else
    match kindOfCode ops (readBe32 file Config.hdrTypeAt) with
    | Option.none => Config.codeGap file
    | some k => readBody ops file k

/-- `READ_IMAGE(file)`; no file is one that cannot be opened (46_image_container.md R186). -/
def readImage (ops : LoaderOps) : Option (List Byte) → LoadResult
  | Option.none => .cantOpen
  | some file => if file.length % Config.kiloByte = 0 then readRaw ops file else readHeadered ops file

/-- `READ_IMAGE` writes no block state; its result is the event's output (46_image_container.md R186). -/
def execReadImage (file : Option (List Byte)) (s : State) : Answer :=
  .next { s.clearOut with out := { load := some (readImage s.loaderOps file) } }

/-- `WRITE_IMAGE` (46_image_container.md R193). -/
def execWriteImage (path : Text) (kind : Kind) (buf : Option (List Byte)) (raw : Bool) (s : State) : Answer :=
  let t := s.clearOut.writeFile path kind buf raw
  .next { t with out := { t.out with io := some s.nextIo } }

end Sys2Proof.Machine
end

