-- ==== Sys2Proof/Machine/RemapSteps.lean ====
section
/-! DEFINITION. The steps `REMAP` and `FULL_REMAP` as events of their own (43_remap.md R139, R141), and the address line remapper `LINE_REMAP`
(44_address_line_remapper.md R152 to R155). -/

namespace Sys2Proof.Machine

/-- The preconditions of the line remapper for a buffer of `n` bytes (44_address_line_remapper.md R154). -/
def LineMap.fits (lm : LineMap) (n : Nat) : Bool :=
  decide (n ≤ 2 ^ Config.addrLines) && (List.range n).all (fun i => decide (lm.permAddr i < n))

/-- `new[i] = PermData(dmap, old[PermAddr(amap, i)])`, every read from the bytes as loaded (44_address_line_remapper.md R152, R155). -/
def LineMap.decoded (lm : LineMap) (old : List Byte) : List Byte :=
  (List.range old.length).map fun i => lm.permData (old.getD (lm.permAddr i) 0)

/-- `LINE_REMAP(s)`: decodes the buffer of a slot of a line-remapped kind; for every other kind it does not apply
(44_address_line_remapper.md R150, R152; log 12). -/
def State.lineRemap (s : State) (sl : SlotName) : Except Refusal State :=
  match lineMapOf (s.slot sl).kind with
  | Option.none => .ok s
  | some lm =>
    match (s.slot sl).buffer with
    | Option.none => .error .bufferRange
    | some old =>
      if lm.fits old.length then .ok (s.setSlot sl { s.slot sl with buffer := some (lm.decoded old) })
      else .error .lineRemap

/-- `LINE_REMAP` (44_address_line_remapper.md R152). -/
def execLineRemap (sl : SlotName) (s : State) : Answer := answer (s.clearOut.lineRemap sl)

/-- `REMAP` (43_remap.md R139). -/
def execRemap (sl : SlotName) (s : State) : Answer := answer (s.clearOut.remap sl)

/-- `FULL_REMAP` (43_remap.md R141). -/
def execFullRemap (s : State) : Answer := answer s.clearOut.fullRemap

end Sys2Proof.Machine
end

