-- ==== Sys2Proof/Machine/SlotOps.lean ====
section
/-! DEFINITION. The slot operations: `INSERT` (and the pseudo-operation `REPLACE`), `REMOVE`, `COLD_START`, `SAVE_STATE`, `RESTORE_STATE`
(45_slot_operations.md R165 to R181). -/

namespace Sys2Proof.Machine

/-! ### Removal -/

/-- `remove_one(s)`, with the write-back of a nonvolatile kind; the result of the write does not stop the removal
(45_slot_operations.md R170, R171). -/
def State.removeOne (s : State) (sl : SlotName) : Except Refusal State :=
  let x := s.slot sl
  if x.kind = .none then .ok s
  else if (descr x.kind).nonvolatile then
    if (lineMapOf x.kind).isSome then .error .nonvolatileLineMap
    else .ok ((s.writeFile x.path x.kind x.buffer x.raw).setSlot sl Slot.empty)
  else .ok (s.setSlot sl Slot.empty)

/-- `REMOVE(s)`: removing the primary removes the piggyback first (45_slot_operations.md R170, R169). -/
def State.removeEvent (s : State) (sl : SlotName) : Except Refusal State :=
  match (if sl = .P then s.removeOne .G else .ok s) with
  | .error e => .error e
  | .ok t =>
    match t.removeOne sl with
    | .error e => .error e
    | .ok u => u.fullRemap

/-! ### Insertion -/

/-- The first precondition of `INSERT` that fails, if one does (45_slot_operations.md R168 a to f, R171). -/
def insertFailure (s : State) (sl : SlotName) (kind : Kind) (bytes : List Byte) : Option InsertFailure :=
  if kind = .none then some .kindNone
  else if bytes.length = 0 ∨ bytes.length % Config.kiloByte ≠ 0 then some .length
  else if acceptsSize kind (bytes.length / Config.kiloByte) = false then some .size
  else if acceptsMachine kind s.machine = false then some .machine
  else if ((lineMapOf kind).map (fun lm => lm.fits bytes.length)).getD true = false then some .lineMap
  else if sl = .G ∧ s.p.kind = .none then some .noPrimary
  else if (descr kind).nonvolatile = true ∧ (lineMapOf kind).isSome = true then some .nonvolatileLineMap
  else Option.none

/-- The kind an insertion is given, or why its type code denotes none: a code `n` outside `1..KIND_CODE_MAX` is refused, and in range it denotes the
kind with `KindCode(k) = n` (30_encoding.md R56, R62 e); a code in range that is no kind's is refused too (log 17). -/
def resolveKind (ops : LoaderOps) : KindArg → Except InsertFailure Kind
  | .named k => .ok k
  | .code n =>
    if n.toInt < 1 ∨ (ops.codeMax : Int) < n.toInt then .error .codeRange
    else
      match kindOfCode ops n with
      | Option.none => .error .codeOfNoKind
      | some k => .ok k

/-- The record an insertion builds, before `LINE_REMAP` and `init_state` (45_slot_operations.md R166). -/
def freshSlot (kind : Kind) (bytes : List Byte) (path : Text) (raw : Bool) : Slot where
  kind := kind
  sizeKb := bytes.length / Config.kiloByte
  buffer := some bytes
  state := 0#32
  path := path
  raw := raw

/-- `insert_quiet`: an insertion without its full remap and without its token (45_slot_operations.md R166, R180). -/
def State.insertQuiet (s : State) (sl : SlotName) (kind : Kind) (bytes : List Byte) (path : Text) (raw : Bool) :
    Except Refusal State :=
  match insertFailure s sl kind bytes with
  | some f => .error (.insert f)
  | Option.none =>
    match s.removeOne sl with
    | .error e => .error e
    | .ok t =>
      match (t.setSlot sl (freshSlot kind bytes path raw)).lineRemap sl with
      | .error e => .error e
      | .ok u => .ok (u.setSlot sl { u.slot sl with state := (descr kind).initState })

/-- `INSERT(s, kind, bytes, path, raw)`; on an occupied slot it is `REPLACE` (45_slot_operations.md R166, R167, R173, R176). -/
def State.insertEvent (s : State) (sl : SlotName) (arg : KindArg) (bytes : List Byte) (path : Text) (raw : Bool) :
    Except Refusal State :=
  match resolveKind s.loaderOps arg with
  | .error f => .error (.insert f)
  | .ok kind =>
    match s.insertQuiet sl kind bytes path raw with
    | .error e => .error e
    | .ok t =>
      match t.fullRemap with
      | .error e => .error e
      | .ok u => .ok { u with out := { u.out with coldRestart := decide (sl = .P) && u.autoreboot } }

/-! ### Cold start -/

/-- The record of a slot after a cold start: an occupied slot returns to its initial state (45_slot_operations.md R174). -/
def coldSlot (x : Slot) : Slot := if x.kind = .none then x else { x with state := (descr x.kind).initState }

/-- `COLD_START` (45_slot_operations.md R174; its full remap is the spec's decision D21). -/
def State.coldStartEvent (s : State) : Except Refusal State :=
  State.fullRemap { s with p := coldSlot s.p, g := coldSlot s.g }

/-! ### Saving and restoring -/

/-- The entry of a slot in the ordered record, under a code (45_slot_operations.md R178). -/
def saveEntry (c : Code) (x : Slot) : SaveEntry := ⟨c, x.path, x.state, x.raw⟩

/-- The ordered record: the primary's code is negated when a piggyback is present (45_slot_operations.md R178). -/
def saveRecord (ops : LoaderOps) (p g : Slot) : List SaveEntry :=
  if g.kind = .none then [saveEntry (codeOf ops p.kind) p]
  else [saveEntry (-codeOf ops p.kind) p, saveEntry (codeOf ops g.kind) g]

/-- `|c|` of an `i32` (45_slot_operations.md R180). -/
def absCode (c : Code) : Code := if c.toInt < 0 then -c else c

/-- What the loader makes of the file at a path; a path with no file cannot be opened (45_slot_operations.md R180; log 13). The files are the event's
operands: one that the same event's `remove_one` has just written back to its path is read as it was before, where the spec says of the NEXT
`READ_IMAGE` of a path that it returns the RAM contents (R171) and of this load nothing: the model's choice (log 25). -/
def loadPath (ops : LoaderOps) (files : List FileAt) (path : Text) : LoadResult :=
  readImage ops ((files.find? fun f => decide (f.path = path)).map (·.bytes))

/-- The image bytes a result carries: the caller goes on with those of `AmbiguousSize` and `BadChecksum` (60_exceptions.md R206). -/
def LoadResult.image : LoadResult → Option (List Byte)
  | .ok _ _ bytes _ => some bytes
  | .badChecksum _ _ bytes _ => some bytes
  | .ambiguousSize _ _ bytes _ => some bytes
  | .cantOpen => Option.none
  | .badFormat => Option.none
  | .tooFewData => Option.none
  | .unknownSize => Option.none

/-- Restoring one slot from its entry: load, insert quietly, overwrite the state word; or the loader's error, with the slot as it was
(45_slot_operations.md R180). -/
def State.restoreSlot (s : State) (sl : SlotName) (k : Kind) (e : SaveEntry) (files : List FileAt) :
    Except Refusal (State × Option LoadResult) :=
  let r := loadPath s.loaderOps files e.path
  match LoadResult.image r with
  | Option.none => .ok (s, some r)
  | some bytes =>
    match s.insertQuiet sl k bytes e.path e.raw with
    | .error f => .error f
    | .ok t => .ok (t.setSlot sl { t.slot sl with state := e.state }, Option.none)

/-- Restoring the piggyback, which a negative primary code promises (45_slot_operations.md R180). -/
def State.restorePiggyback (s : State) (rest : List SaveEntry) (files : List FileAt) :
    Except Refusal (State × Option LoadResult) :=
  match rest with
  | [] => .error .restoreRecord
  | e :: _ =>
    match kindOfCode s.loaderOps e.code with
    | Option.none => .error .restoreCode
    | some k => s.restoreSlot .G k e files

/-- Restoring both slots from a record, from two empty slots (45_slot_operations.md R180). -/
def State.restoreRecord (s : State) (record : List SaveEntry) (files : List FileAt) :
    Except Refusal (State × Option LoadResult) :=
  match record with
  | [] => .error .restoreRecord
  | e :: rest =>
    if e.code = 0#32 then .ok (s, Option.none)
    else
      match kindOfCode s.loaderOps (absCode e.code) with
      | Option.none => .error .restoreCode
      | some k =>
        match s.restoreSlot .P k e files with
        | .error f => .error f
        | .ok (t, some r) => .ok (t, some r)
        | .ok (t, Option.none) => if e.code.toInt < 0 then t.restorePiggyback rest files else .ok (t, Option.none)

/-- The end of a restore: a load failure leaves both slots empty and gives the loader's error; either way one full remap
(45_slot_operations.md R180; log 13). A primary that was restored before the piggyback's load failed is emptied with no write-back, even one of a
nonvolatile kind; the spec says that the slots are left empty, and not whether `remove_one` empties them: the model's choice (log 26). -/
def State.restoreEnd (s : State) (failed : Option LoadResult) : Except Refusal State :=
  match failed with
  | Option.none => s.fullRemap
  | some r => State.fullRemap { s with p := Slot.empty, g := Slot.empty, out := { s.out with load := some r } }

/-- `RESTORE_STATE(rec, load)` (45_slot_operations.md R180). What `load` reads of a file the two removals wrote back, and how a failed load empties
the slots, are the model's choices (log 25, log 26). -/
def State.restoreEvent (s : State) (record : List SaveEntry) (files : List FileAt) : Except Refusal State :=
  match s.removeOne .G with
  | .error e => .error e
  | .ok t =>
    match t.removeOne .P with
    | .error e => .error e
    | .ok u =>
      match u.restoreRecord record files with
      | .error e => .error e
      | .ok (v, failed) => v.restoreEnd failed

/-! ### The events -/

/-- `INSERT` (45_slot_operations.md R166). -/
def execInsert (sl : SlotName) (arg : KindArg) (bytes : List Byte) (path : Text) (raw : Bool) (s : State) : Answer :=
  answer (s.clearOut.insertEvent sl arg bytes path raw)

/-- `REMOVE` (45_slot_operations.md R170). -/
def execRemove (sl : SlotName) (s : State) : Answer := answer (s.clearOut.removeEvent sl)

/-- `COLD_START` (45_slot_operations.md R174). -/
def execColdStart (s : State) : Answer := answer s.clearOut.coldStartEvent

/-- `SAVE_STATE`: refused with a slot of kind `Unknown`, which has no code (45_slot_operations.md R178). -/
def execSaveState (s : State) : Answer :=
  if s.p.kind = .unknown ∨ s.g.kind = .unknown then .refused .saveUnknown
  else .next { s.clearOut with out := { record := some (saveRecord s.loaderOps s.p s.g) } }

/-- `RESTORE_STATE` (45_slot_operations.md R180). -/
def execRestoreState (record : List SaveEntry) (files : List FileAt) (s : State) : Answer :=
  answer (s.clearOut.restoreEvent record files)

end Sys2Proof.Machine
end

