-- ==== Sys2Proof/Machine/WindowAccess.lean ====
section
/-! DEFINITION. The window events (42_window_access.md R120 to R125) and their rows for the half 0x4000..0x7FFF of the 5200 machine
(30_encoding.md R64). -/

namespace Sys2Proof.Machine

/-- `WIN_RD`: the hook of the active slot, then the byte (42_window_access.md R120, R127; the order is the spec's decision D10). -/
def State.winReadEvent (s : State) (addr : Addr) : Except Refusal State :=
  match (if (s.slot s.active).kind = .none then .ok s else s.fireHook s.active addr false 0#8) with
  | .error e => .error e
  | .ok t => .ok (t.giveData (winRead t.window addr.toNat))

/-- `WIN_WR`: the hook of the active slot, or a RAM store, or nothing (42_window_access.md R123, R127). -/
def State.winWriteEvent (s : State) (addr : Addr) (v : Byte) : Except Refusal State :=
  if (s.slot s.active).kind = .none then .ok s
  else if ((descr (s.slot s.active).kind).hook.map (·.triggers addr)).getD false then s.fireHook s.active addr true v
  else
    match (descr (s.slot s.active).kind).ram with
    | Option.none => .ok s
    | some r =>
      if s.window.isOn addr.toNat && s.window.isRam addr.toNat then s.ramStore s.active r addr v else .ok s

/-- `WIN_RD` (42_window_access.md R120). -/
def execWinRd (addr : Addr) (s : State) : Answer := answer (s.clearOut.winReadEvent addr)

/-- `WIN_RD.PEEK`: the byte of the window image and nothing else (42_window_access.md R122). -/
def execWinRdPeek (addr : Addr) (s : State) : Answer := .next (s.clearOut.giveData (winRead s.window addr.toNat))

/-- `WIN_WR` (42_window_access.md R123). -/
def execWinWr (addr : Addr) (data : Byte) (s : State) : Answer := answer (s.clearOut.winWriteEvent addr data)

/-- `WIN_WR.PEEK`: nothing (42_window_access.md R124). -/
def execWinWrPeek (s : State) : Answer := .next s.clearOut

/-- `WIN_RD.LO5200`: `WIN_RD` (30_encoding.md R64). -/
def execWinRdLo5200 (addr : Addr) (s : State) : Answer := answer (s.clearOut.winReadEvent addr)

/-- `WIN_RD.PEEK.LO5200`: `WIN_RD.PEEK` (30_encoding.md R64). -/
def execWinRdPeekLo5200 (addr : Addr) (s : State) : Answer := .next (s.clearOut.giveData (winRead s.window addr.toNat))

/-- `WIN_WR.LO5200`: `WIN_WR` (30_encoding.md R64). -/
def execWinWrLo5200 (addr : Addr) (data : Byte) (s : State) : Answer := answer (s.clearOut.winWriteEvent addr data)

/-- `WIN_WR.PEEK.LO5200`: `WIN_WR.PEEK` (30_encoding.md R64). -/
def execWinWrPeekLo5200 (s : State) : Answer := .next s.clearOut

end Sys2Proof.Machine
end

