-- ==== Sys2Proof/Machine/Dispatch.lean ====
section
/-! DEFINITION. The one dispatch: an arm per constructor of Instr, each a direct call of its meaning. -/

namespace Sys2Proof.Machine

def exec (i : Instr) (s : State) : Host.Outcome State Fault Refusal :=
  match i with
  | .ctrlRd addr _ => Sys2Proof.Machine.execCtrlRd addr s
  | .ctrlRdPeek addr _ => Sys2Proof.Machine.execCtrlRdPeek addr s
  | .ctrlWr addr data => Sys2Proof.Machine.execCtrlWr addr data s
  | .ctrlWrPeek addr data => Sys2Proof.Machine.execCtrlWrPeek addr data s
  | .winRd addr _ => Sys2Proof.Machine.execWinRd addr s
  | .winRdPeek addr _ => Sys2Proof.Machine.execWinRdPeek addr s
  | .winWr addr data => Sys2Proof.Machine.execWinWr addr data s
  | .winWrPeek _ _ => Sys2Proof.Machine.execWinWrPeek s
  | .winRdLo5200 addr _ => Sys2Proof.Machine.execWinRdLo5200 addr s
  | .winRdPeekLo5200 addr _ => Sys2Proof.Machine.execWinRdPeekLo5200 addr s
  | .winWrLo5200 addr data => Sys2Proof.Machine.execWinWrLo5200 addr data s
  | .winWrPeekLo5200 _ _ => Sys2Proof.Machine.execWinWrPeekLo5200 s
  | .busOtherQ0 _ _ _ _ => Sys2Proof.Machine.execBusOtherQ0 s
  | .busOtherQ1 _ _ _ _ => Sys2Proof.Machine.execBusOtherQ1 s
  | .busOtherQ3 _ _ _ _ => Sys2Proof.Machine.execBusOtherQ3 s
  | .insert slot kind bytes path raw => Sys2Proof.Machine.execInsert slot kind bytes path raw s
  | .remove slot => Sys2Proof.Machine.execRemove slot s
  | .coldStart => Sys2Proof.Machine.execColdStart s
  | .lineRemap slot => Sys2Proof.Machine.execLineRemap slot s
  | .saveState => Sys2Proof.Machine.execSaveState s
  | .restoreState record files => Sys2Proof.Machine.execRestoreState record files s
  | .readImage file => Sys2Proof.Machine.execReadImage file s
  | .writeImage path kind buf raw => Sys2Proof.Machine.execWriteImage path kind buf raw s
  | .remap slot => Sys2Proof.Machine.execRemap slot s
  | .fullRemap => Sys2Proof.Machine.execFullRemap s

end Sys2Proof.Machine
end

