-- ==== Sys2Proof/Machine/Step.lean ====
section
/-! DEFINITION. The step: one event of the input is decoded and run to completion (10_state.md R17; 70_reset_and_hazards.md R234). -/

namespace Sys2Proof.Machine

/-- One step: the next event of the input leaves it, is decoded and executed. With no event pending nothing happens (log 2). -/
def step (s : State) : Host.Outcome State Fault Refusal :=
  match s.input with
  | [] => .next s
  | e :: rest =>
    match decode s.machine e with
    | .ok i => exec i { s with input := rest }
    | .error r => .refused (.decode r)

/-- The state with a table word as the next event of its input (log 2). -/
def State.withFetchWord (s : State) (nbits w : Nat) : State := { s with input := tableEvent nbits w :: s.input }

end Sys2Proof.Machine
end

