-- ==== Sys2Proof/Safety.lean ====
section
/-! DEFINITION. What a good state is: the invariants of 10_state.md R12 and R16 with the canonical form of the window image (`State.Inv`), and the
agreement of the window image with what the active slot's mapping says, of its marks (`State.Marked`) and of its bytes too (`State.Coherent`,
43_remap.md R142). -/

namespace Sys2Proof

/-- The fields `(p, w, addr, data)` of a control-page event (30_encoding.md R52). -/
def Instr.controlFields : Instr → Option (Bool × Bool × Addr × Byte)
  | .ctrlRd addr data => some (false, false, addr, data)
  | .ctrlRdPeek addr data => some (true, false, addr, data)
  | .ctrlWr addr data => some (false, true, addr, data)
  | .ctrlWrPeek addr data => some (true, true, addr, data)
  | .winRd _ _ | .winRdPeek _ _ | .winWr _ _ | .winWrPeek _ _ => none
  | .winRdLo5200 _ _ | .winRdPeekLo5200 _ _ | .winWrLo5200 _ _ | .winWrPeekLo5200 _ _ => none
  | .busOtherQ0 _ _ _ _ | .busOtherQ1 _ _ _ _ | .busOtherQ3 _ _ _ _ => none
  | .insert _ _ _ _ _ | .remove _ | .coldStart | .lineRemap _ | .saveState | .restoreState _ _ => none
  | .readImage _ | .writeImage _ _ _ _ | .remap _ | .fullRemap => none

/-- The fields `(p, w, addr, data)` of a window event, of either half (30_encoding.md R53, R64). -/
def Instr.windowFields : Instr → Option (Bool × Bool × Addr × Byte)
  | .winRd addr data | .winRdLo5200 addr data => some (false, false, addr, data)
  | .winRdPeek addr data | .winRdPeekLo5200 addr data => some (true, false, addr, data)
  | .winWr addr data | .winWrLo5200 addr data => some (false, true, addr, data)
  | .winWrPeek addr data | .winWrPeekLo5200 addr data => some (true, true, addr, data)
  | .ctrlRd _ _ | .ctrlRdPeek _ _ | .ctrlWr _ _ | .ctrlWrPeek _ _ => none
  | .busOtherQ0 _ _ _ _ | .busOtherQ1 _ _ _ _ | .busOtherQ3 _ _ _ _ => none
  | .insert _ _ _ _ _ | .remove _ | .coldStart | .lineRemap _ | .saveState | .restoreState _ _ => none
  | .readImage _ | .writeImage _ _ _ _ | .remap _ | .fullRemap => none

/-- The events that put a cartridge in or take one out (10_state.md R10, R24). -/
def Instr.replacesCartridge : Instr → Bool
  | .insert _ _ _ _ _ | .remove _ | .restoreState _ _ => true
  | .ctrlRd _ _ | .ctrlRdPeek _ _ | .ctrlWr _ _ | .ctrlWrPeek _ _ => false
  | .winRd _ _ | .winRdPeek _ _ | .winWr _ _ | .winWrPeek _ _ => false
  | .winRdLo5200 _ _ | .winRdPeekLo5200 _ _ | .winWrLo5200 _ _ | .winWrPeekLo5200 _ _ => false
  | .busOtherQ0 _ _ _ _ | .busOtherQ1 _ _ _ _ | .busOtherQ3 _ _ _ _ => false
  | .coldStart | .lineRemap _ | .saveState | .readImage _ | .writeImage _ _ _ _ | .remap _ | .fullRemap => false

/-- The events that can write a buffer byte (10_state.md R10). -/
def Instr.writesBuffer : Instr → Bool
  | .insert _ _ _ _ _ | .remove _ | .restoreState _ _ => true
  | .lineRemap _ | .winWr _ _ | .winWrLo5200 _ _ => true
  | .ctrlRd _ _ | .ctrlRdPeek _ _ | .ctrlWr _ _ | .ctrlWrPeek _ _ => false
  | .winRd _ _ | .winRdPeek _ _ | .winWrPeek _ _ => false
  | .winRdLo5200 _ _ | .winRdPeekLo5200 _ _ | .winWrPeekLo5200 _ _ => false
  | .busOtherQ0 _ _ _ _ | .busOtherQ1 _ _ _ _ | .busOtherQ3 _ _ _ _ => false
  | .coldStart | .saveState | .readImage _ | .writeImage _ _ _ _ | .remap _ | .fullRemap => false

/-- The events that can write a state word (10_state.md R10). -/
def Instr.writesState : Instr → Bool
  | .insert _ _ _ _ _ | .remove _ | .restoreState _ _ | .coldStart => true
  | .ctrlRd _ _ | .ctrlWr _ _ | .winRd _ _ | .winWr _ _ | .winRdLo5200 _ _ | .winWrLo5200 _ _ => true
  | .ctrlRdPeek _ _ | .ctrlWrPeek _ _ | .winRdPeek _ _ | .winWrPeek _ _ => false
  | .winRdPeekLo5200 _ _ | .winWrPeekLo5200 _ _ => false
  | .busOtherQ0 _ _ _ _ | .busOtherQ1 _ _ _ _ | .busOtherQ3 _ _ _ _ => false
  | .lineRemap _ | .saveState | .readImage _ | .writeImage _ _ _ _ | .remap _ | .fullRemap => false

end Sys2Proof

namespace Sys2Proof.Machine

/-- The invariants of an occupied or empty slot record on a machine (10_state.md R12), with what an insertion demanded of its kind, machine and
size (45_slot_operations.md R168). -/
structure Slot.Inv (m : MachineKind) (x : Slot) : Prop where
  empty    : x.kind = .none → x = Slot.empty
  buffer   : x.kind ≠ .none → ∃ b, x.buffer = some b ∧ b.length = x.sizeKb * Config.kiloByte
  positive : x.kind ≠ .none → 0 < x.sizeKb
  size     : x.kind ≠ .none → acceptsSize x.kind x.sizeKb = true
  machine  : x.kind ≠ .none → acceptsMachine x.kind m = true
  lines    : ∀ lm, lineMapOf x.kind = some lm → x.kind ≠ .none → lm.fits (x.sizeKb * Config.kiloByte) = true
  writable : (descr x.kind).nonvolatile = true → lineMapOf x.kind = Option.none

/-- Everything the window image holds lies in a cartridge window of the machine (10_state.md R22). -/
structure Window.Inside (w : Window) (m : MachineKind) : Prop where
  en    : ∀ a ∈ w.en, inWindow m a = true
  ram   : ∀ a ∈ w.ram, inWindow m a = true
  bytes : ∀ c ∈ w.bytes, inWindow m c.1 = true

/-- The invariants that hold between events: both records (10_state.md R12), no piggyback behind an empty primary (45_slot_operations.md R169),
`active` as R16 computes it, the window image in canonical form. -/
structure State.Inv (s : State) : Prop where
  p       : s.p.Inv s.machine
  g       : s.g.Inv s.machine
  chained : s.g.kind ≠ .none → s.p.kind ≠ .none
  active  : s.active = activeOf s.sdxPbMask s.p s.g
  window  : s.window.wf
  inside  : s.window.Inside s.machine

/-- The segment a slot's mapping has at an address (20_memory.md R37). -/
def segmentOf (m : MachineKind) (x : Slot) (a : Nat) : Option Segment := (mappingOf m x).bind (segmentAt · a)

/-- Whether a segment turns its addresses on (41_type_descriptors.md R91). -/
def shownOn : Option Segment → Bool
  | some g => decide (g.content ≠ .disabled)
  | Option.none => false

/-- Whether a segment marks its addresses as RAM (41_type_descriptors.md R91). -/
def shownRam : Option Segment → Bool
  | some g => decide (g.content = .ram)
  | Option.none => false

/-- The byte a segment of a slot's mapping assigns to one of its addresses (20_memory.md R37; 43_remap.md R142): a buffer byte for `RomAt` and
`Ram`, 0xFF for `Fill` and `Disabled`. Nothing where the buffer has no such byte. -/
def Segment.byteAt (g : Segment) (x : Slot) (a : Nat) : Option Byte :=
  match g.content with
  | .disabled => some Config.fill
  | .fill => some Config.fill
  | .romAt off => bufRead x (off + (a - g.lo))
  | .ram => (descr x.kind).ram.bind fun r => bufRead x (r.scatter x.state a)

/-- The byte a slot's mapping assigns to an address; 0xFF in no segment (43_remap.md R142). -/
def shownByte (m : MachineKind) (x : Slot) (a : Nat) : Option Byte :=
  match segmentOf m x a with
  | Option.none => some Config.fill
  | some g => g.byteAt x a

/-- The enable and RAM marks of the window image are those of the active slot's mapping in its committed state (43_remap.md R142). It says nothing of
the bytes, which a `LINE_REMAP` issued alone leaves stale (10_state.md R22). -/
structure State.Marked (s : State) : Prop where
  on  : ∀ a, inWindow s.machine a = true → s.window.isOn a = shownOn (segmentOf s.machine (s.slot s.active) a)
  ram : ∀ a, inWindow s.machine a = true → s.window.isRam a = shownRam (segmentOf s.machine (s.slot s.active) a)

/-- The window image shows the active slot in its committed state: marks and bytes (43_remap.md R142). -/
structure State.Coherent (s : State) : Prop extends State.Marked s where
  byte : ∀ a, inWindow s.machine a = true → some (winRead s.window a) = shownByte s.machine (s.slot s.active) a

/-- No ROM segment of a slot's mapping shows a buffer byte that a RAM segment of it shows too (`Descriptor.Apart`; log 23): what a store of
42_window_access.md R125, which refreshes the one address, needs to keep the window image and the mapping equal. Every good record has it
(`Slot.Inv.apart`). -/
def Slot.Apart (m : MachineKind) (x : Slot) : Prop := ∀ a b g off r, segmentOf m x a = some g → g.content = .romAt off →
  (descr x.kind).ram = some r → shownRam (segmentOf m x b) = true → r.scatter x.state b ≠ off + (a - g.lo)

/-- The state word of a slot after a non-peek control-page read: the type's read transition, if it gives one (40_control_page_access.md R77). -/
def readNext (x : Slot) (addr : Addr) : StateWord := ((descr x.kind).rd x.state addr).getD x.state

/-- The state word of a slot after a non-peek control-page write (40_control_page_access.md R78). -/
def writeNext (x : Slot) (addr : Addr) (v : Byte) : StateWord := ((descr x.kind).wr x.state addr v).getD x.state

/-- A slot record with a new state word; an empty slot stays empty (40_control_page_access.md R76). -/
def Slot.moved (x : Slot) (n : StateWord) : Slot := if x.kind = .none then x else { x with state := n }

/-- The byte a slot contributes to a control-page read in its present state: 0xFF when empty (40_control_page_access.md R71, R77). -/
def contribution (x : Slot) (addr : Addr) : Byte := if x.kind = .none then Config.idleStatus else statusByte x addr

/-- Whether an occupied slot's type reacts to a write (40_control_page_access.md R74). -/
def reacts (x : Slot) (addr : Addr) (v : Byte) : Bool :=
  decide (x.kind ≠ .none) && ((descr x.kind).wr x.state addr v).isSome

/-- The handled flag that says whether something reacted. -/
def Handled.ofBool : Bool → Handled
  | true => .handled
  | false => .unhandled

/-- Whether an access of a window address fires the hook of a slot's type (42_window_access.md R121). -/
def firesHook (x : Slot) (addr : Addr) : Bool :=
  decide (x.kind ≠ .none) && ((descr x.kind).hook.map (·.triggers addr)).getD false

/-- The state word of a slot after a non-peek window access (42_window_access.md R121). -/
def hookNext (x : Slot) (addr : Addr) (w : Bool) (v : Byte) : StateWord :=
  if firesHook x addr then ((descr x.kind).hook.bind fun h => h.tr x.state addr w v).getD x.state else x.state

/-- The mapper commands that show a slot record, none where there are none to give (43_remap.md R139). -/
def shownCommands (m : MachineKind) (x : Slot) : List MapperCmd :=
  match mapCommands m x with
  | .ok cs => cs
  | .error _ => []

/-- The commands of one segment of a slot record, written out from 43_remap.md R138 and R139: `Disabled` disables its range; `Fill` copies as many fill
bytes as the range has addresses and enables; `RomAt off` copies the buffer bytes from `off` on and enables; `Ram` copies the buffer byte at each
address's scattered offset, marks and enables. -/
def Slot.SegmentCommands (x : Slot) (g : Segment) (cs : List MapperCmd) : Prop :=
  match g.content with
  | .disabled => cs = [.disable g.lo g.hi]
  | .fill => cs = [.copy g.lo g.hi (List.replicate (g.hi + 1 - g.lo) Config.fill), .enable g.lo g.hi]
  | .romAt off => ∃ bs : List Byte, bs.length = g.hi + 1 - g.lo ∧ (∀ k, k < bs.length → bs[k]? = bufRead x (off + k)) ∧
      cs = [.copy g.lo g.hi bs, .enable g.lo g.hi]
  | .ram => ∃ (r : RamOps) (bs : List Byte), (descr x.kind).ram = some r ∧ bs.length = g.hi + 1 - g.lo ∧
      (∀ k, k < bs.length → bs[k]? = bufRead x (r.scatter x.state (g.lo + k))) ∧
      cs = [.copy g.lo g.hi bs, .markRam g.lo g.hi, .enable g.lo g.hi]

/-- The commands that show a slot record on a machine: those of the segments of its mapping, in list order (43_remap.md R139). -/
def Slot.MappingCommands (m : MachineKind) (x : Slot) (cs : List MapperCmd) : Prop :=
  ∃ parts : List (List MapperCmd), List.Forall₂ x.SegmentCommands ((descr x.kind).map x.state m x.sizeKb) parts ∧ cs = parts.flatten

/-- The condition of 40_control_page_access.md R79 for a full remap, written out: a piggyback is present, the primary's type has a passthrough
function, and that function answers otherwise in the state `n` than in the old one. -/
def switchesSource (s : State) (n : StateWord) : Bool :=
  match (descr s.p.kind).passthrough with
  | Option.none => false
  | some pt => decide (s.g.kind ≠ .none) && decide (pt.selectsPiggyback s.sdxPbMask s.p.state ≠ pt.selectsPiggyback s.sdxPbMask n)

/-- The mapper commands of a transition of the primary to `n`: none if nothing changes; one full remap if it toggles which slot is active; else
one remap of the primary, which issues something only when the primary is active (43_remap.md R143; 40_control_page_access.md R79). -/
def primaryCommands (s : State) (n : StateWord) : List MapperCmd :=
  if n = s.p.state then []
  else if switchesSource s n then
    disableCommands s.machine ++
      shownCommands s.machine (if activeOf s.sdxPbMask { s.p with state := n } s.g = .G then s.g else { s.p with state := n })
  else if s.active = .P then shownCommands s.machine { s.p with state := n } else []

/-- The mapper commands of a transition of the piggyback to `n` while `a` is the active slot (43_remap.md R143, R140). -/
def piggybackCommands (s : State) (a : SlotName) (n : StateWord) : List MapperCmd :=
  if n = s.g.state then [] else if a = .G then shownCommands s.machine { s.g with state := n } else []

/-- The mapper commands of a transition of one slot to `n`. -/
def slotCommands (s : State) (sl : SlotName) (n : StateWord) : List MapperCmd :=
  match sl with
  | .P => primaryCommands s n
  | .G => piggybackCommands s s.active n

/-- The mapper commands of one control-page access in which the primary moves to `np` and the piggyback to `ng`
(43_remap.md R143; 40_control_page_access.md R80). -/
def accessCommands (s : State) (np ng : StateWord) : List MapperCmd :=
  primaryCommands s np ++ piggybackCommands s (activeOf s.sdxPbMask (s.p.moved np) s.g) ng

/-- The buffer offset a non-peek window write stores to in the active slot, if it stores at all: an occupied RAM-backed slot, no trigger
address, an address on and marked as RAM, and a state that lets a write through (42_window_access.md R123, R125). -/
def storeOffset (s : State) (addr : Addr) : Option Nat :=
  if (s.slot s.active).kind = .none ∨ firesHook (s.slot s.active) addr = true then Option.none
  else
    (descr (s.slot s.active).kind).ram.bind fun r =>
      if s.window.isOn addr.toNat && s.window.isRam addr.toNat && r.storesIn (s.slot s.active).state then
        some (r.scatter (s.slot s.active).state addr.toNat)
      else Option.none

/-- The state after a RAM store of one byte: the buffer byte at an offset and the window byte at an address, and nothing else
(42_window_access.md R125). -/
def State.stored (s : State) (addr : Addr) (off : Nat) (v : Byte) : State :=
  let x := s.slot s.active
  let t := s.setSlot s.active { x with buffer := x.buffer.map (·.set off v) }
  { t with window := { t.window with bytes := memWrite t.window.bytes addr.toNat [v] } }

/-- The state after the write-back of a slot: a nonvolatile kind's buffer goes to the slot's own file in its own format, any other kind's goes
nowhere (45_slot_operations.md R171). -/
def State.writtenBack (s : State) (sl : SlotName) : State :=
  if (descr (s.slot sl).kind).nonvolatile then s.writeFile (s.slot sl).path (s.slot sl).kind (s.slot sl).buffer (s.slot sl).raw else s

/-- The state after the removals of both slots, the piggyback's first: those a restore begins with, and those of `REMOVE P`
(45_slot_operations.md R170, R180). -/
def State.bothRemoved (s : State) : State :=
  (((s.writtenBack .G).setSlot .G Slot.empty).writtenBack .P).setSlot .P Slot.empty

/-- The bytes an insertion keeps: those loaded, decoded through the kind's line maps if it has any (45_slot_operations.md R166). -/
def keptBytes (kind : Kind) (bytes : List Byte) : List Byte :=
  match lineMapOf kind with
  | Option.none => bytes
  | some lm => lm.decoded bytes

/-- The record an insertion leaves (45_slot_operations.md R166; 10_state.md R25). -/
def insertedSlot (kind : Kind) (bytes : List Byte) (path : Text) (raw : Bool) : Slot where
  kind := kind
  sizeKb := bytes.length / Config.kiloByte
  buffer := some (keptBytes kind bytes)
  state := (descr kind).initState
  path := path
  raw := raw

/-- What no event changes: the parameters of the machine (10_state.md R23). -/
structure State.SameParams (s t : State) : Prop where
  machine    : t.machine = s.machine
  autoreboot : t.autoreboot = s.autoreboot
  loader     : t.loader = s.loader
  sdxPbMask  : t.sdxPbMask = s.sdxPbMask

/-- What a `RESTORE_STATE` that answers leaves: the two records, `active` recomputed, a window image that shows the active slot, the files the two
removals wrote back, the loader's error if a load failed, and the commands of one full remap; nothing else changes
(45_slot_operations.md R180). -/
structure State.RestoredTo (s t : State) (x y : Slot) (failed : Option LoadResult) : Prop extends State.SameParams s t where
  p        : t.p = x
  g        : t.g = y
  active   : t.active = activeOf s.sdxPbMask x y
  coherent : t.Coherent
  input    : t.input = s.input
  ioCount  : t.ioCount = (State.bothRemoved { s with out := {} }).ioCount
  out      : t.out = { load := failed
                       writes := (State.bothRemoved { s with out := {} }).out.writes
                       commands := disableCommands s.machine ++ shownCommands s.machine (t.slot t.active) }
  window   : t.window = t.out.commands.foldl Window.apply s.window

/-- What no bus event changes: the parameters, the input still to come, and the count of writes to storage. -/
structure State.SameFrame (s t : State) : Prop extends State.SameParams s t where
  input   : t.input = s.input
  ioCount : t.ioCount = s.ioCount

/-- The number of set bits among the lowest `n` bits of a value. -/
def bitCount (n v : Nat) : Nat := ((List.range n).filter v.testBit).length

/-- A run is safe when no step of it is refused and none faults. -/
def Safe (n : Nat) (s : State) : Prop :=
  match n with
  | 0 => True
  | k + 1 => ∃ t, step s = .next t ∧ Safe k t

end Sys2Proof.Machine
end

