-- ==== Sys2Proof/Certificates/Slice0/Obligations.lean ====
section
/-! DEFINITION. The statements for the provers. A title that says "model's choice" or "spec's decision" names what the statement rests on
beside the document's own words. -/

open Sys2Proof Sys2Proof.Machine

/-! ### Encoding and decoding (30_encoding.md) -/

/-- Decoding what the encoder writes gives the instruction back, for every well-formed instruction of either machine. The packing and
the codes are the spec's own (its decision D1); that events of codes 8 and 9, which the host never issues, decode to the internal steps is the model's
choice (log 24). -/
def Obligations.DecodeOfEncode : Prop := ∀ (m : MachineKind) (i : Instr), i.wf m = true → decode m (encode i) = .ok i

/-- A bus word that decodes gives a well-formed instruction, and the encoder gives the word back: no bit of a word is dropped. -/
def Obligations.EncodeOfDecodedWord : Prop := ∀ (m : MachineKind) (word : BitVec 32) (i : Instr),
  decode m (.bus word) = .ok i → i.wf m = true ∧ encode i = .bus word

/-- Words written out from the tables of 95_test_vectors.md section 3.1 and 30_encoding.md R55 decode to what the tables say. The packing and the
codes are the spec's own (its decision D1); the last clause, that an event of code 9 decodes to `FULL_REMAP` although R55 says the host never issues it,
is the model's choice (log 24). -/
def Obligations.WrittenOutWordsDecode : Prop :=
  decode .xlxe (.bus 0x00D50000#32) = .ok (.ctrlRd 0xD500#16 0x00#8) ∧
  decode .a5200 (.bus 0x01D5FFAB#32) = .ok (.ctrlWr 0xD5FF#16 0xAB#8) ∧
  decode .xlxe (.bus 0x02D50000#32) = .ok (.ctrlRdPeek 0xD500#16 0x00#8) ∧
  decode .xlxe (.bus 0x03D50312#32) = .ok (.ctrlWrPeek 0xD503#16 0x12#8) ∧
  decode .xlxe (.bus 0x01A00055#32) = .ok (.winWr 0xA000#16 0x55#8) ∧
  decode .a5200 (.bus 0x007FFF00#32) = .ok (.winRdLo5200 0x7FFF#16 0x00#8) ∧
  decode .xlxe (.bus 0x007FFF00#32) = .ok (.busOtherQ1 false false 0x7FFF#16 0x00#8) ∧
  decode .xlxe (.bus 0x04000000#32) = .error .busWordTooWide ∧
  decode .xlxe (.host 9#8 {}) = .ok .fullRemap

/-- The instruction a word decodes to has the row of spec/opcode_table.json with the most mask bits among the rows of the machine that match
the word (30_encoding.md R64). -/
def Obligations.LongestMaskRowSelects : Prop := ∀ (m : MachineKind) (word : BitVec 32) (i : Instr), decode m (.bus word) = .ok i →
  ∃ r, i.busRow = some r ∧ r ∈ busRows ∧ r.matchesWord m word = true ∧
    ∀ r' ∈ busRows, r'.matchesWord m word = true → r' = r ∨ maskBits r'.mask < maskBits r.mask

/-- Every 26-bit word spells an event on either machine, and no wider word does (30_encoding.md R62 c, R64). -/
def Obligations.EveryBusWordSpellsOneEvent : Prop := ∀ (m : MachineKind) (word : BitVec 32),
  (word.toNat < 2 ^ 26 → ∃ i, decode m (.bus word) = .ok i) ∧ (2 ^ 26 ≤ word.toNat → decode m (.bus word) = .error .busWordTooWide)

/-- A bus word is a control-page event if and only if its address is on the control page, on either machine; then peek and direction select it;
and the page is where match and mask say (30_encoding.md R52). -/
def Obligations.ControlPageDecode : Prop := ∀ (m : MachineKind) (p w : Bool) (addr : Addr) (data : Byte),
  ∃ i, decode m (.bus (busWord p w addr data)) = .ok i ∧
    (if 0xD500 ≤ addr.toNat ∧ addr.toNat ≤ 0xD5FF then i.controlFields = some (p, w, addr, data) else i.controlFields = none) ∧
    ((busWord p w addr data).toNat &&& 0x03FF0000 = 0x00D50000 ||| p.toNat <<< 25 ||| w.toNat <<< 24 ↔
      0xD500 ≤ addr.toNat ∧ addr.toNat ≤ 0xD5FF)

/-- A bus word is a window event if and only if its address is in a cartridge window of the machine; then peek and direction select it; and the
two halves are where match and mask say (30_encoding.md R53). -/
def Obligations.WindowDecode : Prop := ∀ (m : MachineKind) (p w : Bool) (addr : Addr) (data : Byte),
  ∃ i, decode m (.bus (busWord p w addr data)) = .ok i ∧
    (if (match m with | .xlxe => 0x8000 | .a5200 => 0x4000) ≤ addr.toNat ∧ addr.toNat ≤ 0xBFFF
      then i.windowFields = some (p, w, addr, data) else i.windowFields = none) ∧
    ((busWord p w addr data).toNat &&& 0x03C00000 = 0x00800000 ||| p.toNat <<< 25 ||| w.toNat <<< 24 ↔
      0x8000 ≤ addr.toNat ∧ addr.toNat ≤ 0xBFFF) ∧
    ((busWord p w addr data).toNat &&& 0x03C00000 = 0x00400000 ||| p.toNat <<< 25 ||| w.toNat <<< 24 ↔
      0x4000 ≤ addr.toNat ∧ addr.toNat ≤ 0x7FFF) ∧
    (i.controlFields = none ∨ i.windowFields = none)

/-- The ten host commands and the refusal of the reserved codes (30_encoding.md R55, R62 d; the codes are the spec's decision D1). That an event of code
8 or 9, which the host never issues, decodes to the internal step is the model's choice (log 24). -/
def Obligations.HostCodesDecode : Prop := ∀ (m : MachineKind) (ops : HostOps),
  decode m (.host 0 ops) = .ok (.insert ops.slot ops.kindArg ops.bytes ops.path ops.raw) ∧
  decode m (.host 1 ops) = .ok (.remove ops.slot) ∧
  decode m (.host 2 ops) = .ok .coldStart ∧
  decode m (.host 3 ops) = .ok (.lineRemap ops.slot) ∧
  decode m (.host 4 ops) = .ok .saveState ∧
  decode m (.host 5 ops) = .ok (.restoreState ops.record ops.files) ∧
  decode m (.host 6 ops) = .ok (.readImage ops.file) ∧
  decode m (.host 7 ops) = .ok (.writeImage ops.path ops.kind ops.buf ops.raw) ∧
  decode m (.host 8 ops) = .ok (.remap ops.slot) ∧
  decode m (.host 9 ops) = .ok .fullRemap ∧
  ∀ code : BitVec 8, 10 ≤ code.toNat → decode m (.host code ops) = .error .reservedHostCode

/-- A step runs the decoded instruction on the state whose input has lost the event; an event that spells nothing is refused; with no event
pending nothing happens (the model's own input queue, log 2). -/
def Obligations.StepRunsTheDecodedInstruction : Prop := ∀ (s : State),
  (s.input = [] → step s = .next s) ∧
  ∀ (e : Event) (rest : List Event), s.input = e :: rest →
    (∀ i, decode s.machine e = .ok i → step s = exec i { s with input := rest }) ∧
    (∀ r, decode s.machine e = .error r → step s = .refused (.decode r))

/-- An address neither on the control page nor in a cartridge window is not the block's: nothing is changed and nothing returned
(30_encoding.md R57); and so each of the three `BUS_OTHER` rows completes in every state. -/
def Obligations.OtherAddressesAreIgnored : Prop :=
  (∀ (s : State) (p w : Bool) (addr : Addr) (data : Byte), ¬(0xD500 ≤ addr.toNat ∧ addr.toNat ≤ 0xD5FF) →
    inWindow s.machine addr.toNat = false →
    ∃ i, decode s.machine (.bus (busWord p w addr data)) = .ok i ∧ exec i s = .next { s with out := {} }) ∧
  ∀ (s : State) (p w : Bool) (addr : Addr) (data : Byte),
    exec (.busOtherQ0 p w addr data) s = .next { s with out := {} } ∧ exec (.busOtherQ1 p w addr data) s = .next { s with out := {} } ∧
    exec (.busOtherQ3 p w addr data) s = .next { s with out := {} }

/-! ### The control page (40_control_page_access.md) -/

/-- `CTRL_RD` on a good state: both slots make their own read transition, the byte is the AND of their status bytes afterwards, the mapper
commands are those of the two transitions, the window image is what those commands make of it, and nothing else changes. The order of the two
slots and of transition and status are the spec's decisions D6 and D8. -/
def Obligations.ControlReadResult : Prop := ∀ (s : State), s.Inv → ∀ (addr : Addr) (data : Byte), ∃ t, exec (.ctrlRd addr data) s = .next t ∧
  t.p = s.p.moved (readNext s.p addr) ∧ t.g = s.g.moved (readNext s.g addr) ∧ t.active = activeOf s.sdxPbMask t.p t.g ∧
  t.out = { data := some (contribution t.p addr &&& contribution t.g addr)
            commands := accessCommands s (readNext s.p addr) (readNext s.g addr) } ∧
  t.window = (accessCommands s (readNext s.p addr) (readNext s.g addr)).foldl Window.apply s.window ∧ s.SameFrame t

/-- `CTRL_RD.PEEK` returns the AND of the status bytes of the current states and writes nothing; `CTRL_RD` at the same address returns the
status of the states after its transitions, which is the spec's decision D8 (40_control_page_access.md R72, R77). -/
def Obligations.ControlPeekReadsTheCurrentState : Prop := ∀ (s : State) (addr : Addr) (data : Byte),
  (onControlPage addr = true → decode s.machine (.bus (busWord true false addr data)) = .ok (.ctrlRdPeek addr data)) ∧
  exec (.ctrlRdPeek addr data) s = .next { s with out := { data := some (contribution s.p addr &&& contribution s.g addr) } } ∧
  (s.Inv → ∃ t, exec (.ctrlRd addr data) s = .next t ∧ t.out.data =
    some (contribution (s.p.moved (readNext s.p addr)) addr &&& contribution (s.g.moved (readNext s.g addr)) addr))

/-- After a peek of the control page, read or write, of any kind, address, value and state, everything is as before and no mapper command was
issued (40_control_page_access.md R81). That the flag of a write peek is `Unhandled` is the spec's decision D9 (R75). -/
def Obligations.ControlPeeksChangeNothing : Prop := ∀ (s : State) (addr : Addr) (data : Byte),
  (∃ b, exec (.ctrlRdPeek addr data) s = .next { s with out := { data := some b, commands := [] } }) ∧
  exec (.ctrlWrPeek addr data) s = .next { s with out := { handled := some .unhandled, commands := [] } }

/-- `CTRL_WR` on a good state: both slots make their own write transition, the flag says whether one of them reacted, the mapper commands are
those of the two transitions, the window image is what those commands make of it, and nothing else changes. A transition of the primary gives one full
remap exactly under the condition of R79, which `switchesSource` writes out. The order of the slots is the spec's decision D6. -/
def Obligations.ControlWriteResult : Prop := ∀ (s : State), s.Inv → ∀ (addr : Addr) (data : Byte), ∃ t, exec (.ctrlWr addr data) s = .next t ∧
  t.p = s.p.moved (writeNext s.p addr data) ∧ t.g = s.g.moved (writeNext s.g addr data) ∧ t.active = activeOf s.sdxPbMask t.p t.g ∧
  t.out = { handled := some (Handled.ofBool (reacts s.p addr data || reacts s.g addr data))
            commands := accessCommands s (writeNext s.p addr data) (writeNext s.g addr data) } ∧
  t.window = (accessCommands s (writeNext s.p addr data) (writeNext s.g addr data)).foldl Window.apply s.window ∧ s.SameFrame t

/-- A write is `Handled` when the table of an occupied slot's type gave a new state for it, even one equal to the old, and `Unhandled`
otherwise; a slot whose table gave none keeps its whole record (40_control_page_access.md R74). That one flag answers for both slots, the OR of
theirs, is the spec's decision D6 (R73, R76). -/
def Obligations.UnhandledWriteKeepsTheState : Prop := ∀ (s : State), s.Inv → ∀ (addr : Addr) (data : Byte),
  ∃ t, exec (.ctrlWr addr data) s = .next t ∧
    (t.out.handled = some .handled ↔ ∃ sl, (s.slot sl).kind ≠ .none ∧ ∃ n, (descr (s.slot sl).kind).wr (s.slot sl).state addr data = some n) ∧
    (t.out.handled = some .unhandled ↔ ∀ sl, (s.slot sl).kind ≠ .none → (descr (s.slot sl).kind).wr (s.slot sl).state addr data = none) ∧
    ∀ sl, (descr (s.slot sl).kind).wr (s.slot sl).state addr data = none → t.slot sl = s.slot sl

/-- With both slots occupied `CTRL_RD` returns the AND of the two bytes the slots' own `on_read` give, each taken from the state before the
event; and a slot's byte is the same in every good state that has the same kind and the same state word there, whatever else it holds
(40_control_page_access.md R82). -/
def Obligations.ReadIsTheAndOfIndependentReads : Prop := ∀ (s : State), s.Inv → s.p.kind ≠ .none → s.g.kind ≠ .none →
  ∀ (addr : Addr) (data : Byte), ∃ t tp tg rp rg, s.onRead .P addr false = .ok (tp, rp) ∧ s.onRead .G addr false = .ok (tg, rg) ∧
    exec (.ctrlRd addr data) s = .next t ∧ t.out.data = some (rp &&& rg) ∧
    ∀ u : State, u.Inv → ∀ sl, (u.slot sl).kind = (s.slot sl).kind → (u.slot sl).state = (s.slot sl).state →
      ∃ v, u.onRead sl addr false = .ok (v, match sl with | .P => rp | .G => rg)

/-! ### The windows (42_window_access.md) -/

/-- `WIN_RD` and its 5200 form on a good state: the hook of the active slot fires on a trigger address, then the byte is read; the inactive slot
sees nothing; the mapper commands are those of the transition and nothing else changes. Reading after the switch is the spec's decision D10. -/
def Obligations.WindowReadResult : Prop := ∀ (s : State), s.Inv → ∀ (addr : Addr) (data : Byte), ∃ t,
  exec (.winRd addr data) s = .next t ∧ exec (.winRdLo5200 addr data) s = .next t ∧
  t.slot s.active = (s.slot s.active).moved (hookNext (s.slot s.active) addr false 0#8) ∧
  (∀ sl, sl ≠ s.active → t.slot sl = s.slot sl) ∧ t.active = activeOf s.sdxPbMask t.p t.g ∧
  t.out = { data := some (winRead t.window addr.toNat)
            commands := slotCommands s s.active (hookNext (s.slot s.active) addr false 0#8) } ∧
  t.window = (slotCommands s s.active (hookNext (s.slot s.active) addr false 0#8)).foldl Window.apply s.window ∧ s.SameFrame t

/-- After a peek of a window, read or write, everything is as before and no mapper command was issued; a peek read gives the byte of the window
image where it is on and 0xFF where it is off (42_window_access.md R129; 43_remap.md R137). -/
def Obligations.WindowPeeksChangeNothing : Prop := ∀ (s : State) (addr : Addr) (data : Byte),
  let b := if s.window.isOn addr.toNat = true then memRead s.window.bytes addr.toNat else 0xFF#8
  exec (.winRdPeek addr data) s = .next { s with out := { data := some b, commands := [] } } ∧
  exec (.winRdPeekLo5200 addr data) s = .next { s with out := { data := some b, commands := [] } } ∧
  exec (.winWrPeek addr data) s = .next { s with out := { commands := [] } } ∧
  exec (.winWrPeekLo5200 addr data) s = .next { s with out := { commands := [] } }

/-- `WIN_WR` and its 5200 form on a good state whose marks are right: on a trigger address the hook of the active slot; else, where the active slot's RAM is
shown and its state lets a write through, one byte of its buffer at the scattered offset and the same byte of the window image; else nothing.
The second gate, the window copy and the precedence of the hook are the spec's decisions D10 and D11. -/
def Obligations.WindowWriteResult : Prop := ∀ (s : State), s.Inv → s.Marked → ∀ (addr : Addr) (data : Byte), ∃ t,
  exec (.winWr addr data) s = .next t ∧ exec (.winWrLo5200 addr data) s = .next t ∧
  (∀ sl, sl ≠ s.active → t.slot sl = s.slot sl) ∧ t.active = activeOf s.sdxPbMask t.p t.g ∧ s.SameFrame t ∧
  (firesHook (s.slot s.active) addr = true →
    t.slot s.active = (s.slot s.active).moved (hookNext (s.slot s.active) addr true data) ∧
    t.out = { commands := slotCommands s s.active (hookNext (s.slot s.active) addr true data) } ∧
    t.window = (slotCommands s s.active (hookNext (s.slot s.active) addr true data)).foldl Window.apply s.window) ∧
  (firesHook (s.slot s.active) addr = false → storeOffset s addr = none → t = { s with out := {} }) ∧
  (∀ off, storeOffset s addr = some off → firesHook (s.slot s.active) addr = false ∧ t.out = {} ∧
    bufRead (t.slot s.active) off = some data ∧ (∀ o, o ≠ off → bufRead (t.slot s.active) o = bufRead (s.slot s.active) o) ∧
    { t.slot s.active with buffer := none } = { s.slot s.active with buffer := none } ∧
    t.window.en = s.window.en ∧ t.window.ram = s.window.ram ∧ winRead t.window addr.toNat = data ∧
    ∀ a, a ≠ addr.toNat → memRead t.window.bytes a = memRead s.window.bytes a)

/-- A byte stored into cartridge RAM through an address is the byte the next read or peek of that address returns, in both halves of the 5200 window
too (42_window_access.md R125; 20_memory.md R43; the refresh of the window copy is the spec's decision D11). -/
def Obligations.RamStoreIsReadBack : Prop := ∀ (s : State), s.Inv → s.Marked → ∀ (addr : Addr) (data d : Byte) (off : Nat),
  storeOffset s addr = some off → ∃ t u v, exec (.winWr addr data) s = .next t ∧ exec (.winWrLo5200 addr data) s = .next t ∧
    exec (.winRd addr d) t = .next u ∧ exec (.winRdLo5200 addr d) t = .next u ∧ u.out.data = some data ∧
    exec (.winRdPeek addr d) t = .next v ∧ exec (.winRdPeekLo5200 addr d) t = .next v ∧ v.out.data = some data

/-- A write into the window of a RAM-backed cartridge whose state is locked or read-only is dropped: nothing changes (42_window_access.md R125; the
read-only gate is the spec's decision D11). -/
def Obligations.ClosedRamDropsWrites : Prop := ∀ (s : State) (r : RamOps) (addr : Addr) (data : Byte),
  (descr (s.slot s.active).kind).ram = some r → (r.locked (s.slot s.active).state = true ∨ r.writable (s.slot s.active).state = false) →
  firesHook (s.slot s.active) addr = false →
  exec (.winWr addr data) s = .next { s with out := {} } ∧ exec (.winWrLo5200 addr data) s = .next { s with out := {} }

/-- With an active slot of a plain or control-page-banked ROM type, window reads and writes and their peek forms change nothing, and a read and a
peek give the same byte, in both halves of the 5200 window too (42_window_access.md R130, which the spec derives). Such a type is every named design
but the two window-switched ones, which alone have a hook (41_type_descriptors.md R90, R93). -/
def Obligations.RomWindowAccessChangesNothing : Prop :=
  (∀ (s : State) (addr : Addr) (data : Byte),
    (descr (s.slot s.active).kind).hook.isNone = true → (descr (s.slot s.active).kind).ram.isNone = true →
    (∀ i ∈ [Instr.winRd addr data, .winRdPeek addr data, .winRdLo5200 addr data, .winRdPeekLo5200 addr data],
      exec i s = .next { s with out := { data := some (winRead s.window addr.toNat) } }) ∧
    ∀ i ∈ [Instr.winWr addr data, .winWrPeek addr data, .winWrLo5200 addr data, .winWrPeekLo5200 addr data],
      exec i s = .next { s with out := {} }) ∧
  (∀ k, k = .std8 ∨ k = .oss16 ∨ (∃ v, k = .sdx v) ∨ k = .rot32 ∨ k = .clamp →
    (descr k).hook.isNone = true ∧ (descr k).ram.isNone = true ∧ (descr k).nonvolatile = false ∧ ∀ st addr, (descr k).status st addr = 0xFF#8) ∧
  ∀ k, (descr k).hook.isSome = true → k = .bbsb ∨ k = .sc5200 ∨ k = .test .tHook

/-! ### The remap steps (43_remap.md) -/

/-- `FULL_REMAP` of good records, whatever `active` and the window image were: `active` is recomputed, the window image shows the active slot's
mapping at every window address and nothing else, and the records are as before. `active`, the commands that turn every window off, and the effect of
each mapper command at each address are written out (10_state.md R16; 43_remap.md R141, R136). The mapper's semantics and the choice of the active
slot are the spec's decisions D4 and D7. -/
def Obligations.FullRemapShowsTheActiveSlot : Prop :=
  (∀ (s : State), s.p.Inv s.machine → s.g.Inv s.machine → s.window.wf →
    s.window.Inside s.machine → ∃ t, exec .fullRemap s = .next t ∧ t.p = s.p ∧ t.g = s.g ∧ t.active = activeOf s.sdxPbMask s.p s.g ∧
    (t.active = .G ↔ s.g.kind ≠ .none ∧ ∃ pt, (descr s.p.kind).passthrough = some pt ∧ pt.selectsPiggyback s.sdxPbMask s.p.state = true) ∧
    t.Coherent ∧ s.SameFrame t ∧
    t.out = { commands := disableCommands s.machine ++ shownCommands s.machine (s.slot (activeOf s.sdxPbMask s.p s.g)) } ∧
    t.window = t.out.commands.foldl Window.apply s.window) ∧
  disableCommands .xlxe = [.disable 0x8000 0x9FFF, .disable 0xA000 0xBFFF] ∧ disableCommands .a5200 = [.disable 0x4000 0xBFFF] ∧
  ∀ (w : Window) (lo hi a : Nat) (bs : List Byte), let r := lo ≤ a ∧ a ≤ hi
    ((w.apply (.enable lo hi)).isOn a = true ↔ r ∨ w.isOn a = true) ∧ (w.apply (.enable lo hi)).isRam a = w.isRam a ∧
    (w.apply (.enable lo hi)).bytes = w.bytes ∧
    ((w.apply (.disable lo hi)).isOn a = true ↔ ¬r ∧ w.isOn a = true) ∧ ((w.apply (.disable lo hi)).isRam a = true ↔ ¬r ∧ w.isRam a = true) ∧
    (w.apply (.disable lo hi)).bytes = w.bytes ∧
    (w.apply (.markRam lo hi)).isOn a = w.isOn a ∧ ((w.apply (.markRam lo hi)).isRam a = true ↔ r ∨ w.isRam a = true) ∧
    (w.apply (.markRam lo hi)).bytes = w.bytes ∧
    (w.apply (.copy lo hi bs)).isOn a = w.isOn a ∧ ((w.apply (.copy lo hi bs)).isRam a = true ↔ ¬r ∧ w.isRam a = true) ∧
    (bs.length = hi + 1 - lo → (r → bs[a - lo]? = some (memRead (w.apply (.copy lo hi bs)).bytes a)) ∧
      (¬r → memRead (w.apply (.copy lo hi bs)).bytes a = memRead w.bytes a))

/-- `REMAP(s)` on a good state: of the inactive slot nothing; of the active slot the commands of its mapping, segment by segment; the records
are as before, and a coherent window image stays coherent. The commands are written out per content of a segment from R138 and R139 (their order within a
segment is the spec's decision D4), for the active slot of the event and for every good record, so wherever a statement names the commands that show
one. Mapping the active slot only is the spec's decision D7. -/
def Obligations.RemapShowsTheActiveSlotOnly : Prop :=
  (∀ (s : State) (sl : SlotName), s.Inv → ∃ t, exec (.remap sl) s = .next t ∧
    t.p = s.p ∧ t.g = s.g ∧ t.active = s.active ∧ s.SameFrame t ∧
    (sl = s.active → (s.slot sl).MappingCommands s.machine t.out.commands) ∧
    t.out = { commands := if sl = s.active then shownCommands s.machine (s.slot sl) else [] } ∧
    t.window = t.out.commands.foldl Window.apply s.window ∧ (sl ≠ s.active → t = { s with out := {} }) ∧ (s.Coherent → t.Coherent)) ∧
  ∀ (m : MachineKind) (x : Slot), x.Inv m → x.MappingCommands m (shownCommands m x)

/-- Running `REMAP(s)` twice shows what running it once shows (43_remap.md R139). -/
def Obligations.RemapIsIdempotent : Prop := ∀ (s : State) (sl : SlotName), s.Inv → ∃ t u, exec (.remap sl) s = .next t ∧
  exec (.remap sl) t = .next u ∧ ∀ a, u.window.isOn a = t.window.isOn a ∧ u.window.isRam a = t.window.isRam a ∧
    winRead u.window a = winRead t.window a

/-- Every step but one of `LINE_REMAP` keeps the window image in agreement with the active slot's mapping in its committed state
(43_remap.md R142, which the spec derives). A `LINE_REMAP` issued alone writes the buffer and leaves the window image untouched, as
44_address_line_remapper.md R152 and 10_state.md R22 state. That a RAM store keeps the agreement rests on the deduction of log 23, that a type
shows no buffer byte both as ROM and as RAM. -/
def Obligations.EveryStepKeepsCoherence : Prop := ∀ (s t : State), s.Inv → s.Coherent →
  (∀ e rest sl, s.input = e :: rest → decode s.machine e ≠ .ok (.lineRemap sl)) → step s = .next t → t.Coherent

/-- Every step, a `LINE_REMAP` and a RAM store of any type among them, keeps the enable and RAM marks of the window image those of the active slot's
mapping (43_remap.md R142, 10_state.md R22; the spec derives R142). This is what keeps a RAM store inside the buffer, so that no bus event is
refused (60_exceptions.md R201). -/
def Obligations.EveryStepKeepsTheMarks : Prop := ∀ (s t : State), s.Inv → s.Marked → step s = .next t → t.Marked

/-- A window read of a good and coherent state in which no hook fires, and a peek of any window address, of both halves of the 5200 window, return the
byte the active slot's mapping assigns to the address: a bank switch is visible to the very next access (43_remap.md R142; 20_memory.md R42; both
derived by the spec). The last clause, that a read which fires the hook returns the byte of the state after the transition, is the spec's decision D10
(42_window_access.md R120; log 22). -/
def Obligations.WindowReadsShowTheMapping : Prop := ∀ (s : State), s.Inv → s.Coherent → ∀ (addr : Addr) (data : Byte),
  inWindow s.machine addr.toNat = true → ∃ t u b, shownByte s.machine (s.slot s.active) addr.toNat = some b ∧
    exec (.winRdPeek addr data) s = .next t ∧ exec (.winRdPeekLo5200 addr data) s = .next t ∧ t.out.data = some b ∧
    exec (.winRd addr data) s = .next u ∧ exec (.winRdLo5200 addr data) s = .next u ∧ (firesHook (s.slot s.active) addr = false → u.out.data = some b) ∧
    u.out.data = shownByte s.machine (u.slot u.active) addr.toNat

/-! ### Whole-machine rules -/

/-- Every step keeps the invariants of 10_state.md R12 and R16, the rule that no piggyback stands behind an empty primary, and the canonical form of
the window image. -/
def Obligations.EveryStepKeepsTheInvariants : Prop := ∀ (s t : State), s.Inv → step s = .next t → t.Inv

/-- The state after reset has the invariants and coherence, and is the power-on state of 10_state.md R25 (the spec's decision D21); the machine, the
flag and the loader parameters it fixes are the model's choice (log 3, log 8), and `SDX_PB_MASK` is at the spec's default (its decision D15). -/
def Obligations.ResetIsGood : Prop := State.reset.Inv ∧ State.reset.Coherent ∧ State.reset.Marked ∧
  State.reset.sdxPbMask = 0b1000#32 ∧ State.reset.p = Slot.empty ∧ State.reset.g = Slot.empty ∧
  State.reset.active = .P ∧ (∀ a, State.reset.window.isOn a = false ∧ State.reset.window.isRam a = false) ∧ State.reset.input = []

/-- No bus event is refused and none faults: on a good state whose marks are right every bus word of 26 bits gives a next state; and a control-page write no
occupied slot's type reacts to is a silent no-op, with no state change and no remap (60_exceptions.md R201). -/
def Obligations.BusEventsRaiseNothing : Prop := ∀ (s : State), s.Inv → s.Marked →
  (∀ (word : BitVec 32) (rest : List Event), s.input = .bus word :: rest → word.toNat < 2 ^ 26 → ∃ t, step s = .next t) ∧
  ∀ (addr : Addr) (data : Byte),
    (∀ sl, (s.slot sl).kind ≠ .none → (descr (s.slot sl).kind).wr (s.slot sl).state addr data = none) →
    exec (.ctrlWr addr data) s = .next { s with out := { handled := some .unhandled, commands := [] } }

/-- A run of bus events of any length from a good state whose marks are right is never refused and never faults, whatever the types do
(60_exceptions.md R201). Once the pending events are served the run goes on in idle steps, which are the model's choice (log 2). -/
def Obligations.RunsOfBusEventsAreSafe : Prop := ∀ (n : Nat) (s : State), s.Inv → s.Marked →
  (∀ e ∈ s.input, ∃ word : BitVec 32, e = .bus word ∧ word.toNat < 2 ^ 26) → Safe n s

/-- There is no trap: no step faults (60_exceptions.md R205). -/
def Obligations.NoStepFaults : Prop := ∀ (s : State) (f : Fault), step s ≠ .fault f

/-- The parameters never change, and a step consumes at most one event of the input (10_state.md R23, R17; holding them in the state is the model's
choice, log 3). -/
def Obligations.ParametersNeverChange : Prop := ∀ (s t : State), s.Inv → step s = .next t → s.SameParams t ∧ t.input = s.input.tail

/-- Who writes the fields of a slot record (10_state.md section 1): the identity of a cartridge only an insertion, a removal or a restore; its buffer
besides these only `LINE_REMAP` and a window write; its state word only control-page and window accesses, a cold start and those three. -/
def Obligations.RecordFieldsHaveTheirWriters : Prop := ∀ (i : Instr) (s t : State), s.Inv → exec i s = .next t → ∀ sl,
  (i.replacesCartridge = false → (t.slot sl).kind = (s.slot sl).kind ∧ (t.slot sl).sizeKb = (s.slot sl).sizeKb ∧
    (t.slot sl).path = (s.slot sl).path ∧ (t.slot sl).raw = (s.slot sl).raw) ∧
  (i.writesBuffer = false → (t.slot sl).buffer = (s.slot sl).buffer) ∧ (i.writesState = false → (t.slot sl).state = (s.slot sl).state)

/-! ### Slot operations (45_slot_operations.md) -/

/-- `INSERT` on a good state, its kind given by name or by type code: refused when the code denotes no kind or a precondition fails; else the
write-back of what was there, the new record with the loaded bytes decoded through the kind's line maps and the type's initial state, the other
slot's record not touched, the commands of exactly one full remap, and the cold-restart token of a primary insertion with autoreboot. On an occupied
slot this is `REPLACE` (45_slot_operations.md R166, R167, R176). Refusing is the spec's decision D22 (R168), in the model's order and with the
combination of R171 refused at the insertion (log 17); the write-back and the kept piggyback are the spec's decisions D29 and D18. -/
def Obligations.InsertResult : Prop := ∀ (s : State), s.Inv → ∀ (sl : SlotName) (arg : KindArg) (bytes : List Byte) (path : Text) (raw : Bool),
  (∀ f, resolveKind s.loaderOps arg = .error f → exec (.insert sl arg bytes path raw) s = .refused (.insert f)) ∧
  ∀ kind, resolveKind s.loaderOps arg = .ok kind →
    (∀ f, insertFailure s sl kind bytes = some f → exec (.insert sl arg bytes path raw) s = .refused (.insert f)) ∧
    (insertFailure s sl kind bytes = none → ∃ t, exec (.insert sl arg bytes path raw) s = .next t ∧
      t.slot sl = insertedSlot kind bytes path raw ∧ (∀ tl, tl ≠ sl → t.slot tl = s.slot tl) ∧ t.active = activeOf s.sdxPbMask t.p t.g ∧
      t.Coherent ∧ s.SameParams t ∧ t.input = s.input ∧ t.ioCount = (s.writtenBack sl).ioCount ∧
      t.out = { writes := ({ s with out := {} }.writtenBack sl).out.writes
                commands := disableCommands s.machine ++ shownCommands s.machine (t.slot t.active)
                coldRestart := decide (sl = .P) && s.autoreboot } ∧
      t.window = t.out.commands.foldl Window.apply s.window)

/-- What an insertion is checked for. A type code in `1..KIND_CODE_MAX` denotes the kind whose code it is, any other is refused (30_encoding.md R56,
R62 e). The preconditions of the kind are those of 45_slot_operations.md R168 (refusing is the spec's decision D22), and besides them the combination
of R171, nonvolatile and line-remapped, which the model refuses at the insertion already (log 17). -/
def Obligations.InsertPreconditions : Prop := ∀ (s : State) (sl : SlotName) (kind : Kind) (bytes : List Byte),
  (∀ arg, resolveKind s.loaderOps arg = .ok kind ↔ arg = .named kind ∨ ∃ n, arg = .code n ∧ 1 ≤ n.toInt ∧ n.toInt ≤ s.loaderOps.codeMax ∧
    kind ≠ .none ∧ kind ≠ .unknown ∧ codeOf s.loaderOps kind = n) ∧
  (∀ n, resolveKind s.loaderOps (.code n) = .error .codeRange ↔ n.toInt < 1 ∨ (s.loaderOps.codeMax : Int) < n.toInt) ∧
  (insertFailure s sl kind bytes = none ↔ kind ≠ .none ∧ 0 < bytes.length ∧ bytes.length % 1024 = 0 ∧
    (kind = .unknown ∨ bytes.length = (typeEntry kind).sizeKb * 1024) ∧ (kind = .unknown ∨ s.machine = (typeEntry kind).machine) ∧
    (∀ lm, lineMapOf kind = some lm → bytes.length ≤ 2 ^ 17 ∧ ∀ i, i < bytes.length → lm.permAddr i < bytes.length) ∧
    (sl = .G → s.p.kind ≠ .none) ∧ ¬((descr kind).nonvolatile = true ∧ (lineMapOf kind).isSome = true))

/-- `REMOVE` on a good state: the record empty, and the piggyback's with the primary's; a nonvolatile kind's buffer written to its own path first,
the piggyback's before the primary's; then the commands of exactly one full remap, which after `REMOVE P` are those that turn every window off
(45_slot_operations.md R170, R171). Going on after a failed write, and the piggyback leaving with the primary, are the spec's decisions D29 and D18. -/
def Obligations.RemoveResult : Prop := ∀ (s : State), s.Inv → ∃ t u,
  exec (.remove .G) s = .next t ∧ t.g = Slot.empty ∧ t.p = s.p ∧ t.active = .P ∧ t.Coherent ∧ s.SameParams t ∧ t.input = s.input ∧
  t.ioCount = (s.writtenBack .G).ioCount ∧
  t.out = { writes := ({ s with out := {} }.writtenBack .G).out.writes
            commands := disableCommands s.machine ++ shownCommands s.machine s.p } ∧
  t.window = t.out.commands.foldl Window.apply s.window ∧
  exec (.remove .P) s = .next u ∧ u.g = Slot.empty ∧ u.p = Slot.empty ∧ u.active = .P ∧ u.Coherent ∧ s.SameParams u ∧ u.input = s.input ∧
  u.ioCount = (State.bothRemoved { s with out := {} }).ioCount ∧
  u.out = { writes := (State.bothRemoved { s with out := {} }).out.writes, commands := disableCommands s.machine } ∧
  u.window = u.out.commands.foldl Window.apply s.window ∧ ∀ a, u.window.isOn a = false

/-- `COLD_START` on a good state: every occupied slot's state word returns to its type's initial value, everything else of the records is kept, the
commands of exactly one full remap, no restart token (45_slot_operations.md R174; the full remap is the spec's decision D21). -/
def Obligations.ColdStartResult : Prop := ∀ (s : State), s.Inv → ∃ t, exec .coldStart s = .next t ∧
  (∀ sl, t.slot sl = if (s.slot sl).kind = .none then s.slot sl else { s.slot sl with state := (descr (s.slot sl).kind).initState }) ∧
  t.active = activeOf s.sdxPbMask t.p t.g ∧ t.Coherent ∧ s.SameFrame t ∧
  t.out = { commands := disableCommands s.machine ++ shownCommands s.machine (t.slot t.active) } ∧
  t.window = t.out.commands.foldl Window.apply s.window

/-- `SAVE_STATE`: the ordered record of both slots, the primary's code negated when a piggyback is present, and nothing else changes; refused with a
slot of kind `Unknown` (45_slot_operations.md R178; the abstract record is the spec's decision D20). -/
def Obligations.SaveStateResult : Prop := ∀ (s : State),
  (s.p.kind ≠ .unknown → s.g.kind ≠ .unknown → exec .saveState s = .next { s with out := { record := some (
    if s.g.kind = .none then [⟨codeOf s.loaderOps s.p.kind, s.p.path, s.p.state, s.p.raw⟩]
    else [⟨-codeOf s.loaderOps s.p.kind, s.p.path, s.p.state, s.p.raw⟩,
          ⟨codeOf s.loaderOps s.g.kind, s.g.path, s.g.state, s.g.raw⟩]) } }) ∧
  (s.p.kind = .unknown ∨ s.g.kind = .unknown → exec .saveState s = .refused .saveUnknown)

/-- Saving and restoring (45_slot_operations.md R181, which the spec derives): if no slot is of kind `Unknown`, which has no code, and the path of every
occupied slot loads an image of its size, `RESTORE_STATE` of what `SAVE_STATE` gave reproduces kind, size, state, path and raw flag of both slots and
`active`; the buffers are what the files give; and where the active slot's buffer is what its file gives, the window image reads as before. Two clauses
rest on the model's choices: a restore goes on with the bytes of `AmbiguousSize` and `BadChecksum` (log 13), and `load` reads the files as they stand
before the event, so a nonvolatile cartridge's buffer comes from its file as it was before the event's own write-back of it (45_slot_operations.md R171; log 25). -/
def Obligations.SaveThenRestore : Prop := ∀ (s : State) (files : List FileAt), s.Inv → s.Coherent →
  (∀ sl, (s.slot sl).kind ≠ .none → (s.slot sl).kind ≠ .unknown ∧
    ∃ bytes, LoadResult.image (loadPath s.loaderOps files (s.slot sl).path) = some bytes ∧ bytes.length = (s.slot sl).sizeKb * 1024) →
  ∃ t r u, exec .saveState s = .next t ∧ t.out.record = some r ∧ exec (.restoreState r files) t = .next u ∧ u.active = s.active ∧
    (∀ sl, { u.slot sl with buffer := none } = { s.slot sl with buffer := none }) ∧
    (∀ sl bytes, (s.slot sl).kind ≠ .none → LoadResult.image (loadPath s.loaderOps files (s.slot sl).path) = some bytes →
      (u.slot sl).buffer = some (keptBytes (s.slot sl).kind bytes)) ∧
    ((u.slot s.active).buffer = (s.slot s.active).buffer → ∀ a, winRead u.window a = winRead s.window a)

/-- `RESTORE_STATE` on a good state that leaves both slots empty: of a record of an empty primary; and where the primary's path, or the piggyback's after
the primary was restored, gives no image, with the loader's error (45_slot_operations.md R180; the failure rule is the spec's decision D20). A primary
already restored is emptied with no write-back, which is the model's choice (log 26); so is what the loader sees (log 13, log 25). -/
def Obligations.RestoreOfNothing : Prop := ∀ (s : State), s.Inv → ∀ (files : List FileAt) (rest : List SaveEntry),
  (∀ path st raw, ∃ t, exec (.restoreState (⟨0#32, path, st, raw⟩ :: rest) files) s = .next t ∧
    s.RestoredTo t Slot.empty Slot.empty none) ∧
  (∀ e k, e.code ≠ 0#32 → kindOfCode s.loaderOps (absCode e.code) = some k → LoadResult.image (loadPath s.loaderOps files e.path) = none →
    ∃ t, exec (.restoreState (e :: rest) files) s = .next t ∧
      s.RestoredTo t Slot.empty Slot.empty (some (loadPath s.loaderOps files e.path))) ∧
  (∀ e k bytes e2 k2, e.code.toInt < 0 → kindOfCode s.loaderOps (absCode e.code) = some k →
    LoadResult.image (loadPath s.loaderOps files e.path) = some bytes → insertFailure s .P k bytes = none →
    kindOfCode s.loaderOps e2.code = some k2 → LoadResult.image (loadPath s.loaderOps files e2.path) = none →
    ∃ t, exec (.restoreState (e :: e2 :: rest) files) s = .next t ∧
      s.RestoredTo t Slot.empty Slot.empty (some (loadPath s.loaderOps files e2.path)))

/-- `RESTORE_STATE` on a good state of any record whose paths give images, be it a saved one or not: both slots are removed with their write-backs, then
the primary holds the kind with the code's absolute value, the image of its path and the saved state word, and, where the code is negative, the
piggyback those of the second entry. It is refused where a code is no kind's, where an insertion would be, and where the record is shorter than its
sign promises (45_slot_operations.md R180; 60_exceptions.md R213; 93_implementation_defined.md U14; going on with an image that `AmbiguousSize` or
`BadChecksum` carries is the model's reading, log 13, and so is what the loader sees of a file just written back, log 25). -/
def Obligations.RestoreResult : Prop := ∀ (s : State), s.Inv → ∀ (files : List FileAt) (e : SaveEntry) (rest : List SaveEntry),
  exec (.restoreState [] files) s = .refused .restoreRecord ∧
  (e.code ≠ 0#32 → kindOfCode s.loaderOps (absCode e.code) = none → exec (.restoreState (e :: rest) files) s = .refused .restoreCode) ∧
  ∀ k bytes, e.code ≠ 0#32 → kindOfCode s.loaderOps (absCode e.code) = some k →
    LoadResult.image (loadPath s.loaderOps files e.path) = some bytes →
    (∀ f, insertFailure s .P k bytes = some f → exec (.restoreState (e :: rest) files) s = .refused (.insert f)) ∧
    (insertFailure s .P k bytes = none →
      (0 < e.code.toInt → ∃ t, exec (.restoreState (e :: rest) files) s = .next t ∧
        s.RestoredTo t { insertedSlot k bytes e.path e.raw with state := e.state } Slot.empty none) ∧
      (e.code.toInt < 0 → exec (.restoreState [e] files) s = .refused .restoreRecord ∧
        ∀ e2, (kindOfCode s.loaderOps e2.code = none → exec (.restoreState (e :: e2 :: rest) files) s = .refused .restoreCode) ∧
          ∀ k2 bytes2, kindOfCode s.loaderOps e2.code = some k2 → LoadResult.image (loadPath s.loaderOps files e2.path) = some bytes2 →
            (∀ f, insertFailure s .P k2 bytes2 = some f → exec (.restoreState (e :: e2 :: rest) files) s = .refused (.insert f)) ∧
            (insertFailure s .P k2 bytes2 = none → ∃ t, exec (.restoreState (e :: e2 :: rest) files) s = .next t ∧
              s.RestoredTo t { insertedSlot k bytes e.path e.raw with state := e.state }
                { insertedSlot k2 bytes2 e2.path e2.raw with state := e2.state } none)))

/-! ### The address line remapper (44_address_line_remapper.md) -/

/-- The two line functions as the OR of one wired line per set bit; each is a bijection on its range, keeps the number of set bits, and maps 0 to 0
and the all-ones value to itself (44_address_line_remapper.md R153). -/
def Obligations.LineFunctionsPermute : Prop := ∀ (lm : LineMap),
  (∀ i k, (lm.permAddr i).testBit k = true ↔ ∃ b : Fin 17, i.testBit b.val = true ∧ (lm.amap[b]).val = k) ∧
  (∀ y k, (lm.permData y).getLsbD k = true ↔ ∃ b : Fin 8, y.getLsbD b.val = true ∧ (lm.dmap[b]).val = k) ∧
  (∀ j, j < 2 ^ 17 → ∃ i, i < 2 ^ 17 ∧ lm.permAddr i = j ∧ ∀ i', i' < 2 ^ 17 → lm.permAddr i' = j → i' = i) ∧
  (∀ z, ∃ y, lm.permData y = z ∧ ∀ y', lm.permData y' = z → y' = y) ∧
  (∀ i, bitCount 17 (lm.permAddr i) = bitCount 17 i) ∧ (∀ y, bitCount 8 (lm.permData y).toNat = bitCount 8 y.toNat) ∧
  lm.permAddr 0 = 0 ∧ lm.permAddr (2 ^ 17 - 1) = 2 ^ 17 - 1 ∧ lm.permData 0x00#8 = 0x00#8 ∧ lm.permData 0xFF#8 = 0xFF#8

/-- `LINE_REMAP` of a slot of a line-remapped kind with a buffer its maps fit: byte `i` of the new buffer is the byte loaded at `PermAddr(i)` passed
through `PermData`, never the other direction; the new buffer is as long as the old; nothing else changes, the window image included
(44_address_line_remapper.md R152, R155). -/
def Obligations.LineRemapResult : Prop := ∀ (s : State) (sl : SlotName) (lm : LineMap) (old : List Byte),
  lineMapOf (s.slot sl).kind = some lm → (s.slot sl).buffer = some old →
  (old.length ≤ 2 ^ 17 ∧ ∀ i, i < old.length → lm.permAddr i < old.length) →
  ∃ t new, exec (.lineRemap sl) s = .next t ∧ (t.slot sl).buffer = some new ∧ new.length = old.length ∧
    (∀ i, i < old.length → new[i]? = (old[lm.permAddr i]?).map lm.permData) ∧
    { t.slot sl with buffer := some old } = s.slot sl ∧ (∀ tl, tl ≠ sl → t.slot tl = s.slot tl) ∧ t.window = s.window ∧
    t.active = s.active ∧ t.out = {} ∧ s.SameFrame t

/-- `LINE_REMAP` elsewhere: of a kind with no line map it does nothing (the model's choice, log 12); where the buffer breaks the preconditions of
44_address_line_remapper.md R154 it is refused (the spec's decision D19). -/
def Obligations.LineRemapElsewhere : Prop := ∀ (s : State) (sl : SlotName),
  (lineMapOf (s.slot sl).kind = none → exec (.lineRemap sl) s = .next { s with out := {} }) ∧
  (∀ lm old, lineMapOf (s.slot sl).kind = some lm → (s.slot sl).buffer = some old →
    ¬(old.length ≤ 2 ^ 17 ∧ ∀ i, i < old.length → lm.permAddr i < old.length) → exec (.lineRemap sl) s = .refused .lineRemap)

/-- Decoding with the inverse tables restores what was loaded (44_address_line_remapper.md R156, which the spec derives). -/
def Obligations.InverseTablesRestore : Prop := ∀ (lm inv : LineMap) (old : List Byte),
  (∀ b : Fin 17, inv.amap[lm.amap[b]] = b) → (∀ b : Fin 8, inv.dmap[lm.dmap[b]] = b) → lm.fits old.length = true →
  inv.decoded (lm.decoded old) = old

/-! ### Image files (46_image_container.md) -/

/-- `READ_IMAGE` writes no block state: whatever the file, everything but the answer is as before; a file that cannot be opened gives `CantOpen`
(46_image_container.md R186; 60_exceptions.md R205). -/
def Obligations.ReadImageWritesNothing : Prop := ∀ (s : State) (file : Option (List Byte)),
  (∃ r, exec (.readImage file) s = .next { s with out := { load := some r } }) ∧
  exec (.readImage none) s = .next { s with out := { load := some .cantOpen } }

/-- The raw size lookup: one matching entry of the size table infers the kind, none yields `UnknownSize`, two or more yield `AmbiguousSize` with the
size, the bytes and kind `Unknown`; a zero-length file matches nothing (46_image_container.md R187). -/
def Obligations.RawSizeLookup : Prop := ∀ (s : State) (file : List Byte) (ks : List Kind), file.length % 1024 = 0 →
  ks = (s.loaderOps.sizeTable.filter fun r => decide (r.1 = file.length / 1024)).map (·.2) →
  (file = [] ∨ ks = [] → exec (.readImage (some file)) s = .next { s with out := { load := some .unknownSize } }) ∧
  (∀ k, file ≠ [] → ks = [k] →
    exec (.readImage (some file)) s = .next { s with out := { load := some (.ok k (file.length / 1024) file true) } }) ∧
  (file ≠ [] → 2 ≤ ks.length →
    exec (.readImage (some file)) s = .next { s with out := { load := some (.ambiguousSize .unknown (file.length / 1024) file true) } })

/-- `BadFormat`: the length is no multiple of 1024 and the file is shorter than the header, or its magic is wrong, or its type code is outside
`1..KIND_CODE_MAX`; and, where the code is some kind's, only then (46_image_container.md R189). -/
def Obligations.BadFormatIsNoSizeAndNoHeader : Prop := ∀ (s : State) (file : List Byte),
  (file.length % 1024 ≠ 0 → (file.length < 16 ∨ file.take 4 ≠ [0x43#8, 0x41#8, 0x52#8, 0x54#8] ∨ (readBe32 file 4).toInt < 1 ∨
      (s.loaderOps.codeMax : Int) < (readBe32 file 4).toInt) →
    exec (.readImage (some file)) s = .next { s with out := { load := some .badFormat } }) ∧
  ((kindOfCode s.loaderOps (readBe32 file 4)).isSome = true →
    exec (.readImage (some file)) s = .next { s with out := { load := some .badFormat } } →
    file.length % 1024 ≠ 0 ∧ (file.length < 16 ∨ file.take 4 ≠ [0x43#8, 0x41#8, 0x52#8, 0x54#8] ∨ (readBe32 file 4).toInt < 1 ∨
      (s.loaderOps.codeMax : Int) < (readBe32 file 4).toInt))

/-- A file with a valid header: too short for its kind it is `TooFewData`; else the first bytes its kind declares are the image, with `BadChecksum`,
kind, size and bytes when the stored checksum is not theirs (46_image_container.md R186, R190 to R192; the place of the length check is the spec's
decision D25). -/
def Obligations.HeaderedRead : Prop := ∀ (s : State) (file : List Byte) (k : Kind), file.length % 1024 ≠ 0 → 16 ≤ file.length →
  file.take 4 = [0x43#8, 0x41#8, 0x52#8, 0x54#8] → 1 ≤ (readBe32 file 4).toInt → (readBe32 file 4).toInt ≤ s.loaderOps.codeMax →
  kindOfCode s.loaderOps (readBe32 file 4) = some k →
  let body := (file.drop 16).take (declaredKb k * 1024)
  exec (.readImage (some file)) s = .next { s with out := { load := some (
    if file.length < 16 + declaredKb k * 1024 then .tooFewData
    else if s.loaderOps.checksum body = readBe32 file 8 then .ok k (declaredKb k) body false
    else .badChecksum k (declaredKb k) body false) } }

/-- `WRITE_IMAGE` writes one file and no block state: raw, the bytes; headered, the sixteen header bytes and the bytes; with no buffer, the fill byte
repeated. The result is the storage's (46_image_container.md R193; the headered pre-size file is the spec's decision D25; log 10). -/
def Obligations.WriteImageResult : Prop := ∀ (s : State) (path : Text) (kind : Kind) (buf : Option (List Byte)) (raw : Bool),
  let body := buf.getD (List.replicate (declaredKb kind * 1024) s.loaderOps.presizeFill)
  let file := if raw = true then body
    else [0x43#8, 0x41#8, 0x52#8, 0x54#8] ++ be32 (codeOf s.loaderOps kind) ++ be32 (s.loaderOps.checksum body) ++ [0#8, 0#8, 0#8, 0#8] ++ body
  exec (.writeImage path kind buf raw) s =
    .next { s with ioCount := s.ioCount + 1, out := { io := some s.nextIo, writes := [⟨path, file, s.nextIo⟩] } }

/-- `WRITE_IMAGE` followed by `READ_IMAGE` of the file written: headered, kind, size and bytes come back and the checksum holds, for every kind with a
code in range; raw, they come back when the size matches exactly one entry of the size table, else the read is ambiguous with the same bytes
(46_image_container.md R195). The raw clause adds to R195 that the kind has an entry there. That the open table (`loader` none) has one for every
cartridge type that declares a size is the model's inference (DEDUCED, log 8) from R188, whose one declared size is the spec's decision D25. -/
def Obligations.WriteThenRead : Prop := ∀ (s : State) (path : Text) (k : Kind) (bytes : List Byte), bytes.length = declaredKb k * 1024 →
  (k ≠ .none → k ≠ .unknown → (codeOf s.loaderOps k).toInt ≤ s.loaderOps.codeMax →
    ∃ t w u, exec (.writeImage path k (some bytes) false) s = .next t ∧ t.out.writes = [w] ∧ w.path = path ∧
      exec (.readImage (some w.bytes)) t = .next u ∧ u.out.load = some (.ok k (declaredKb k) bytes false)) ∧
  (bytes ≠ [] → k ∈ s.loaderOps.sizeKinds ∨ s.loader = none ∧ declaresSize k = true →
    ∃ t w u, exec (.writeImage path k (some bytes) true) s = .next t ∧ t.out.writes = [w] ∧ w.path = path ∧
      exec (.readImage (some w.bytes)) t = .next u ∧ u.out.load = some (
        if (s.loaderOps.sizeTable.filter fun r => decide (r.1 = declaredKb k)).length = 1 then .ok k (declaredKb k) bytes true
        else .ambiguousSize .unknown (declaredKb k) bytes true))

/-! ### The designs the document names (41_type_descriptors.md) -/

/-- `STD_8`: an 8 KB image inserted in the primary slot shows at 0xA000..0xBFFF byte for byte and 0x8000..0x9FFF stays off; the type has no
transition and its status byte is 0xFF; on the 5200 machine the insertion is refused (41_type_descriptors.md R103). Status and transitions are the
defaults of R93, state 0 is the spec's decision D16, the refusal its decisions D22 and D27 (45_slot_operations.md R168). -/
def Obligations.PlainEightKilobyteRom : Prop := ∀ (s : State), s.Inv → ∀ (bytes : List Byte) (path : Text) (raw : Bool), bytes.length = 8192 →
  (s.machine = .xlxe → ∃ t, exec (.insert .P (.named .std8) bytes path raw) s = .next t ∧ t.p.sizeKb = 8 ∧ t.p.state = 0#32 ∧ t.active = .P ∧
    (∀ k d, k < 8192 → ∃ u, exec (.winRd (BitVec.ofNat 16 (0xA000 + k)) d) t = .next u ∧ u.out.data = bytes[k]?) ∧
    (∀ k d, k < 8192 → ∃ u, exec (.winRd (BitVec.ofNat 16 (0x8000 + k)) d) t = .next u ∧ u.out.data = some 0xFF#8)) ∧
  (s.machine = .a5200 → exec (.insert .P (.named .std8) bytes path raw) s = .refused (.insert .machine)) ∧
  ∀ st addr v, (descr .std8).wr st addr v = none ∧ (descr .std8).rd st addr = none ∧ (descr .std8).status st addr = 0xFF#8

/-- `OSS_16` alone in the primary slot: the low nibble of the address of a control-page write selects bank 0, bank 1 or the disabled state, whatever
the value and the old state (41_type_descriptors.md R104; the three state numbers are the spec's decision D14). -/
def Obligations.OssLowNibbleSelects : Prop := ∀ (s : State), s.Inv → s.Coherent → s.p.kind = .oss16 → s.g.kind = .none →
  ∀ (addr : Addr) (data : Byte), ∃ t, exec (.ctrlWr addr data) s = .next t ∧
    (lowNibble addr = 0x0#4 → t.p.state = ossS0 ∧ ∀ k, k < 4096 → some (winRead t.window (0xB000 + k)) = bufRead s.p k) ∧
    (lowNibble addr = 0x3#4 ∨ lowNibble addr = 0x7#4 →
      t.p.state = ossS1 ∧ ∀ k, k < 4096 → some (winRead t.window (0xB000 + k)) = bufRead s.p (4096 + k)) ∧
    (lowNibble addr = 0x8#4 → t.p.state = ossSd ∧ ∀ k, k < 8192 → winRead t.window (0xA000 + k) = 0xFF#8)

/-- `ROT_32` is inserted in state 0. Alone in the primary slot, in any state, every control-page write advances the state modulo five, also from a state
above 4, which only a restore can bring about, and shows that bank, or 0xFF in state 4; from a state of the cycle five writes at any addresses with any
values come back (41_type_descriptors.md R109). Mapping, initial state and the successor above 4 are the spec's decision D13; the wrap is by the
modulus and not by the word width (R114). -/
def Obligations.RotateOnEveryWrite : Prop :=
  (∀ (s : State), s.Inv → s.machine = .xlxe → ∀ (bytes : List Byte) (path : Text) (raw : Bool), bytes.length = 32768 →
    ∃ t, exec (.insert .P (.named .rot32) bytes path raw) s = .next t ∧ t.p.kind = .rot32 ∧ t.p.sizeKb = 32 ∧ t.p.state = 0#32) ∧
  (descr .rot32).initState = 0#32 ∧ (∀ st addr, (descr .rot32).rd st addr = none ∧ (descr .rot32).status st addr = 0xFF#8) ∧
  ∀ (s : State), s.Inv → s.Coherent → s.p.kind = .rot32 → s.g.kind = .none →
  (∀ addr data, ∃ t, exec (.ctrlWr addr data) s = .next t ∧ t.out.handled = some .handled ∧ t.p.state.toNat = (s.p.state.toNat + 1) % 5 ∧
    ∀ k, k < 8192 → some (winRead t.window (0xA000 + k)) =
      if t.p.state.toNat = 4 then some 0xFF#8 else bufRead s.p (t.p.state.toNat * 8192 + k)) ∧
  (s.p.state.toNat ≤ 4 → ∀ a1 a2 a3 a4 a5 d1 d2 d3 d4 d5, ∃ t1 t2 t3 t4 t5, exec (.ctrlWr a1 d1) s = .next t1 ∧ exec (.ctrlWr a2 d2) t1 = .next t2 ∧
    exec (.ctrlWr a3 d3) t2 = .next t3 ∧ exec (.ctrlWr a4 d4) t3 = .next t4 ∧ exec (.ctrlWr a5 d5) t4 = .next t5 ∧ t5.p = s.p)

/-- A primary of the SDX family: with a piggyback inserted a control-page write leaves the piggyback active exactly when the primary's new state under
the mask `SDX_PB_MASK` is the pattern 0b1000, and the windows then show the active slot's bytes; with none inserted the primary stays active. Where a
piggyback is inserted and the pattern holds of just one of the old and the new state, the commands begin with those that turn both windows off and map
the slot now active; else they are one remap of the primary, if it moved and is active; those of the piggyback's own transition follow. With an `STD_8`
behind a primary whose state has the pattern, before the write or after it, the reads give its bytes (41_type_descriptors.md R106, R107; 40_control_page_access.md R79; that the mask is a parameter is the
spec's decision D15, log 16; that the family is of the XLXE machine is DEDUCED, log 5). -/
def Obligations.PiggybackSelectSwitchesTheSource : Prop := ∀ (s : State), s.Inv → s.Coherent → ∀ (v : BitVec 8), s.p.kind = .sdx v →
  ∀ (addr : Addr) (data : Byte), ∃ t, exec (.ctrlWr addr data) s = .next t ∧
    (s.g.kind ≠ .none → (t.active = .G ↔ t.p.state &&& s.sdxPbMask = 0b1000#32)) ∧ (s.g.kind = .none → t.active = .P) ∧
    (∀ a, inWindow s.machine a = true → some (winRead t.window a) = shownByte s.machine (t.slot t.active) a) ∧
    (let crosses := s.g.kind ≠ .none ∧ ¬(s.p.state &&& s.sdxPbMask = 0b1000#32 ↔ t.p.state &&& s.sdxPbMask = 0b1000#32)
     let own := if t.g.state ≠ s.g.state ∧ t.active = .G then shownCommands .xlxe t.g else []
     (crosses → t.out.commands = [.disable 0x8000 0x9FFF, .disable 0xA000 0xBFFF] ++
       shownCommands .xlxe (if t.active = .G then s.g else t.p) ++ own) ∧
     (¬crosses → t.out.commands = (if t.p.state ≠ s.p.state ∧ t.active = .P then shownCommands .xlxe t.p else []) ++ own)) ∧
    ∀ u, u = s ∨ u = t → s.g.kind = .std8 → u.p.state &&& s.sdxPbMask = 0b1000#32 → ∀ k d, k < 8192 →
      ∃ w, exec (.winRd (BitVec.ofNat 16 (0xA000 + k)) d) u = .next w ∧ w.out.data = bufRead s.g k

/-- `CLAMP`: the write transition takes the default arm from an old state of 4 on and the case arm below, and nothing merges the two
(41_type_descriptors.md R110; the arms are open, the spec's decision D28). -/
def Obligations.ClampTakesTheDefaultArmFromFour : Prop := ∀ (s : State), s.Inv → s.p.kind = .clamp → ∀ (addr : Addr) (data : Byte),
  ∃ t, exec (.ctrlWr addr data) s = .next t ∧
    (4 ≤ s.p.state.toNat → t.p.state = (Config.clampDefault s.p.state addr data).getD s.p.state) ∧
    (s.p.state.toNat < 4 → t.p.state = (Config.clampCase s.p.state addr data).getD s.p.state)

/-- The window-switched designs: the control page does nothing, every write there is `Unhandled` and every read 0xFF; they have a hook whose trigger
ranges lie inside the mapped window; `SC_5200` belongs to the 5200 machine and maps inside 0x4000..0xBFFF (41_type_descriptors.md R111). -/
def Obligations.WindowSwitchedDesigns : Prop := ∀ (k : Kind), k = .bbsb ∨ k = .sc5200 →
  (∀ st addr v, (descr k).wr st addr v = none ∧ (descr k).rd st addr = none ∧ (descr k).status st addr = 0xFF#8) ∧
  (∃ h, (descr k).hook = some h ∧ ∀ m kb st, ∀ r ∈ h.ranges, ∀ a, r.has a = true → covers ((descr k).map st m kb) a) ∧
  (∀ m, acceptsMachine .sc5200 m = true ↔ m = .a5200) ∧
  (∀ st, ∀ g ∈ (descr .sc5200).map st .a5200 (typeEntry .sc5200).sizeKb, 0x4000 ≤ g.lo ∧ g.hi ≤ 0xBFFF) ∧
  ∀ s : State, s.Inv → s.p.kind = k → s.g.kind = .none → ∀ (addr : Addr) (data : Byte),
    exec (.ctrlWr addr data) s = .next { s with out := { handled := some .unhandled } } ∧
    exec (.ctrlRd addr data) s = .next { s with out := { data := some 0xFF#8 } }

/-- A cartridge of kind `Unknown` is inserted in the primary slot, no piggyback being present, with any positive size on either machine (45_slot_operations.md
R166, R168; that an insertion is accepted exactly under the preconditions is the spec's decision D22), and then no window shows it, no control-page
write is handled and no control-page read is driven (41_type_descriptors.md R102; the descriptor is the spec's decision D16). The insertion in the
piggyback slot, and beside a piggyback, is that of `InsertResult`. -/
def Obligations.UnknownKindShowsNothing : Prop := ∀ (s : State), s.Inv → s.g.kind = .none → ∀ (bytes : List Byte) (path : Text) (raw : Bool),
  0 < bytes.length → bytes.length % 1024 = 0 → ∃ t, exec (.insert .P (.named .unknown) bytes path raw) s = .next t ∧ t.p.buffer = some bytes ∧
    ∀ (addr : Addr) (data : Byte), exec (.ctrlWr addr data) t = .next { t with out := { handled := some .unhandled } } ∧
      exec (.ctrlRd addr data) t = .next { t with out := { data := some 0xFF#8 } } ∧
      exec (.winRd addr data) t = .next { t with out := { data := some 0xFF#8 } }
end

