-- ==== Sys2Proof/Laws/Encoding.lean ====
section
/-! SUPPORT. The fields of a bus word, and the address ranges as numbers (30_encoding.md R51 to R53). -/

namespace Sys2Proof

open Machine

/-- The value of a bus word (30_encoding.md R51). -/
theorem busWord_toNat (p w : Bool) (addr : Addr) (data : Byte) :
    (busWord p w addr data).toNat = p.toNat * 2 ^ 25 + w.toNat * 2 ^ 24 + addr.toNat * 2 ^ 8 + data.toNat := by
  have h1 := addr.isLt
  have h2 := data.isLt
  have h3 := Bool.toNat_le p
  have h4 := Bool.toNat_le w
  rw [busWord, BitVec.toNat_ofNat, Nat.mod_eq_of_lt]
  omega

theorem busWord_lt (p w : Bool) (addr : Addr) (data : Byte) : (busWord p w addr data).toNat < 2 ^ 26 := by
  have h1 := addr.isLt
  have h2 := data.isLt
  have h3 := Bool.toNat_le p
  have h4 := Bool.toNat_le w
  rw [busWord_toNat]
  omega

theorem busWord_peek (p w : Bool) (addr : Addr) (data : Byte) : (busWord p w addr data).getLsbD 25 = p := by
  have h1 := addr.isLt
  have h2 := data.isLt
  have h4 := Bool.toNat_le w
  rw [← BitVec.testBit_toNat, busWord_toNat, Nat.testBit_eq_decide_div_mod_eq]
  cases p <;> simp only [Bool.toNat_true, Bool.toNat_false, decide_eq_true_eq, decide_eq_false_iff_not] <;> omega

theorem busWord_write (p w : Bool) (addr : Addr) (data : Byte) : (busWord p w addr data).getLsbD 24 = w := by
  have h1 := addr.isLt
  have h2 := data.isLt
  rw [← BitVec.testBit_toNat, busWord_toNat, Nat.testBit_eq_decide_div_mod_eq]
  cases w <;> simp only [Bool.toNat_true, Bool.toNat_false, decide_eq_true_eq, decide_eq_false_iff_not] <;> omega

theorem busWord_addr (p w : Bool) (addr : Addr) (data : Byte) : (busWord p w addr data).extractLsb' 8 16 = addr := by
  have h1 := addr.isLt
  have h2 := data.isLt
  apply BitVec.eq_of_toNat_eq
  rw [BitVec.extractLsb'_toNat, busWord_toNat, Nat.shiftRight_eq_div_pow]
  omega

theorem busWord_data (p w : Bool) (addr : Addr) (data : Byte) : (busWord p w addr data).extractLsb' 0 8 = data := by
  have h1 := addr.isLt
  have h2 := data.isLt
  apply BitVec.eq_of_toNat_eq
  rw [BitVec.extractLsb'_toNat, busWord_toNat, Nat.shiftRight_eq_div_pow]
  omega

/-- Decoding a packed word is selecting by its fields. -/
theorem decodeBus_busWord (m : MachineKind) (p w : Bool) (addr : Addr) (data : Byte) :
    decodeBus m (busWord p w addr data) = .ok (decodeFields m p w addr data) := by
  rw [decodeBus, if_neg (by have := busWord_lt p w addr data; omega), busWord_peek, busWord_write, busWord_addr, busWord_data]

/-- Every word below 2^26 is the packing of its fields. -/
theorem busWord_fields {word : BitVec 32} (h : word.toNat < 2 ^ 26) :
    busWord (word.getLsbD 25) (word.getLsbD 24) (word.extractLsb' 8 16) (word.extractLsb' 0 8) = word := by
  apply BitVec.eq_of_toNat_eq
  rw [busWord_toNat, BitVec.extractLsb'_toNat, BitVec.extractLsb'_toNat, ← BitVec.testBit_toNat, ← BitVec.testBit_toNat,
    Nat.toNat_testBit, Nat.toNat_testBit, Nat.shiftRight_eq_div_pow, Nat.shiftRight_eq_div_pow]
  omega

/-! ### Ranges -/

theorem onControlPage_iff (addr : Addr) : onControlPage addr = true ↔ 0xD500 ≤ addr.toNat ∧ addr.toNat ≤ 0xD5FF := by
  simp only [onControlPage, AddrRange.has, Bool.and_eq_true, decide_eq_true_eq]

theorem inWindow_xlxe_iff (a : Nat) : inWindow .xlxe a = true ↔ 0x8000 ≤ a ∧ a ≤ 0xBFFF := by
  simp only [inWindow, windows, AddrRange.has, List.any_cons, List.any_nil, Bool.or_false, Bool.or_eq_true, Bool.and_eq_true, decide_eq_true_eq]
  omega

theorem inWindow_a5200_iff (a : Nat) : inWindow .a5200 a = true ↔ 0x4000 ≤ a ∧ a ≤ 0xBFFF := by
  simp only [inWindow, windows, AddrRange.has, List.any_cons, List.any_nil, Bool.or_false, Bool.and_eq_true, decide_eq_true_eq]

theorem busRegion_of_onControlPage {m : MachineKind} {addr : Addr} (h : onControlPage addr = true) : busRegion m addr = .controlPage := if_pos h

/-- The addresses of a region, as numbers (30_encoding.md R52, R53, R64). -/
def BusRegion.Holds (m : MachineKind) (a : Nat) : BusRegion → Prop
  | .controlPage => 0xD500 ≤ a ∧ a ≤ 0xD5FF
  | .window => 0x8000 ≤ a ∧ a ≤ 0xBFFF
  | .window5200 => m = .a5200 ∧ 0x4000 ≤ a ∧ a ≤ 0x7FFF
  | .below => a ≤ 0x3FFF
  | .between => m = .xlxe ∧ 0x4000 ≤ a ∧ a ≤ 0x7FFF
  | .above => 0xC000 ≤ a ∧ ¬ (0xD500 ≤ a ∧ a ≤ 0xD5FF)

/-- An address lies in the region the decoder takes it for. -/
theorem busRegion_holds (m : MachineKind) (addr : Addr) : (busRegion m addr).Holds m addr.toNat := by
  have hp := onControlPage_iff addr
  have hx := inWindow_xlxe_iff addr.toNat
  have h5 := inWindow_a5200_iff addr.toNat
  have hb : belowBlock.has addr.toNat = true ↔ addr.toNat ≤ 0x3FFF := by simp [AddrRange.has]
  unfold busRegion
  cases m <;> simp only [hp, hx, h5, hb] <;> split_ifs <;> simp only [BusRegion.Holds, true_and] <;> omega

/-! ### Rows -/

/-- Masking with a run of `k` ones from bit `j` keeps those bits. -/
theorem and_run (n k j : Nat) : n &&& (2 ^ k - 1) * 2 ^ j = n / 2 ^ j % 2 ^ k * 2 ^ j := by
  apply Nat.eq_of_testBit_eq
  intro i
  rw [Nat.testBit_and, Nat.testBit_mul_two_pow, Nat.testBit_mul_two_pow, Nat.testBit_two_pow_sub_one, Nat.testBit_mod_two_pow,
    Nat.testBit_div_two_pow]
  by_cases h : j ≤ i
  · simp only [h, decide_true, Bool.true_and, Nat.sub_add_cancel h]
    rw [Bool.and_comm]
  · simp [h]

/-- The rows as match and mask (30_encoding.md R52, R53, R64). -/
theorem BusRow.page_eq (p w : Bool) : BusRow.page p w = ⟨none, formBits p w + 0x00D50000, 0x03FF0000⟩ := rfl

theorem BusRow.window_eq (p w : Bool) : BusRow.window p w = ⟨none, formBits p w + 0x00800000, 0x03C00000⟩ := rfl

theorem BusRow.window5200_eq (p w : Bool) : BusRow.window5200 p w = ⟨some .a5200, formBits p w + 0x00400000, 0x03C00000⟩ := rfl

theorem BusRow.below_eq : BusRow.other none belowBlock = ⟨none, 0, 0x00C00000⟩ := rfl

theorem BusRow.between_eq : BusRow.other (some .xlxe) only5200Block = ⟨some .xlxe, 0x00400000, 0x00C00000⟩ := rfl

theorem BusRow.above_eq : BusRow.other none aboveBlock = ⟨none, 0x00C00000, 0x00C00000⟩ := rfl

theorem and_page (n : Nat) : n &&& 0x03FF0000 = n / 2 ^ 16 % 2 ^ 10 * 2 ^ 16 := and_run n 10 16

theorem and_window (n : Nat) : n &&& 0x03C00000 = n / 2 ^ 22 % 2 ^ 4 * 2 ^ 22 := and_run n 4 22

theorem and_quarter (n : Nat) : n &&& 0x00C00000 = n / 2 ^ 22 % 2 ^ 2 * 2 ^ 22 := and_run n 2 22

end Sys2Proof
end

