-- ==== Sys2Proof/Laws/State.lean ====
section
/-! SUPPORT. One lemma per field per update of the state, and what the updates do to one another. -/

namespace Sys2Proof.Machine

variable (s : State) (sl : SlotName) (x : Slot) (c : MapperCmd) (b : Byte) (h : Handled)

@[simp] theorem State.setSlot_machine : (s.setSlot sl x).machine = s.machine := by cases sl <;> rfl
@[simp] theorem State.setSlot_autoreboot : (s.setSlot sl x).autoreboot = s.autoreboot := by cases sl <;> rfl
@[simp] theorem State.setSlot_loader : (s.setSlot sl x).loader = s.loader := by cases sl <;> rfl
@[simp] theorem State.setSlot_sdxPbMask : (s.setSlot sl x).sdxPbMask = s.sdxPbMask := by cases sl <;> rfl
@[simp] theorem State.setSlot_active : (s.setSlot sl x).active = s.active := by cases sl <;> rfl
@[simp] theorem State.setSlot_window : (s.setSlot sl x).window = s.window := by cases sl <;> rfl
@[simp] theorem State.setSlot_input : (s.setSlot sl x).input = s.input := by cases sl <;> rfl
@[simp] theorem State.setSlot_out : (s.setSlot sl x).out = s.out := by cases sl <;> rfl
@[simp] theorem State.setSlot_ioCount : (s.setSlot sl x).ioCount = s.ioCount := by cases sl <;> rfl
@[simp] theorem State.setSlot_P_p : (s.setSlot .P x).p = x := rfl
@[simp] theorem State.setSlot_P_g : (s.setSlot .P x).g = s.g := rfl
@[simp] theorem State.setSlot_G_p : (s.setSlot .G x).p = s.p := rfl
@[simp] theorem State.setSlot_G_g : (s.setSlot .G x).g = x := rfl
@[simp] theorem State.slot_P : s.slot .P = s.p := rfl
@[simp] theorem State.slot_G : s.slot .G = s.g := rfl
@[simp] theorem State.setSlot_slot : (s.setSlot sl x).slot sl = x := by cases sl <;> rfl

theorem State.setSlot_slot_ne {tl : SlotName} (hne : tl ≠ sl) : (s.setSlot sl x).slot tl = s.slot tl := by
  cases sl <;> cases tl <;> first | rfl | exact absurd rfl hne

@[simp] theorem State.setSlot_self : s.setSlot sl (s.slot sl) = s := by cases sl <;> rfl

@[simp] theorem State.clearOut_machine : s.clearOut.machine = s.machine := rfl
@[simp] theorem State.clearOut_autoreboot : s.clearOut.autoreboot = s.autoreboot := rfl
@[simp] theorem State.clearOut_loader : s.clearOut.loader = s.loader := rfl
@[simp] theorem State.clearOut_sdxPbMask : s.clearOut.sdxPbMask = s.sdxPbMask := rfl
@[simp] theorem State.clearOut_p : s.clearOut.p = s.p := rfl
@[simp] theorem State.clearOut_g : s.clearOut.g = s.g := rfl
@[simp] theorem State.clearOut_slot : s.clearOut.slot sl = s.slot sl := by cases sl <;> rfl
@[simp] theorem State.clearOut_active : s.clearOut.active = s.active := rfl
@[simp] theorem State.clearOut_window : s.clearOut.window = s.window := rfl
@[simp] theorem State.clearOut_input : s.clearOut.input = s.input := rfl
@[simp] theorem State.clearOut_out : s.clearOut.out = {} := rfl
@[simp] theorem State.clearOut_ioCount : s.clearOut.ioCount = s.ioCount := rfl

@[simp] theorem State.giveData_machine : (s.giveData b).machine = s.machine := rfl
@[simp] theorem State.giveData_autoreboot : (s.giveData b).autoreboot = s.autoreboot := rfl
@[simp] theorem State.giveData_loader : (s.giveData b).loader = s.loader := rfl
@[simp] theorem State.giveData_sdxPbMask : (s.giveData b).sdxPbMask = s.sdxPbMask := rfl
@[simp] theorem State.giveData_p : (s.giveData b).p = s.p := rfl
@[simp] theorem State.giveData_g : (s.giveData b).g = s.g := rfl
@[simp] theorem State.giveData_slot : (s.giveData b).slot sl = s.slot sl := by cases sl <;> rfl
@[simp] theorem State.giveData_active : (s.giveData b).active = s.active := rfl
@[simp] theorem State.giveData_window : (s.giveData b).window = s.window := rfl
@[simp] theorem State.giveData_input : (s.giveData b).input = s.input := rfl
@[simp] theorem State.giveData_out : (s.giveData b).out = { s.out with data := some b } := rfl
@[simp] theorem State.giveData_ioCount : (s.giveData b).ioCount = s.ioCount := rfl

@[simp] theorem State.giveHandled_machine : (s.giveHandled h).machine = s.machine := rfl
@[simp] theorem State.giveHandled_autoreboot : (s.giveHandled h).autoreboot = s.autoreboot := rfl
@[simp] theorem State.giveHandled_loader : (s.giveHandled h).loader = s.loader := rfl
@[simp] theorem State.giveHandled_sdxPbMask : (s.giveHandled h).sdxPbMask = s.sdxPbMask := rfl
@[simp] theorem State.giveHandled_p : (s.giveHandled h).p = s.p := rfl
@[simp] theorem State.giveHandled_g : (s.giveHandled h).g = s.g := rfl
@[simp] theorem State.giveHandled_slot : (s.giveHandled h).slot sl = s.slot sl := by cases sl <;> rfl
@[simp] theorem State.giveHandled_active : (s.giveHandled h).active = s.active := rfl
@[simp] theorem State.giveHandled_window : (s.giveHandled h).window = s.window := rfl
@[simp] theorem State.giveHandled_input : (s.giveHandled h).input = s.input := rfl
@[simp] theorem State.giveHandled_out : (s.giveHandled h).out = { s.out with handled := some h } := rfl
@[simp] theorem State.giveHandled_ioCount : (s.giveHandled h).ioCount = s.ioCount := rfl

@[simp] theorem State.writeFile_machine (pa k bu r) : (s.writeFile pa k bu r).machine = s.machine := rfl
@[simp] theorem State.writeFile_autoreboot (pa k bu r) : (s.writeFile pa k bu r).autoreboot = s.autoreboot := rfl
@[simp] theorem State.writeFile_loader (pa k bu r) : (s.writeFile pa k bu r).loader = s.loader := rfl
@[simp] theorem State.writeFile_sdxPbMask (pa k bu r) : (s.writeFile pa k bu r).sdxPbMask = s.sdxPbMask := rfl
@[simp] theorem State.writeFile_p (pa k bu r) : (s.writeFile pa k bu r).p = s.p := rfl
@[simp] theorem State.writeFile_g (pa k bu r) : (s.writeFile pa k bu r).g = s.g := rfl
@[simp] theorem State.writeFile_slot (pa k bu r) : (s.writeFile pa k bu r).slot sl = s.slot sl := by cases sl <;> rfl
@[simp] theorem State.writeFile_active (pa k bu r) : (s.writeFile pa k bu r).active = s.active := rfl
@[simp] theorem State.writeFile_window (pa k bu r) : (s.writeFile pa k bu r).window = s.window := rfl
@[simp] theorem State.writeFile_input (pa k bu r) : (s.writeFile pa k bu r).input = s.input := rfl
@[simp] theorem State.writeFile_ioCount (pa k bu r) : (s.writeFile pa k bu r).ioCount = s.ioCount + 1 := rfl

/-- Issuing commands changes the window image and the command list, nothing else. -/
theorem State.issueAll_eq (cs : List MapperCmd) : ∀ s : State, s.issueAll cs =
    { s with window := cs.foldl Window.apply s.window, out := { s.out with commands := s.out.commands ++ cs } } := by
  induction cs with
  | nil => intro s; simp [State.issueAll]
  | cons c cs ih =>
    intro s
    have := ih (s.issue c)
    simp only [State.issueAll, List.foldl_cons] at this ⊢
    rw [this]
    simp [State.issue]

variable (cs : List MapperCmd)

@[simp] theorem State.issueAll_machine : (s.issueAll cs).machine = s.machine := by rw [State.issueAll_eq]
@[simp] theorem State.issueAll_autoreboot : (s.issueAll cs).autoreboot = s.autoreboot := by rw [State.issueAll_eq]
@[simp] theorem State.issueAll_loader : (s.issueAll cs).loader = s.loader := by rw [State.issueAll_eq]
@[simp] theorem State.issueAll_sdxPbMask : (s.issueAll cs).sdxPbMask = s.sdxPbMask := by rw [State.issueAll_eq]
@[simp] theorem State.issueAll_p : (s.issueAll cs).p = s.p := by rw [State.issueAll_eq]
@[simp] theorem State.issueAll_g : (s.issueAll cs).g = s.g := by rw [State.issueAll_eq]
@[simp] theorem State.issueAll_slot : (s.issueAll cs).slot sl = s.slot sl := by rw [State.issueAll_eq]; cases sl <;> rfl
@[simp] theorem State.issueAll_active : (s.issueAll cs).active = s.active := by rw [State.issueAll_eq]
@[simp] theorem State.issueAll_window : (s.issueAll cs).window = cs.foldl Window.apply s.window := by rw [State.issueAll_eq]
@[simp] theorem State.issueAll_input : (s.issueAll cs).input = s.input := by rw [State.issueAll_eq]
@[simp] theorem State.issueAll_ioCount : (s.issueAll cs).ioCount = s.ioCount := by rw [State.issueAll_eq]
@[simp] theorem State.issueAll_out : (s.issueAll cs).out = { s.out with commands := s.out.commands ++ cs } := by
  rw [State.issueAll_eq]

end Sys2Proof.Machine
end

