-- ==== Sys2Proof/Laws/Memory.lean ====
section
/-! SUPPORT. The laws of the memory and of the address sets: read after write, and that every operation keeps the canonical form. -/

namespace Sys2Proof.Machine

/-! ### Address sets -/

theorem mem_setInsert {s : List Nat} {lo hi a : Nat} : a ∈ setInsert s lo hi ↔ a ∈ s ∨ (lo ≤ a ∧ a ≤ hi) := by
  simp only [setInsert, List.mem_append, List.mem_filter, decide_eq_true_eq, List.mem_range'_1, Bool.and_eq_true]
  constructor
  · rintro ((⟨h, _⟩ | ⟨h1, h2⟩) | ⟨h, _⟩)
    · exact .inl h
    · exact .inr ⟨h1, by omega⟩
    · exact .inl h
  · rintro (h | ⟨h1, h2⟩)
    · by_cases h1 : a < lo
      · exact .inl (.inl ⟨h, h1⟩)
      · by_cases h2 : hi < a
        · exact .inr ⟨h, by omega, h2⟩
        · exact .inl (.inr ⟨by omega, by omega⟩)
    · exact .inl (.inr ⟨h1, by omega⟩)

theorem mem_setRemove {s : List Nat} {lo hi a : Nat} : a ∈ setRemove s lo hi ↔ a ∈ s ∧ ¬(lo ≤ a ∧ a ≤ hi) := by
  simp only [setRemove, List.mem_filter, Bool.or_eq_true, decide_eq_true_eq]
  constructor
  · rintro ⟨h, h'⟩
    exact ⟨h, by omega⟩
  · rintro ⟨h, h'⟩
    exact ⟨h, by omega⟩

theorem setRemove_wf {s : List Nat} {lo hi : Nat} (h : AddrSet.wf s) : AddrSet.wf (setRemove s lo hi) := h.filter _

theorem setInsert_wf {s : List Nat} {lo hi : Nat} (h : AddrSet.wf s) : AddrSet.wf (setInsert s lo hi) := by
  simp only [AddrSet.wf, setInsert, List.pairwise_append, List.mem_append, List.mem_filter, decide_eq_true_eq,
    List.mem_range'_1, Bool.and_eq_true]
  refine ⟨⟨h.filter _, List.pairwise_lt_range', ?_⟩, h.filter _, ?_⟩
  · rintro a ⟨_, ha⟩ b ⟨hb, _⟩
    omega
  · rintro a (⟨_, ha⟩ | ⟨ha, hb⟩) c ⟨_, hc⟩ <;> omega

/-! ### Bytes -/

theorem memRead_of_forall_ne {m : Memory} {a : Nat} (h : ∀ c ∈ m, c.1 ≠ a) : memRead m a = unlistedByte := by
  induction m with
  | nil => rfl
  | cons c m ih =>
    simp only [memRead, if_neg (h c List.mem_cons_self)]
    exact ih fun d hd => h d (List.mem_cons_of_mem _ hd)

theorem memRead_append {m n : Memory} {a : Nat} :
    memRead (m ++ n) a = if ∃ c ∈ m, c.1 = a then memRead m a else memRead n a := by
  induction m with
  | nil => simp
  | cons c m ih =>
    simp only [List.cons_append, memRead, List.mem_cons, exists_eq_or_imp]
    by_cases hc : c.1 = a
    · simp [hc]
    · simp only [hc, false_or, ih, if_false]

theorem memRead_filter {m : Memory} {a : Nat} {p : Nat → Bool} :
    memRead (m.filter fun c => p c.1) a = if p a then memRead m a else unlistedByte := by
  induction m with
  | nil => simp [memRead]
  | cons c m ih =>
    by_cases hp : p c.1 = true
    · simp only [List.filter_cons, hp, if_true, memRead, ih]
      by_cases hc : c.1 = a
      · subst hc; simp [hp]
      · simp [hc]
    · rw [List.filter_cons, if_neg hp, ih]
      by_cases hc : c.1 = a
      · subst hc; simp [hp]
      · simp [memRead, hc]

theorem cellsFrom_range {bs : List Byte} : ∀ {lo : Nat}, ∀ c ∈ cellsFrom lo bs, lo ≤ c.1 ∧ c.1 < lo + bs.length := by
  induction bs with
  | nil => intro lo c hc; cases hc
  | cons b bs ih =>
    intro lo c hc
    simp only [cellsFrom] at hc
    split at hc
    · have := ih c hc
      simp only [List.length_cons]
      omega
    · rcases List.mem_cons.1 hc with rfl | hc
      · simp
      · have := ih c hc
        simp only [List.length_cons]
        omega

theorem memRead_cellsFrom {bs : List Byte} : ∀ {lo a : Nat}, lo ≤ a → memRead (cellsFrom lo bs) a = bs.getD (a - lo) unlistedByte := by
  induction bs with
  | nil => intro lo a _; rfl
  | cons b bs ih =>
    intro lo a ha
    by_cases hal : a = lo
    · subst hal
      simp only [cellsFrom, Nat.sub_self, List.getD_cons_zero]
      split
      · rename_i hb
        rw [hb]
        exact memRead_of_forall_ne fun c hc => by have := cellsFrom_range c hc; omega
      · simp [memRead]
    · have hsub : a - lo = (a - (lo + 1)) + 1 := by omega
      rw [hsub, List.getD_cons_succ, ← ih (by omega)]
      simp only [cellsFrom]
      split
      · rfl
      · simp only [memRead]
        rw [if_neg (by omega)]

theorem cellsFrom_wf {bs : List Byte} : ∀ {lo : Nat}, (cellsFrom lo bs).Pairwise (fun c d => c.1 < d.1) ∧
    ∀ c ∈ cellsFrom lo bs, c.2 ≠ unlistedByte := by
  induction bs with
  | nil => intro lo; exact ⟨List.Pairwise.nil, fun c hc => by cases hc⟩
  | cons b bs ih =>
    intro lo
    simp only [cellsFrom]
    split
    · exact ih
    · rename_i hb
      refine ⟨List.Pairwise.cons (fun d hd => ?_) ih.1, fun c hc => ?_⟩
      · have := cellsFrom_range d hd
        simp only
        omega
      · rcases List.mem_cons.1 hc with rfl | hc
        · exact hb
        · exact ih.2 c hc

/-- Read after write: inside the run its byte, outside it the byte before. -/
theorem memRead_memWrite (m : Memory) (lo : Nat) (bs : List Byte) (a : Nat) :
    memRead (memWrite m lo bs) a =
      if lo ≤ a ∧ a < lo + bs.length then bs.getD (a - lo) unlistedByte else memRead m a := by
  have hl := memRead_filter (m := m) (a := a) (p := fun k => decide (k < lo))
  have hr := memRead_filter (m := m) (a := a) (p := fun k => decide (lo + bs.length ≤ k))
  simp only [decide_eq_true_eq] at hl hr
  rw [memWrite, List.append_assoc, memRead_append, memRead_append, hl, hr]
  by_cases h1 : a < lo
  · rw [if_neg (by omega : ¬(lo ≤ a ∧ a < lo + bs.length)), if_pos h1]
    split
    · rfl
    · rename_i hn
      have hc : ¬∃ c ∈ cellsFrom lo bs, c.1 = a := by
        rintro ⟨c, hc, rfl⟩
        have := cellsFrom_range c hc
        omega
      rw [if_neg hc, if_neg (by omega)]
      refine (memRead_of_forall_ne fun c hc heq => hn ⟨c, ?_, heq⟩).symm
      exact List.mem_filter.2 ⟨hc, by simp [heq, h1]⟩
  · rw [if_neg h1]
    have hn : ¬∃ c ∈ m.filter (fun c => decide (c.1 < lo)), c.1 = a := by
      rintro ⟨c, hc, rfl⟩
      have := (List.mem_filter.1 hc).2
      simp only [decide_eq_true_eq] at this
      omega
    rw [if_neg hn]
    by_cases h2 : a < lo + bs.length
    · rw [if_pos (⟨by omega, h2⟩ : lo ≤ a ∧ a < lo + bs.length), if_neg (by omega : ¬lo + bs.length ≤ a), memRead_cellsFrom (by omega)]
      split
      · rfl
      · rename_i hc
        rw [← memRead_cellsFrom (by omega : lo ≤ a)]
        exact (memRead_of_forall_ne fun c hc' heq => hc ⟨c, hc', heq⟩).symm
    · rw [if_neg (fun h => h2 h.2 : ¬(lo ≤ a ∧ a < lo + bs.length)), if_pos (by omega : lo + bs.length ≤ a), if_neg]
      rintro ⟨c, hc, rfl⟩
      have := cellsFrom_range c hc
      omega

theorem memWrite_wf {m : Memory} (h : m.wf) (lo : Nat) (bs : List Byte) : (memWrite m lo bs).wf := by
  refine ⟨?_, ?_⟩
  · simp only [memWrite, List.pairwise_append, List.mem_append, List.mem_filter, decide_eq_true_eq]
    refine ⟨⟨h.1.filter _, cellsFrom_wf.1, ?_⟩, h.1.filter _, ?_⟩
    · rintro c ⟨_, hc⟩ d hd
      have := cellsFrom_range d hd
      omega
    · rintro c (⟨_, hc⟩ | hc) d ⟨_, hd⟩
      · omega
      · have := cellsFrom_range c hc
        omega
  · intro c hc
    simp only [memWrite, List.mem_append, List.mem_filter] at hc
    rcases hc with (⟨hc, _⟩ | hc) | ⟨hc, _⟩
    · exact h.2 c hc
    · exact cellsFrom_wf.2 c hc
    · exact h.2 c hc

theorem mem_memWrite {m : Memory} {lo : Nat} {bs : List Byte} {c : Host.Cell} (hc : c ∈ memWrite m lo bs) :
    c ∈ m ∨ (lo ≤ c.1 ∧ c.1 < lo + bs.length) := by
  simp only [memWrite, List.mem_append, List.mem_filter] at hc
  rcases hc with (⟨hc, _⟩ | hc) | ⟨hc, _⟩
  · exact .inl hc
  · exact .inr (cellsFrom_range c hc)
  · exact .inl hc

/-! ### The window image -/

/-- Every mapper command keeps the canonical form of the window image. -/
theorem Window.apply_wf {w : Window} (h : w.wf) (c : MapperCmd) : (w.apply c).wf := by
  cases c with
  | enable lo hi => exact ⟨setInsert_wf h.1, h.2.1, h.2.2⟩
  | disable lo hi => exact ⟨setRemove_wf h.1, setRemove_wf h.2.1, h.2.2⟩
  | copy lo hi bs => exact ⟨h.1, setRemove_wf h.2.1, memWrite_wf h.2.2 _ _⟩
  | markRam lo hi => exact ⟨h.1, setInsert_wf h.2.1, h.2.2⟩

theorem Window.foldl_apply_wf (cs : List MapperCmd) : ∀ {w : Window}, w.wf → (cs.foldl Window.apply w).wf := by
  induction cs with
  | nil => intro w h; exact h
  | cons c cs ih => intro w h; exact ih (Window.apply_wf h c)

theorem Window.empty_wf : Window.empty.wf := by decide

/-! ### Image files -/

/-- The container header: magic, type code, checksum, the reserved field (46_image_container.md R188, R193). -/
theorem imageHeader_eq (ops : LoaderOps) (kind : Kind) (body : List Byte) :
    imageHeader ops kind body =
      [0x43#8, 0x41#8, 0x52#8, 0x54#8] ++ be32 (codeOf ops kind) ++ be32 (ops.checksum body) ++ [0#8, 0#8, 0#8, 0#8] := rfl

theorem imageHeader_length (ops : LoaderOps) (kind : Kind) (body : List Byte) : (imageHeader ops kind body).length = 16 := rfl

end Sys2Proof.Machine
end

