-- ==== Sys2Proof/Laws/Remap.lean ====
section
/-! SUPPORT. What the mapper commands of a remap do to the window image, and that a remap of a good slot record is never refused. -/

namespace Sys2Proof.Machine

/-! ### One command -/

/-- `W.en` after a command. -/
theorem Window.isOn_apply (w : Window) (c : MapperCmd) (a : Nat) : (w.apply c).isOn a =
    match c with
    | .enable lo hi => w.isOn a || decide (lo ≤ a ∧ a ≤ hi)
    | .disable lo hi => w.isOn a && !decide (lo ≤ a ∧ a ≤ hi)
    | .copy _ _ _ => w.isOn a
    | .markRam _ _ => w.isOn a := by
  rw [Bool.eq_iff_iff]
  cases c <;> simp only [Window.apply, Window.isOn, mem_setInsert, mem_setRemove, decide_eq_true_eq,
    Bool.and_eq_true, Bool.or_eq_true, Bool.not_eq_true', decide_eq_false_iff_not] <;> exact decide_eq_true_iff

/-- `W.ram` after a command. -/
theorem Window.isRam_apply (w : Window) (c : MapperCmd) (a : Nat) : (w.apply c).isRam a =
    match c with
    | .enable _ _ => w.isRam a
    | .disable lo hi => w.isRam a && !decide (lo ≤ a ∧ a ≤ hi)
    | .copy lo hi _ => w.isRam a && !decide (lo ≤ a ∧ a ≤ hi)
    | .markRam lo hi => w.isRam a || decide (lo ≤ a ∧ a ≤ hi) := by
  rw [Bool.eq_iff_iff]
  cases c <;> simp only [Window.apply, Window.isRam, mem_setInsert, mem_setRemove, decide_eq_true_eq,
    Bool.and_eq_true, Bool.or_eq_true, Bool.not_eq_true', decide_eq_false_iff_not]
  exact decide_eq_true_iff

/-- `W.byte` after a command. -/
theorem Window.memRead_apply (w : Window) (c : MapperCmd) (a : Nat) : memRead (w.apply c).bytes a =
    match c with
    | .copy lo _ bs => if lo ≤ a ∧ a < lo + bs.length then bs.getD (a - lo) unlistedByte else memRead w.bytes a
    | .enable _ _ => memRead w.bytes a
    | .disable _ _ => memRead w.bytes a
    | .markRam _ _ => memRead w.bytes a := by
  cases c <;> simp only [Window.apply, memRead_memWrite]

/-! ### The bytes of a segment -/

theorem Segment.has_iff {g : Segment} {a : Nat} : g.has a = true ↔ g.lo ≤ a ∧ a ≤ g.hi := by
  simp [Segment.has]

theorem bufSlice_eq {x : Slot} {off n : Nat} {bs : List Byte} (h : bufSlice x off n = some bs) :
    bs.length = n ∧ ∀ k, k < n → some (bs.getD k unlistedByte) = bufRead x (off + k) := by
  simp only [bufSlice] at h
  split at h
  · rename_i hl
    cases h
    refine ⟨hl, fun k hk => ?_⟩
    have hk' : k < (((x.buffer.getD []).drop off).take n).length := by omega
    rw [List.getD_eq_getElem _ _ hk', bufRead, ← List.getElem?_eq_getElem hk', List.getElem?_take_of_lt hk, List.getElem?_drop]
  · cases h

theorem bufGather_eq {x : Slot} {offs : List Nat} {bs : List Byte} (h : bufGather x offs = some bs) :
    bs.length = offs.length ∧ ∀ k (hk : k < offs.length), some (bs.getD k unlistedByte) = bufRead x offs[k] := by
  simp only [bufGather] at h
  split at h
  · rename_i hall
    cases h
    refine ⟨by simp, fun k hk => ?_⟩
    simp only [List.all_eq_true, decide_eq_true_eq] at hall
    have hb := hall offs[k] (List.getElem_mem hk)
    rw [List.getD_eq_getElem _ _ (by simpa using hk), List.getElem_map, bufRead, List.getD_eq_getElem _ _ hb,
      List.getElem?_eq_getElem hb]
  · cases h

/-- The bytes of a segment are as many as its addresses, and each is the byte the segment assigns. -/
theorem segBytes_spec {x : Slot} {g : Segment} {bs : List Byte} (h : segBytes x g = some bs) (hc : g.content ≠ .disabled) :
    bs.length = g.size ∧ ∀ a, g.has a = true → some (bs.getD (a - g.lo) unlistedByte) = g.byteAt x a := by
  unfold segBytes at h
  unfold Segment.byteAt
  cases hcon : g.content with
  | disabled => exact absurd hcon hc
  | fill =>
    rw [hcon] at h
    cases h
    refine ⟨List.length_replicate, fun a ha => ?_⟩
    rw [Segment.has_iff] at ha
    have : a - g.lo < (List.replicate g.size Config.fill).length := by simp [Segment.size]; omega
    rw [List.getD_eq_getElem _ _ this, List.getElem_replicate]
  | romAt off =>
    rw [hcon] at h
    obtain ⟨hl, hb⟩ := bufSlice_eq h
    refine ⟨hl, fun a ha => ?_⟩
    rw [Segment.has_iff] at ha
    exact hb (a - g.lo) (by simp [Segment.size]; omega)
  | ram =>
    rw [hcon] at h
    simp only at h ⊢
    cases hr : (descr x.kind).ram with
    | none => rw [hr] at h; cases h
    | some r =>
      rw [hr] at h
      simp only at h
      obtain ⟨hl, hb⟩ := bufGather_eq h
      simp only [List.length_map, List.length_range'] at hl hb
      refine ⟨hl, fun a ha => ?_⟩
      rw [Segment.has_iff] at ha
      have := hb (a - g.lo) (by simp [Segment.size]; omega)
      rw [this]
      simp only [List.getElem_map, List.getElem_range', Option.bind_some]
      congr 2
      omega

/-! ### One segment -/

/-- The commands of one segment are those 43_remap.md R138 and R139 write out. -/
theorem segCommands_written {x : Slot} {g : Segment} {cs : List MapperCmd} (h : segCommands x g = some cs) : x.SegmentCommands g cs := by
  unfold segCommands at h
  unfold Slot.SegmentCommands
  cases hb : segBytes x g with
  | none => cases hcon : g.content <;> simp only [hcon, hb] at h ⊢ <;> cases h; rfl
  | some bs =>
    have hspec := segBytes_spec hb
    have hbyte : ∀ f : Nat → Option Byte, g.content ≠ .disabled → (∀ k, g.byteAt x (g.lo + k) = f k) →
        bs.length = g.hi + 1 - g.lo ∧ ∀ k, k < bs.length → bs[k]? = f k := fun f hc hf => by
      obtain ⟨hl, hba⟩ := hspec hc
      rw [Segment.size] at hl
      refine ⟨hl, fun k hk => ?_⟩
      have hk' := hba (g.lo + k) (Segment.has_iff.2 (by omega))
      rw [Nat.add_sub_cancel_left, hf, List.getD_eq_getElem _ _ hk] at hk'
      rw [← hk', List.getElem?_eq_getElem hk]
    cases hcon : g.content with
    | disabled =>
      simp only [hcon, hb] at h ⊢
      cases h
      rfl
    | fill =>
      simp only [segBytes, hcon] at hb
      simp only [segBytes, hcon] at h ⊢
      cases h
      rfl
    | romAt off =>
      simp only [hcon, hb] at h ⊢
      cases h
      obtain ⟨hl, hk⟩ := hbyte (fun k => bufRead x (off + k)) (by simp [hcon])
        (fun k => by simp only [Segment.byteAt, hcon, Nat.add_sub_cancel_left])
      exact ⟨bs, hl, hk, rfl⟩
    | ram =>
      cases hr : (descr x.kind).ram with
      | none => simp [segBytes, hcon, hr] at hb
      | some r =>
        simp only [hcon, hb] at h ⊢
        cases h
        obtain ⟨hl, hk⟩ := hbyte (fun k => bufRead x (r.scatter x.state (g.lo + k))) (by simp [hcon])
          (fun k => by simp only [Segment.byteAt, hcon, hr, Option.bind_some])
        exact ⟨r, bs, rfl, hl, hk, rfl⟩

/-- The commands of one segment act inside it and set exactly what the segment shows. -/
theorem segCommands_effect {x : Slot} {g : Segment} {cs : List MapperCmd} (h : segCommands x g = some cs)
    (hle : g.lo ≤ g.hi) (w : Window) (a : Nat) :
    (g.has a = false → (cs.foldl Window.apply w).isOn a = w.isOn a ∧ (cs.foldl Window.apply w).isRam a = w.isRam a ∧
      memRead (cs.foldl Window.apply w).bytes a = memRead w.bytes a) ∧
    (g.has a = true → (cs.foldl Window.apply w).isOn a = shownOn (some g) ∧
      (cs.foldl Window.apply w).isRam a = shownRam (some g) ∧
      some (winRead (cs.foldl Window.apply w) a) = g.byteAt x a) := by
  have hcopy : ∀ bs, segBytes x g = some bs → g.content ≠ .disabled →
      (g.has a = true → g.lo ≤ a ∧ a < g.lo + bs.length) ∧ (g.has a = false → ¬(g.lo ≤ a ∧ a < g.lo + bs.length)) := by
    intro bs hbs hc
    have hl := (segBytes_spec hbs hc).1
    constructor
    · intro ha
      rw [Segment.has_iff] at ha
      rw [hl]
      simp only [Segment.size]
      omega
    · intro ha hlt
      rw [hl] at hlt
      have : g.has a = true := Segment.has_iff.2 (by simp only [Segment.size] at hlt; omega)
      rw [ha] at this
      cases this
  have hno : g.has a = false → ¬(g.lo ≤ a ∧ a ≤ g.hi) := by
    intro ha hlt
    rw [Segment.has_iff.2 hlt] at ha
    cases ha
  unfold segCommands at h
  cases hcon : g.content with
  | disabled =>
    rw [hcon] at h
    cases h
    simp only [List.foldl_cons, List.foldl_nil, Window.isOn_apply, Window.isRam_apply, Window.memRead_apply]
    refine ⟨fun ha => ?_, fun ha => ?_⟩
    · simp [hno ha]
    · have hin := Segment.has_iff.1 ha
      simp [hin, shownOn, shownRam, hcon, winRead, Window.isOn_apply, Segment.byteAt]
  | fill =>
    rw [hcon] at h
    cases hb : segBytes x g with
    | none => rw [hb] at h; cases h
    | some bs =>
      rw [hb] at h
      cases h
      have hcd : g.content ≠ .disabled := by rw [hcon]; simp
      obtain ⟨hin, hout⟩ := hcopy bs hb hcd
      simp only [List.foldl_cons, List.foldl_nil]
      refine ⟨fun ha => ?_, fun ha => ?_⟩
      · simp only [Window.isOn_apply, Window.isRam_apply, Window.memRead_apply]
        simp [hno ha, if_neg (hout ha)]
      · have hi := Segment.has_iff.1 ha
        refine ⟨?_, ?_, ?_⟩
        · simp [Window.isOn_apply, hi, shownOn, hcon]
        · simp [Window.isRam_apply, hi, shownRam, hcon]
        · rw [← (segBytes_spec hb hcd).2 a ha]
          simp [winRead, Window.isOn_apply, Window.memRead_apply, hi, hin ha]
  | romAt off =>
    rw [hcon] at h
    cases hb : segBytes x g with
    | none => rw [hb] at h; cases h
    | some bs =>
      rw [hb] at h
      cases h
      have hcd : g.content ≠ .disabled := by rw [hcon]; simp
      obtain ⟨hin, hout⟩ := hcopy bs hb hcd
      simp only [List.foldl_cons, List.foldl_nil]
      refine ⟨fun ha => ?_, fun ha => ?_⟩
      · simp only [Window.isOn_apply, Window.isRam_apply, Window.memRead_apply]
        simp [hno ha, if_neg (hout ha)]
      · have hi := Segment.has_iff.1 ha
        refine ⟨?_, ?_, ?_⟩
        · simp [Window.isOn_apply, hi, shownOn, hcon]
        · simp [Window.isRam_apply, hi, shownRam, hcon]
        · rw [← (segBytes_spec hb hcd).2 a ha]
          simp [winRead, Window.isOn_apply, Window.memRead_apply, hi, hin ha]
  | ram =>
    rw [hcon] at h
    cases hb : segBytes x g with
    | none => rw [hb] at h; cases h
    | some bs =>
      rw [hb] at h
      cases h
      have hcd : g.content ≠ .disabled := by rw [hcon]; simp
      obtain ⟨hin, hout⟩ := hcopy bs hb hcd
      simp only [List.foldl_cons, List.foldl_nil]
      refine ⟨fun ha => ?_, fun ha => ?_⟩
      · simp only [Window.isOn_apply, Window.isRam_apply, Window.memRead_apply]
        simp [hno ha, if_neg (hout ha)]
      · have hi := Segment.has_iff.1 ha
        refine ⟨?_, ?_, ?_⟩
        · simp [Window.isOn_apply, hi, shownOn, hcon]
        · simp [Window.isRam_apply, hi, shownRam, hcon]
        · rw [← (segBytes_spec hb hcd).2 a ha]
          simp [winRead, Window.isOn_apply, Window.memRead_apply, hi, hin ha]

/-! ### A whole mapping -/

/-- The commands of a mapping with disjoint segments: what each segment shows in it, and nothing outside. -/
theorem segsCommands_effect {x : Slot} : ∀ {segs : List Segment} {cs : List MapperCmd}, segsCommands x segs = some cs →
    segs.Pairwise (fun a b => a.hi < b.lo ∨ b.hi < a.lo) → (∀ g ∈ segs, g.lo ≤ g.hi) → ∀ (w : Window) (a : Nat),
    (segmentAt segs a = Option.none → (cs.foldl Window.apply w).isOn a = w.isOn a ∧
      (cs.foldl Window.apply w).isRam a = w.isRam a ∧ memRead (cs.foldl Window.apply w).bytes a = memRead w.bytes a) ∧
    (∀ g, segmentAt segs a = some g → (cs.foldl Window.apply w).isOn a = shownOn (some g) ∧
      (cs.foldl Window.apply w).isRam a = shownRam (some g) ∧ some (winRead (cs.foldl Window.apply w) a) = g.byteAt x a) := by
  intro segs
  induction segs with
  | nil =>
    intro cs h _ _ w a
    cases h
    exact ⟨fun _ => ⟨rfl, rfl, rfl⟩, fun g hg => by cases hg⟩
  | cons g gs ih =>
    intro cs h hd hle w a
    simp only [segsCommands] at h
    cases hg : segCommands x g with
    | none => simp [hg] at h
    | some cs1 =>
      cases hgs : segsCommands x gs with
      | none => simp [hg, hgs] at h
      | some cs2 =>
        simp only [hg, hgs] at h
        cases h
        have h1 := segCommands_effect hg (hle g List.mem_cons_self) w a
        have h2 := ih hgs (List.pairwise_cons.1 hd).2 (fun g' hg' => hle g' (List.mem_cons_of_mem _ hg'))
          (cs1.foldl Window.apply w) a
        rw [List.foldl_append]
        cases hga : g.has a with
        | true =>
          have hnone : segmentAt gs a = Option.none := by
            rw [segmentAt, List.find?_eq_none]
            intro g' hg' hg'a
            have := (List.pairwise_cons.1 hd).1 g' hg'
            rw [Segment.has_iff] at hga hg'a
            omega
          obtain ⟨e1, e2, e3⟩ := h1.2 hga
          obtain ⟨f1, f2, f3⟩ := h2.1 hnone
          have hfind : segmentAt (g :: gs) a = some g := by simp [segmentAt, hga]
          refine ⟨fun hn => ?_, fun g' hg' => ?_⟩
          · rw [hfind] at hn; cases hn
          · rw [hfind] at hg'
            cases hg'
            refine ⟨f1.trans e1, f2.trans e2, ?_⟩
            rw [← e3, winRead, winRead, f1, f3]
        | false =>
          have hfind : segmentAt (g :: gs) a = segmentAt gs a := by simp [segmentAt, hga]
          obtain ⟨e1, e2, e3⟩ := h1.1 hga
          rw [hfind]
          refine ⟨fun hn => ?_, fun g' hg' => h2.2 g' hg'⟩
          obtain ⟨f1, f2, f3⟩ := h2.1 hn
          exact ⟨f1.trans e1, f2.trans e2, f3.trans e3⟩

/-! ### A good slot record is never refused -/

theorem acceptsSize_eq {k : Kind} {kb : Nat} (h : acceptsSize k kb = true) (hu : k ≠ .unknown) : kb = (typeEntry k).sizeKb := by
  cases k <;> simp_all [acceptsSize]

theorem acceptsMachine_eq {k : Kind} {m : MachineKind} (h : acceptsMachine k m = true) (hu : k ≠ .unknown) :
    m = (typeEntry k).machine := by
  cases k <;> simp_all [acceptsMachine]

/-- The descriptor of an accepted kind is well formed for the machine and size. -/
theorem descr_wf {k : Kind} {m : MachineKind} {kb : Nat} (hs : acceptsSize k kb = true) (hm : acceptsMachine k m = true) :
    (descr k).Wf m kb := by
  by_cases hu : k = .unknown
  · subst hu; exact Descriptor.unsupported_wf _ _
  · rw [acceptsSize_eq hs hu, acceptsMachine_eq hm hu]
    exact (typeEntry k).wf

/-- An occupied good slot has a mapping, its descriptor's, which is well formed. -/
theorem Slot.Inv.wf {m : MachineKind} {x : Slot} (h : x.Inv m) (hk : x.kind ≠ .none) : (descr x.kind).Wf m x.sizeKb :=
  descr_wf (h.size hk) (h.machine hk)

/-- Every entry of the table keeps its ROM and its RAM apart (log 23): an open one by its field, `T_RAM` and `T_NV` because they show RAM alone, the
rest because they have no RAM. -/
theorem typeEntry_apart (k : Kind) : (typeEntry k).d.Apart (typeEntry k).machine (typeEntry k).sizeKb := by
  have ram : ∀ n, (tRamEntry n).d.Apart (tRamEntry n).machine (tRamEntry n).sizeKb := fun n st a b g off r hg hc => by
    have := List.mem_singleton.1 (List.mem_of_find?_eq_some hg)
    subst this
    cases hc
  cases k with
  | none => exact .of_no_ram rfl
  | unknown => exact .of_no_ram rfl
  | std8 => exact .of_no_ram rfl
  | oss16 => exact .of_no_ram rfl
  | sdx v => exact .of_no_ram rfl
  | rot32 => exact .of_no_ram rfl
  | clamp => exact .of_no_ram rfl
  | bbsb => exact .of_no_ram rfl
  | sc5200 => exact .of_no_ram rfl
  | other n => exact (Config.openType n).apart
  | test t =>
    cases t with
    | tRam => exact ram false
    | tNv => exact ram true
    | tSdx => exact .of_no_ram rfl
    | tSub => exact .of_no_ram rfl
    | tRdr => exact .of_no_ram rfl
    | tHook => exact .of_no_ram rfl
    | tLine => exact .of_no_ram rfl

theorem Slot.Inv.mapping {m : MachineKind} {x : Slot} (h : x.Inv m) (hk : x.kind ≠ .none) :
    mappingOf m x = some ((descr x.kind).map x.state m x.sizeKb) := by
  simp [mappingOf, hk, h.size hk, h.machine hk]

/-- A segment of an occupied good slot's mapping at an address is one of the mapping, and the address is in it. -/
theorem segmentOf_some {m : MachineKind} {x : Slot} (h : x.Inv m) (hk : x.kind ≠ .none) {a : Nat} {g : Segment}
    (hg : segmentOf m x a = some g) : g ∈ (descr x.kind).map x.state m x.sizeKb ∧ g.has a = true := by
  simp only [segmentOf, h.mapping hk, Option.bind_some, segmentAt] at hg
  exact ⟨List.mem_of_find?_eq_some hg, by simpa using List.find?_some hg⟩

/-- A good slot record shows no buffer byte both as ROM and as RAM (log 23). -/
theorem Slot.Inv.apart {m : MachineKind} {x : Slot} (h : x.Inv m) : x.Apart m := by
  intro a b g off r hg hc hr hb
  by_cases hu : x.kind = .unknown
  · rw [hu] at hr; cases hr
  by_cases hk : x.kind = .none
  · rw [hk] at hr; cases hr
  have hap := typeEntry_apart x.kind
  rw [← acceptsSize_eq (h.size hk) hu, ← acceptsMachine_eq (h.machine hk) hu] at hap
  cases hgb : segmentOf m x b with
  | none => rw [hgb] at hb; cases hb
  | some g' =>
    rw [hgb] at hb
    obtain ⟨hmem, hhas⟩ := segmentOf_some h hk hgb
    simp only [segmentOf, h.mapping hk, Option.bind_some] at hg
    exact hap x.state a b g off r hg hc hr ⟨g', hmem, hhas, by simpa [shownRam] using hb⟩

theorem mappingOf_none {m : MachineKind} {x : Slot} (h : x.kind = .none) : mappingOf m x = some [] := by
  simp [mappingOf, h]

theorem segBytes_isSome {m : MachineKind} {x : Slot} (h : x.Inv m) (hk : x.kind ≠ .none) {g : Segment}
    (hg : g ∈ (descr x.kind).map x.state m x.sizeKb) : ∃ bs, segBytes x g = some bs := by
  obtain ⟨b, hb, hlen⟩ := h.buffer hk
  have hwf := h.wf hk
  obtain ⟨w, _, _, hle, _⟩ := hwf.inWindows x.state g hg
  unfold segBytes
  cases hcon : g.content with
  | disabled => exact ⟨_, rfl⟩
  | fill => exact ⟨_, rfl⟩
  | romAt off =>
    have := hwf.romBound x.state g hg off hcon
    refine ⟨((b.drop off).take g.size), ?_⟩
    simp only [bufSlice, hb, Option.getD_some]
    rw [if_pos]
    simp only [List.length_take, List.length_drop, Segment.size]
    omega
  | ram =>
    obtain ⟨r, hr, hbound⟩ := hwf.ramBound x.state g hg hcon
    simp only [hr, bufGather, hb, Option.getD_some]
    rw [if_pos]
    · exact ⟨_, rfl⟩
    · simp only [List.all_eq_true, List.mem_map, List.mem_range'_1, decide_eq_true_eq, Segment.size]
      rintro o ⟨a, ⟨h1, h2⟩, rfl⟩
      rw [hlen]
      exact hbound a (Segment.has_iff.2 ⟨h1, by omega⟩)

theorem segCommands_isSome {x : Slot} {g : Segment} {bs : List Byte} (h : segBytes x g = some bs) :
    ∃ cs, segCommands x g = some cs := by
  unfold segCommands
  rw [h]
  cases g.content <;> exact ⟨_, rfl⟩

theorem segsCommands_isSome {x : Slot} : ∀ {segs : List Segment}, (∀ g ∈ segs, ∃ bs, segBytes x g = some bs) →
    ∃ cs, segsCommands x segs = some cs := by
  intro segs
  induction segs with
  | nil => intro _; exact ⟨[], rfl⟩
  | cons g gs ih =>
    intro h
    obtain ⟨bs, hbs⟩ := h g List.mem_cons_self
    obtain ⟨cs, hcs⟩ := segCommands_isSome hbs
    obtain ⟨ds, hds⟩ := ih fun g' hg' => h g' (List.mem_cons_of_mem _ hg')
    exact ⟨cs ++ ds, by simp [segsCommands, hcs, hds]⟩

/-- The mapping of a good slot record: disjoint nonempty segments inside the windows, whose commands exist. -/
theorem Slot.Inv.commands {m : MachineKind} {x : Slot} (h : x.Inv m) : ∃ segs cs, mappingOf m x = some segs ∧
    segsCommands x segs = some cs ∧ mapCommands m x = .ok cs ∧ segs.Pairwise (fun a b => a.hi < b.lo ∨ b.hi < a.lo) ∧
    ∀ g ∈ segs, g.lo ≤ g.hi ∧ ∀ a, g.has a = true → inWindow m a = true := by
  by_cases hk : x.kind = .none
  · refine ⟨[], [], mappingOf_none hk, rfl, ?_, List.Pairwise.nil, fun g hg => by cases hg⟩
    simp [mapCommands, mappingOf_none hk, segsCommands]
  · have hwf := h.wf hk
    obtain ⟨cs, hcs⟩ := segsCommands_isSome fun g hg => segBytes_isSome h hk hg
    refine ⟨_, cs, h.mapping hk, hcs, ?_, hwf.disjoint x.state, fun g hg => ?_⟩
    · simp [mapCommands, h.mapping hk, hcs]
    · obtain ⟨w, hw, h1, hle, h2⟩ := hwf.inWindows x.state g hg
      refine ⟨hle, fun a ha => ?_⟩
      rw [Segment.has_iff] at ha
      simp only [inWindow, List.any_eq_true]
      exact ⟨w, hw, by simp only [AddrRange.has, Bool.and_eq_true, decide_eq_true_eq]; omega⟩

end Sys2Proof.Machine
end

