-- ==== Sys2Proof/Laws/Transitions.lean ====
section
/-! SUPPORT. One spec lemma for each remap step and for `commit`: from a good state it is never refused, and everything it can do. -/

namespace Sys2Proof.Machine

/-! ### Frames -/

/-- What no remap and no transition touches: parameters, input, the write counter, and every output but the list of mapper commands, which
can only grow, and whose new commands are what the window image went through. -/
structure State.Kept (s t : State) : Prop where
  machine    : t.machine = s.machine
  autoreboot : t.autoreboot = s.autoreboot
  loader     : t.loader = s.loader
  sdxPbMask  : t.sdxPbMask = s.sdxPbMask
  input      : t.input = s.input
  ioCount    : t.ioCount = s.ioCount
  out        : ∃ cs, t.out = { s.out with commands := s.out.commands ++ cs } ∧ t.window = cs.foldl Window.apply s.window

theorem State.Kept.refl (s : State) : s.Kept s := ⟨rfl, rfl, rfl, rfl, rfl, rfl, [], by simp, rfl⟩

theorem State.Kept.trans {s t u : State} (h : s.Kept t) (k : t.Kept u) : s.Kept u := by
  obtain ⟨cs, hcs, hws⟩ := h.out
  obtain ⟨ds, hds, hwt⟩ := k.out
  exact ⟨k.machine.trans h.machine, k.autoreboot.trans h.autoreboot, k.loader.trans h.loader, k.sdxPbMask.trans h.sdxPbMask, k.input.trans h.input,
    k.ioCount.trans h.ioCount, cs ++ ds, by simp [hds, hcs], by rw [hwt, hws, List.foldl_append]⟩

theorem State.Kept.issueAll (s : State) (cs : List MapperCmd) : s.Kept (s.issueAll cs) :=
  ⟨by simp, by simp, by simp, by simp, by simp, by simp, cs, by simp, by simp⟩

theorem State.Kept.setSlot (s : State) (sl : SlotName) (x : Slot) : s.Kept (s.setSlot sl x) :=
  ⟨by simp, by simp, by simp, by simp, by simp, by simp, [], by simp, by simp⟩

/-! ### Commands inside the windows -/

/-- A command that touches addresses of the machine's windows only. -/
def MapperCmd.Inside (m : MachineKind) : MapperCmd → Prop
  | .enable lo hi => ∀ a, lo ≤ a → a ≤ hi → inWindow m a = true
  | .disable _ _ => True
  | .copy lo _ bs => ∀ a, lo ≤ a → a < lo + bs.length → inWindow m a = true
  | .markRam lo hi => ∀ a, lo ≤ a → a ≤ hi → inWindow m a = true

theorem Window.apply_inside {w : Window} {m : MachineKind} {c : MapperCmd} (h : w.Inside m) (hc : c.Inside m) :
    (w.apply c).Inside m := by
  cases c with
  | enable lo hi =>
    refine ⟨fun a ha => ?_, h.ram, h.bytes⟩
    rcases mem_setInsert.1 ha with ha | ha
    · exact h.en a ha
    · exact hc a ha.1 ha.2
  | disable lo hi => exact ⟨fun a ha => h.en a (mem_setRemove.1 ha).1, fun a ha => h.ram a (mem_setRemove.1 ha).1, h.bytes⟩
  | copy lo hi bs =>
    refine ⟨h.en, fun a ha => h.ram a (mem_setRemove.1 ha).1, fun d hd => ?_⟩
    rcases mem_memWrite hd with hd | hd
    · exact h.bytes d hd
    · exact hc d.1 hd.1 hd.2
  | markRam lo hi =>
    refine ⟨h.en, fun a ha => ?_, h.bytes⟩
    rcases mem_setInsert.1 ha with ha | ha
    · exact h.ram a ha
    · exact hc a ha.1 ha.2

theorem Window.foldl_apply_inside {m : MachineKind} (cs : List MapperCmd) : ∀ {w : Window}, w.Inside m → (∀ c ∈ cs, c.Inside m) →
    (cs.foldl Window.apply w).Inside m := by
  induction cs with
  | nil => intro w h _; exact h
  | cons c cs ih =>
    intro w h hc
    exact ih (Window.apply_inside h (hc c List.mem_cons_self)) fun d hd => hc d (List.mem_cons_of_mem _ hd)

theorem segCommands_inside {m : MachineKind} {x : Slot} {g : Segment} {cs : List MapperCmd} (h : segCommands x g = some cs)
    (hin : ∀ a, g.has a = true → inWindow m a = true) : ∀ c ∈ cs, c.Inside m := by
  have hr : ∀ a, g.lo ≤ a → a ≤ g.hi → inWindow m a = true := fun a h1 h2 => hin a (Segment.has_iff.2 ⟨h1, h2⟩)
  have hcopy : ∀ bs, segBytes x g = some bs → g.content ≠ .disabled → MapperCmd.Inside m (.copy g.lo g.hi bs) := by
    intro bs hb hc a h1 h2
    rw [(segBytes_spec hb hc).1] at h2
    exact hr a h1 (by simp only [Segment.size] at h2; omega)
  unfold segCommands at h
  cases hcon : g.content <;> cases hb : segBytes x g <;> rw [hcon, hb] at h <;> cases h <;>
    intro c hc <;> simp only [List.mem_cons, List.not_mem_nil, or_false] at hc
  · subst hc; trivial
  · subst hc; trivial
  · rcases hc with rfl | rfl
    · exact hcopy _ hb (by simp [hcon])
    · exact hr
  · rcases hc with rfl | rfl
    · exact hcopy _ hb (by simp [hcon])
    · exact hr
  · rcases hc with rfl | rfl | rfl
    · exact hcopy _ hb (by simp [hcon])
    · exact hr
    · exact hr

theorem segsCommands_inside {m : MachineKind} {x : Slot} : ∀ {segs : List Segment} {cs : List MapperCmd},
    segsCommands x segs = some cs → (∀ g ∈ segs, ∀ a, g.has a = true → inWindow m a = true) → ∀ c ∈ cs, c.Inside m := by
  intro segs
  induction segs with
  | nil => intro cs h _ c hc; cases h; cases hc
  | cons g gs ih =>
    intro cs h hin c hc
    simp only [segsCommands] at h
    cases hg : segCommands x g with
    | none => simp [hg] at h
    | some cs1 =>
      cases hgs : segsCommands x gs with
      | none => simp [hg, hgs] at h
      | some cs2 =>
        simp only [hg, hgs] at h
        cases h
        rcases List.mem_append.1 hc with hc | hc
        · exact segCommands_inside hg (hin g List.mem_cons_self) c hc
        · exact ih hgs (fun g' hg' => hin g' (List.mem_cons_of_mem _ hg')) c hc

/-! ### REMAP -/

/-- The marks of the window image agree with a slot's mapping. -/
def Window.MarkedFor (w : Window) (m : MachineKind) (x : Slot) : Prop := ∀ a, inWindow m a = true →
  w.isOn a = shownOn (segmentOf m x a) ∧ w.isRam a = shownRam (segmentOf m x a)

theorem State.marked_iff {s : State} : s.Marked ↔ s.window.MarkedFor s.machine (s.slot s.active) :=
  ⟨fun h a ha => ⟨h.on a ha, h.ram a ha⟩, fun h => ⟨fun a ha => (h a ha).1, fun a ha => (h a ha).2⟩⟩

/-- The window image agrees with a slot's mapping. -/
def Window.Shows (w : Window) (m : MachineKind) (x : Slot) : Prop := ∀ a, inWindow m a = true →
  w.isOn a = shownOn (segmentOf m x a) ∧ w.isRam a = shownRam (segmentOf m x a) ∧ some (winRead w a) = shownByte m x a

theorem State.coherent_iff {s : State} : s.Coherent ↔ s.window.Shows s.machine (s.slot s.active) :=
  ⟨fun h a ha => ⟨h.on a ha, h.ram a ha, h.byte a ha⟩,
   fun h => ⟨⟨fun a ha => (h a ha).1, fun a ha => (h a ha).2.1⟩, fun a ha => (h a ha).2.2⟩⟩

theorem Window.Shows.markedFor {w : Window} {m : MachineKind} {x : Slot} (h : w.Shows m x) : w.MarkedFor m x :=
  fun a ha => ⟨(h a ha).1, (h a ha).2.1⟩

/-- What was shown rightly before an operation is shown rightly after it: the marks, and the bytes too. -/
structure State.StillShows (s t : State) : Prop where
  marked   : s.Marked → t.Marked
  coherent : s.Coherent → t.Coherent

theorem State.StillShows.refl (s : State) : s.StillShows s := ⟨id, id⟩

theorem State.StillShows.trans {s t u : State} (h : s.StillShows t) (k : t.StillShows u) : s.StillShows u :=
  ⟨fun hm => k.marked (h.marked hm), fun hc => k.coherent (h.coherent hc)⟩

theorem State.Coherent.stillShows {t : State} (h : t.Coherent) (s : State) : s.StillShows t := ⟨fun _ => h.toMarked, fun _ => h⟩

/-- The commands of a good slot record: on a window image that is off wherever the mapping has no segment they show the mapping. -/
theorem Slot.Inv.remapCommands {m : MachineKind} {x : Slot} (h : x.Inv m) : ∃ cs, mapCommands m x = .ok cs ∧
    (∀ w : Window, w.Inside m → (cs.foldl Window.apply w).Inside m) ∧
    ∀ w : Window, (∀ a, inWindow m a = true → segmentOf m x a = Option.none → w.isOn a = false ∧ w.isRam a = false) →
      (cs.foldl Window.apply w).Shows m x := by
  obtain ⟨segs, cs, hmap, hsegs, hcs, hdis, hle⟩ := h.commands
  refine ⟨cs, hcs, fun w hw => Window.foldl_apply_inside cs hw (segsCommands_inside hsegs fun g hg => (hle g hg).2),
    fun w hw a ha => ?_⟩
  have heff := segsCommands_effect hsegs hdis (fun g hg => (hle g hg).1) w a
  have hseg : segmentOf m x a = segmentAt segs a := by simp [segmentOf, hmap]
  cases hs : segmentAt segs a with
  | none =>
    obtain ⟨e1, e2, _⟩ := heff.1 hs
    obtain ⟨w1, w2⟩ := hw a ha (hseg.trans hs)
    refine ⟨?_, ?_, ?_⟩
    · rw [e1, w1, hseg, hs]; rfl
    · rw [e2, w2, hseg, hs]; rfl
    · simp [winRead, e1, w1, shownByte, hseg, hs]
  | some g =>
    obtain ⟨e1, e2, e3⟩ := heff.2 g hs
    refine ⟨?_, ?_, ?_⟩
    · rw [e1, hseg, hs]
    · rw [e2, hseg, hs]
    · rw [e3, shownByte, hseg, hs]

/-- `REMAP(s)` of a good slot record is never refused; of the inactive slot it does nothing (43_remap.md R139, R140). -/
theorem State.remap_spec {s : State} {sl : SlotName} (hx : (s.slot sl).Inv s.machine) (hw : s.window.wf)
    (hi : s.window.Inside s.machine) : ∃ cs, s.remap sl = .ok (s.issueAll cs) ∧ (sl ≠ s.active → cs = []) ∧
    (s.issueAll cs).window.wf ∧ (s.issueAll cs).window.Inside s.machine ∧
    (sl = s.active → (∀ a, inWindow s.machine a = true → segmentOf s.machine (s.slot sl) a = Option.none →
      s.window.isOn a = false ∧ s.window.isRam a = false) → (s.issueAll cs).window.Shows s.machine (s.slot sl)) := by
  by_cases ha : sl = s.active
  · obtain ⟨cs, hcs, hin, hshow⟩ := hx.remapCommands
    refine ⟨cs, by simp [State.remap, ha ▸ hcs, ha], fun hne => absurd ha hne, ?_, ?_, fun _ hoff => ?_⟩
    · rw [State.issueAll_window]; exact Window.foldl_apply_wf cs hw
    · rw [State.issueAll_window]; exact hin _ hi
    · rw [State.issueAll_window]; exact hshow _ hoff
  · exact ⟨[], by simp [State.remap, ha, State.issueAll], fun _ => rfl, hw, hi, fun h => absurd h ha⟩

/-! ### FULL_REMAP -/

theorem foldl_disable (rs : List AddrRange) : ∀ (w : Window) (a : Nat),
    ((rs.map fun r => MapperCmd.disable r.lo r.hi).foldl Window.apply w).isOn a = (w.isOn a && !rs.any (·.has a)) ∧
    ((rs.map fun r => MapperCmd.disable r.lo r.hi).foldl Window.apply w).isRam a = (w.isRam a && !rs.any (·.has a)) := by
  induction rs with
  | nil => intro w a; simp
  | cons r rs ih =>
    intro w a
    obtain ⟨h1, h2⟩ := ih (w.apply (.disable r.lo r.hi)) a
    simp only [List.map_cons, List.foldl_cons, h1, h2, Window.isOn_apply, Window.isRam_apply, List.any_cons, AddrRange.has]
    constructor <;>
    · simp only [Bool.decide_and, Bool.not_or, Bool.and_assoc]

/-- `FULL_REMAP` from two good records: never refused, `active` recomputed, the window image shows the active slot and nothing else
(43_remap.md R141). -/
theorem State.fullRemap_spec {s : State} (hp : s.p.Inv s.machine) (hg : s.g.Inv s.machine) (hw : s.window.wf)
    (hi : s.window.Inside s.machine) : ∃ t, s.fullRemap = .ok t ∧ s.Kept t ∧ t.p = s.p ∧ t.g = s.g ∧
    t.active = activeOf s.sdxPbMask s.p s.g ∧ t.window.wf ∧ t.window.Inside s.machine ∧ t.Coherent := by
  let s1 : State := { s with active := activeOf s.sdxPbMask s.p s.g }
  let s2 := s1.issueAll (disableCommands s1.machine)
  have hslot : ∀ sl, s2.slot sl = s.slot sl := fun sl => by cases sl <;> simp [s2, s1]
  have hmach : s2.machine = s.machine := by simp [s2, s1]
  have hx : (s2.slot s2.active).Inv s2.machine := by
    rw [hslot, hmach]
    cases s2.active
    · exact hp
    · exact hg
  have hw2 : s2.window.wf := by
    simp only [s2, State.issueAll_window]
    exact Window.foldl_apply_wf _ hw
  have hi2 : s2.window.Inside s2.machine := by
    rw [hmach]
    simp only [s2, State.issueAll_window]
    refine Window.foldl_apply_inside _ hi fun c hc => ?_
    simp only [disableCommands, List.mem_map] at hc
    obtain ⟨r, _, rfl⟩ := hc
    trivial
  obtain ⟨cs, hcs, _, hwf, hin, hshow⟩ := State.remap_spec hx hw2 hi2
  have hact : s2.active = activeOf s.sdxPbMask s.p s.g := by simp [s2, s1]
  refine ⟨s2.issueAll cs, ?_, ?_, ?_, ?_, ?_, hwf, hmach ▸ hin, ?_⟩
  · have : s.fullRemap = s2.remap s1.active := rfl
    rw [this, ← hcs]
    simp [s2]
  · refine State.Kept.trans (t := s1) ⟨rfl, rfl, rfl, rfl, rfl, rfl, [], by simp [s1], rfl⟩ ?_
    exact (State.Kept.issueAll s1 _).trans (State.Kept.issueAll s2 _)
  · simp [s2, s1]
  · simp [s2, s1]
  · simp [hact]
  · rw [State.coherent_iff]
    have := hshow rfl fun a ha _ => by
      obtain ⟨h1, h2⟩ := foldl_disable (windows s1.machine) s1.window a
      rw [hmach] at ha
      simp only [s2, State.issueAll_window, disableCommands]
      rw [h1, h2]
      have : (windows s1.machine).any (·.has a) = true := ha
      simp [this]
    simpa using this

/-! ### Transitions -/

/-- Changing the state word of an occupied good record keeps it good. -/
theorem Slot.Inv.setState {m : MachineKind} {x : Slot} (h : x.Inv m) (hk : x.kind ≠ .none) (n : StateWord) :
    Slot.Inv m { x with state := n } :=
  ⟨fun h' => absurd h' hk, h.buffer, h.positive, h.size, h.machine, h.lines, h.writable⟩

/-- A type always drives the same addresses: a segment at an address in one state means one in every state (41_type_descriptors.md R91). -/
theorem segmentOf_none_iff {m : MachineKind} {x : Slot} (h : x.Inv m) (n : StateWord) (a : Nat) :
    segmentOf m { x with state := n } a = Option.none ↔ segmentOf m x a = Option.none := by
  by_cases hk : x.kind = .none
  · simp [segmentOf, mappingOf, hk, segmentAt]
  · have hwf := h.wf hk
    have h1 := h.mapping hk
    have h2 := (h.setState hk n).mapping hk
    simp only [segmentOf, h1, h2, Option.bind_some, segmentAt, List.find?_eq_none]
    constructor
    · intro hn g hg hga
      obtain ⟨g', hg', hg'a⟩ := hwf.coverage x.state n a ⟨g, hg, hga⟩
      exact hn g' hg' hg'a
    · intro hn g hg hga
      obtain ⟨g', hg', hg'a⟩ := hwf.coverage n x.state a ⟨g, hg, hga⟩
      exact hn g' hg' hg'a

/-- `commit(s, n)` on an occupied slot of a good state: never refused; the slot's state word is `n`; nothing else of the records changes;
the state stays good, and coherent if it was (40_control_page_access.md R79). -/
theorem State.commit_spec {s : State} (h : s.Inv) {sl : SlotName} (hk : (s.slot sl).kind ≠ .none) (n : StateWord) :
    ∃ t, s.commit sl n = .ok t ∧ s.Kept t ∧ t.slot sl = { s.slot sl with state := n } ∧
    (∀ tl, tl ≠ sl → t.slot tl = s.slot tl) ∧ t.Inv ∧ s.StillShows t := by
  have hslot : ∀ sl, (s.slot sl).Inv s.machine := fun sl => by
    cases sl
    · exact h.p
    · exact h.g
  by_cases hn : n = (s.slot sl).state
  · subst hn
    exact ⟨s, by simp [State.commit], State.Kept.refl s, rfl, fun _ _ => rfl, h, State.StillShows.refl s⟩
  · let s1 := s.setSlot sl { s.slot sl with state := n }
    have hk1 : s.Kept s1 := State.Kept.setSlot s sl _
    have hm1 : s1.machine = s.machine := by simp [s1]
    have hx1 : ∀ tl, (s1.slot tl).Inv s.machine := by
      intro tl
      by_cases ht : tl = sl
      · subst ht
        simp only [s1, State.setSlot_slot]
        exact (hslot tl).setState hk n
      · simp only [s1, State.setSlot_slot_ne _ _ _ ht]
        exact hslot tl
    have hself : s1.slot sl = { s.slot sl with state := n } := by simp [s1]
    have hother : ∀ tl, tl ≠ sl → s1.slot tl = s.slot tl := fun tl ht => State.setSlot_slot_ne _ _ _ ht
    have hkind : ∀ tl, (s1.slot tl).kind = (s.slot tl).kind := by
      intro tl
      by_cases ht : tl = sl
      · subst ht; rw [hself]
      · rw [hother tl ht]
    have hp1 : s1.p.Inv s1.machine := by rw [hm1]; exact hx1 .P
    have hg1 : s1.g.Inv s1.machine := by rw [hm1]; exact hx1 .G
    have hw1 : s1.window.wf := by simp only [s1, State.setSlot_window]; exact h.window
    have hi1 : s1.window.Inside s1.machine := by rw [hm1]; simp only [s1, State.setSlot_window]; exact h.inside
    have hchain : s1.g.kind ≠ .none → s1.p.kind ≠ .none := by
      have hgk := hkind .G
      have hpk := hkind .P
      simp only [State.slot_G, State.slot_P] at hgk hpk
      rw [hgk, hpk]
      exact h.chained
    have hcommit : s.commit sl n = if toggles s sl (s.slot sl).state n then s1.fullRemap else s1.remap sl := by
      simp [State.commit, hn, s1]
    by_cases htog : toggles s sl (s.slot sl).state n = true
    · obtain ⟨t, ht, hkept, htp, htg, hta, htw, hti, htc⟩ := State.fullRemap_spec hp1 hg1 hw1 hi1
      have hts : ∀ tl, t.slot tl = s1.slot tl := fun tl => by cases tl <;> assumption
      have htm : t.machine = s1.machine := hkept.machine
      refine ⟨t, by rw [hcommit, if_pos htog, ht], hk1.trans hkept, by rw [hts, hself], fun tl ht' => by rw [hts, hother tl ht'], ?_,
        htc.stillShows s⟩
      exact ⟨by rw [htp, htm]; exact hp1, by rw [htg, htm]; exact hg1, by rw [htp, htg]; exact hchain,
        by rw [hta, htp, htg, hkept.sdxPbMask], htw, by rw [htm]; exact hti⟩
    · have hx1' : (s1.slot sl).Inv s1.machine := by rw [hm1]; exact hx1 sl
      obtain ⟨cs, hcs, hne, htw, hti, hshow⟩ := State.remap_spec hx1' hw1 hi1
      have hact1 : s1.active = s.active := by simp [s1]
      have hmask : s1.sdxPbMask = s.sdxPbMask := by simp [s1]
      have hactive : activeOf s1.sdxPbMask s1.p s1.g = activeOf s.sdxPbMask s.p s.g := by
        cases sl with
        | G =>
          have : s1.p = s.p := hother .P (by simp)
          have hg' : s1.g.kind = s.g.kind := hkind .G
          simp only [activeOf, this, hg', hmask]
        | P =>
          have hg' : s1.g = s.g := hother .G (by simp)
          have hp' : s1.p = { s.p with state := n } := hself
          rw [hg', hp', hmask]
          by_cases hgk : s.g.kind = .none
          · simp [activeOf, hgk]
          · have : (descr s.p.kind).selects s.sdxPbMask s.p.state = (descr s.p.kind).selects s.sdxPbMask n := by
              by_contra hc
              exact htog (by simp [toggles, hgk, hc])
            simp [activeOf, this]
      refine ⟨s1.issueAll cs, by rw [hcommit, if_neg htog, hcs], hk1.trans (State.Kept.issueAll s1 cs), by simp [hself],
        fun tl ht => by simp [hother tl ht], ?_, ?_⟩
      · exact ⟨by simpa using hp1, by simpa using hg1, by simpa using hchain, by simp [hact1, hactive, h.active], htw,
          by simpa using hti⟩
      · by_cases hsl : sl = s1.active
        · have hsa : s.active = sl := by rw [← hact1, hsl]
          have hall : s.Marked → (s1.issueAll cs).Coherent := fun hm => by
            rw [State.marked_iff] at hm
            rw [State.coherent_iff]
            simp only [State.issueAll_machine, State.issueAll_active, State.issueAll_slot]
            rw [← hsl]
            refine hshow hsl fun a ha hnone => ?_
            rw [hm1] at ha hnone
            rw [hself, segmentOf_none_iff (hslot sl) n a] at hnone
            obtain ⟨h1, h2⟩ := hm a ha
            rw [hsa, hnone] at h1 h2
            simp only [s1, State.setSlot_window]
            exact ⟨h1, h2⟩
          exact ⟨fun hm => (hall hm).toMarked, fun hc => hall hc.toMarked⟩
        · have hcs' := hne hsl
          subst hcs'
          have hact : s1.slot s1.active = s.slot s.active := by rw [hother _ fun h => hsl h.symm, hact1]
          constructor
          · intro hm
            rw [State.marked_iff] at hm ⊢
            simp only [State.issueAll_machine, State.issueAll_active, State.issueAll_slot, hact, hm1]
            simpa [State.issueAll, s1] using hm
          · intro hc
            rw [State.coherent_iff] at hc ⊢
            simp only [State.issueAll_machine, State.issueAll_active, State.issueAll_slot, hact, hm1]
            simpa [State.issueAll, s1] using hc

/-! ### The commands issued -/

/-- Everything a remap that answers can do. -/
theorem State.remap_ok {s t : State} {sl : SlotName} (h : s.remap sl = .ok t) :
    t = s.issueAll (if sl = s.active then shownCommands s.machine (s.slot sl) else []) := by
  unfold State.remap at h
  by_cases hsl : sl = s.active
  · simp only [hsl, ne_eq, not_true_eq_false, if_false] at h
    simp only [hsl, if_true, shownCommands]
    cases hm : mapCommands s.machine (s.slot s.active) with
    | ok cs => simp only [hm] at h; cases h; rfl
    | error e => simp only [hm] at h; cases h
  · simp only [ne_eq, hsl, not_false_eq_true, if_true] at h
    cases h
    simp [hsl, State.issueAll]

theorem State.issueAll_append (s : State) (cs ds : List MapperCmd) : (s.issueAll cs).issueAll ds = s.issueAll (cs ++ ds) := by
  simp [State.issueAll]

/-- Everything a full remap that answers can do. -/
theorem State.fullRemap_ok {s t : State} (h : s.fullRemap = .ok t) :
    t = State.issueAll { s with active := activeOf s.sdxPbMask s.p s.g }
      (disableCommands s.machine ++ shownCommands s.machine (s.slot (activeOf s.sdxPbMask s.p s.g))) := by
  have hslot : ∀ sl, State.slot { s with active := activeOf s.sdxPbMask s.p s.g } sl = s.slot sl := fun sl => by cases sl <;> rfl
  have := State.remap_ok h
  simpa [State.issueAll_append, hslot] using this

/-- The toggle of `commit` is the condition of 40_control_page_access.md R79, written out. -/
theorem toggles_P (s : State) (n : StateWord) : toggles s .P s.p.state n = switchesSource s n := by
  unfold toggles switchesSource Descriptor.selects
  cases (descr s.p.kind).passthrough <;> simp [bne, beq_eq_decide]

/-- The commands of a `commit` that answers (43_remap.md R143). -/
theorem State.commit_commands {s t : State} {sl : SlotName} {n : StateWord} (h : s.commit sl n = .ok t) :
    t.out.commands = s.out.commands ++ slotCommands s sl n := by
  unfold State.commit at h
  cases sl with
  | P =>
    simp only [State.slot_P] at h
    by_cases hn : n = s.p.state
    · simp only [hn, if_true] at h
      cases h
      simp [slotCommands, primaryCommands, hn]
    · simp only [hn, if_false] at h
      have hsw := toggles_P s n
      by_cases ht : toggles s .P s.p.state n = true
      · simp only [ht, if_true] at h
        rw [State.fullRemap_ok h]
        simp only [State.issueAll_out, State.setSlot_out, slotCommands, primaryCommands, hn, if_false, ← hsw, ht, if_true, State.setSlot_machine,
          State.setSlot_sdxPbMask, State.setSlot_P_p, State.setSlot_P_g]
        cases hact : activeOf s.sdxPbMask { s.p with state := n } s.g <;> simp
      · simp only [ht, if_false, Bool.false_eq_true] at h
        rw [State.remap_ok h]
        cases hact : s.active <;> simp [slotCommands, primaryCommands, hn, ← hsw, ht, hact]
  | G =>
    simp only [State.slot_G] at h
    by_cases hn : n = s.g.state
    · simp only [hn, if_true] at h
      cases h
      simp [slotCommands, piggybackCommands, hn]
    · have ht : toggles s .G s.g.state n = false := by simp [toggles]
      simp only [hn, if_false, ht, Bool.false_eq_true] at h
      rw [State.remap_ok h]
      cases hact : s.active <;> simp [slotCommands, piggybackCommands, hn, hact]

/-- A transition to the state word a slot has, or none, changes nothing at all (40_control_page_access.md R79). -/
theorem State.commitOpt_same {s : State} {sl : SlotName} {o : Option StateWord} (h : o.getD (s.slot sl).state = (s.slot sl).state) :
    s.commitOpt sl o = .ok s := by
  cases o with
  | none => rfl
  | some n => simp only [Option.getD_some] at h; simp [State.commitOpt, State.commit, h]

theorem State.commitOpt_commands {s t : State} {sl : SlotName} {o : Option StateWord} (h : s.commitOpt sl o = .ok t) : t.out.commands = s.out.commands ++ slotCommands s sl (o.getD (s.slot sl).state) := by
  cases o with
  | none =>
    cases h
    cases sl <;> simp [slotCommands, primaryCommands, piggybackCommands]
  | some n => exact State.commit_commands h

/-- A new list of commands appended to those of an output. -/
abbrev Output.issued (o : Output) (cs : List MapperCmd) : Output := { o with commands := o.commands ++ cs }

/-- The window image went through the commands the output grew by. -/
theorem State.Kept.window {s t : State} (h : s.Kept t) {cs : List MapperCmd} (ho : t.out.commands = s.out.commands ++ cs) :
    t.window = cs.foldl Window.apply s.window := by
  obtain ⟨ds, hds, hw⟩ := h.out
  rw [hds] at ho
  simp only [List.append_cancel_left_eq] at ho
  rw [hw, ho]

/-- The transition of an optional new state: the state word it names, or the old one; exactly the commands of it; nothing at all when the state
word does not change. -/
theorem State.commitOpt_spec {s : State} (h : s.Inv) {sl : SlotName} (hk : (s.slot sl).kind ≠ .none) (o : Option StateWord) :
    ∃ t, s.commitOpt sl o = .ok t ∧ s.Kept t ∧ t.slot sl = { s.slot sl with state := o.getD (s.slot sl).state } ∧
    (∀ tl, tl ≠ sl → t.slot tl = s.slot tl) ∧ t.Inv ∧ s.StillShows t ∧
    t.out = s.out.issued (slotCommands s sl (o.getD (s.slot sl).state)) ∧
    (o.getD (s.slot sl).state = (s.slot sl).state → t = s) := by
  have hmain : ∃ t, s.commitOpt sl o = .ok t ∧ s.Kept t ∧ t.slot sl = { s.slot sl with state := o.getD (s.slot sl).state } ∧
      (∀ tl, tl ≠ sl → t.slot tl = s.slot tl) ∧ t.Inv ∧ s.StillShows t := by
    cases o with
    | none => exact ⟨s, rfl, State.Kept.refl s, rfl, fun _ _ => rfl, h, State.StillShows.refl s⟩
    | some n => exact State.commit_spec h hk n
  obtain ⟨t, ht, hkept, hself, hother, hinv, hcoh⟩ := hmain
  refine ⟨t, ht, hkept, hself, hother, hinv, hcoh, ?_, fun hn => ?_⟩
  · obtain ⟨cs, hcs, -⟩ := hkept.out
    have hcmd := State.commitOpt_commands ht
    rw [hcs] at hcmd
    simp only [List.append_cancel_left_eq] at hcmd
    rw [hcs, hcmd]
  · rw [State.commitOpt_same hn] at ht
    cases ht
    rfl

end Sys2Proof.Machine
end

