-- ==== Sys2Proof/Laws/Events.lean ====
section
/-! SUPPORT. One spec lemma for each shared operation of the bus events: from a good state it is never refused, and everything it does. -/

namespace Sys2Proof.Machine

theorem State.Kept.frame {s t : State} (h : s.Kept t) : s.SameFrame t :=
  ⟨⟨h.machine, h.autoreboot, h.loader, h.sdxPbMask⟩, h.input, h.ioCount⟩

theorem State.SameFrame.trans {s t u : State} (h : s.SameFrame t) (k : t.SameFrame u) : s.SameFrame u :=
  ⟨⟨k.machine.trans h.machine, k.autoreboot.trans h.autoreboot, k.loader.trans h.loader, k.sdxPbMask.trans h.sdxPbMask⟩, k.input.trans h.input,
    k.ioCount.trans h.ioCount⟩

/-- What goodness and what is shown look at: the mask, the machine, the two records, the active slot, and the window image; not the answer of the
event, the input, or the write counter. -/
structure State.SameCore (s t : State) : Prop where
  mask    : t.sdxPbMask = s.sdxPbMask
  machine : t.machine = s.machine
  p       : t.p = s.p
  g       : t.g = s.g
  active  : t.active = s.active
  window  : t.window = s.window

theorem State.SameCore.slot {s t : State} (h : s.SameCore t) (sl : SlotName) : t.slot sl = s.slot sl := by
  cases sl
  · exact h.p
  · exact h.g

theorem State.SameCore.inv {s t : State} (e : s.SameCore t) (h : s.Inv) : t.Inv :=
  ⟨by rw [e.p, e.machine]; exact h.p, by rw [e.g, e.machine]; exact h.g, by rw [e.p, e.g]; exact h.chained,
    by rw [e.p, e.g, e.active, e.mask]; exact h.active, by rw [e.window]; exact h.window, by rw [e.window, e.machine]; exact h.inside⟩

theorem State.SameCore.marked {s t : State} (e : s.SameCore t) (h : s.Marked) : t.Marked := by
  rw [State.marked_iff] at h ⊢
  rw [e.window, e.machine, e.active, e.slot]
  exact h

theorem State.SameCore.coherent {s t : State} (e : s.SameCore t) (h : s.Coherent) : t.Coherent := by
  rw [State.coherent_iff] at h ⊢
  rw [e.window, e.machine, e.active, e.slot]
  exact h

theorem State.SameCore.stillShows {s t : State} (e : s.SameCore t) : s.StillShows t := ⟨e.marked, e.coherent⟩

theorem State.sameCore_clearOut (s : State) : s.SameCore s.clearOut := ⟨rfl, rfl, rfl, rfl, rfl, rfl⟩

theorem State.sameCore_giveData (s : State) (b : Byte) : s.SameCore (s.giveData b) := ⟨rfl, rfl, rfl, rfl, rfl, rfl⟩

theorem State.sameCore_giveHandled (s : State) (b : Handled) : s.SameCore (s.giveHandled b) := ⟨rfl, rfl, rfl, rfl, rfl, rfl⟩

theorem State.Inv.clearOut {s : State} (h : s.Inv) : s.clearOut.Inv := s.sameCore_clearOut.inv h

theorem State.Marked.clearOut {s : State} (h : s.Marked) : s.clearOut.Marked := s.sameCore_clearOut.marked h

theorem State.Coherent.clearOut {s : State} (h : s.Coherent) : s.clearOut.Coherent := s.sameCore_clearOut.coherent h

theorem State.Inv.giveData {s : State} (h : s.Inv) (b : Byte) : (s.giveData b).Inv := (s.sameCore_giveData b).inv h

theorem State.Inv.giveHandled {s : State} (h : s.Inv) (b : Handled) : (s.giveHandled b).Inv := (s.sameCore_giveHandled b).inv h

theorem State.StillShows.giveData {s t : State} (h : s.StillShows t) (b : Byte) : s.StillShows (t.giveData b) :=
  h.trans (t.sameCore_giveData b).stillShows

theorem State.StillShows.giveHandled {s t : State} (h : s.StillShows t) (b : Handled) : s.StillShows (t.giveHandled b) :=
  h.trans (t.sameCore_giveHandled b).stillShows

theorem State.Inv.slot {s : State} (h : s.Inv) (sl : SlotName) : (s.slot sl).Inv s.machine := by
  cases sl
  · exact h.p
  · exact h.g

theorem Slot.moved_kind (x : Slot) (n : StateWord) : (x.moved n).kind = x.kind := by
  unfold Slot.moved; split <;> rfl

theorem Slot.moved_of_occupied {x : Slot} (h : x.kind ≠ .none) (n : StateWord) : x.moved n = { x with state := n } := by
  simp [Slot.moved, h]

theorem Slot.moved_self (x : Slot) : x.moved x.state = x := by unfold Slot.moved; split <;> rfl

/-- An empty slot has no transition, no reaction and no commands. -/
theorem readNext_none {x : Slot} (h : x.kind = .none) (addr : Addr) : readNext x addr = x.state := by
  simp only [readNext, h]; rfl

theorem writeNext_none {x : Slot} (h : x.kind = .none) (addr : Addr) (v : Byte) : writeNext x addr v = x.state := by
  simp only [writeNext, h]; rfl

theorem slotCommands_self (s : State) (sl : SlotName) : slotCommands s sl (s.slot sl).state = [] := by
  cases sl <;> simp [slotCommands, primaryCommands, piggybackCommands]

/-- A slot's part of a control-page read. -/
theorem State.readSlot_spec {s : State} (h : s.Inv) (sl : SlotName) (addr : Addr) :
    ∃ t, s.readSlot sl addr false = .ok (t, contribution ((s.slot sl).moved (readNext (s.slot sl) addr)) addr) ∧ s.Kept t ∧
    t.slot sl = (s.slot sl).moved (readNext (s.slot sl) addr) ∧ (∀ tl, tl ≠ sl → t.slot tl = s.slot tl) ∧ t.Inv ∧
    s.StillShows t ∧ t.out = s.out.issued (slotCommands s sl (readNext (s.slot sl) addr)) ∧
    (readNext (s.slot sl) addr = (s.slot sl).state → t = s) := by
  by_cases hk : (s.slot sl).kind = .none
  · refine ⟨s, ?_, State.Kept.refl s, ?_, fun _ _ => rfl, h, State.StillShows.refl s, ?_, fun _ => rfl⟩
    · simp [State.readSlot, hk, contribution, Slot.moved]
    · simp [hk, Slot.moved]
    · simp [readNext_none hk, slotCommands_self, Output.issued]
  · obtain ⟨t, ht, hkept, hself, hother, hinv, hcoh, hcmd, hsame⟩ :=
      State.commitOpt_spec h hk ((descr (s.slot sl).kind).rd (s.slot sl).state addr)
    refine ⟨t, ?_, hkept, ?_, hother, hinv, hcoh, hcmd, hsame⟩
    · simp [State.readSlot, hk, State.onRead, ht, contribution, Slot.moved, readNext, hself]
    · simp [hk, Slot.moved, readNext, hself]

/-- A slot's part of a control-page write. -/
theorem State.writeSlot_spec {s : State} (h : s.Inv) (sl : SlotName) (addr : Addr) (v : Byte) :
    ∃ t, s.writeSlot sl addr v false = .ok (t, Handled.ofBool (reacts (s.slot sl) addr v)) ∧ s.Kept t ∧
    t.slot sl = (s.slot sl).moved (writeNext (s.slot sl) addr v) ∧ (∀ tl, tl ≠ sl → t.slot tl = s.slot tl) ∧ t.Inv ∧
    s.StillShows t ∧ t.out = s.out.issued (slotCommands s sl (writeNext (s.slot sl) addr v)) ∧
    (writeNext (s.slot sl) addr v = (s.slot sl).state → t = s) := by
  by_cases hk : (s.slot sl).kind = .none
  · refine ⟨s, ?_, State.Kept.refl s, ?_, fun _ _ => rfl, h, State.StillShows.refl s, ?_, fun _ => rfl⟩
    · simp [State.writeSlot, hk, reacts, Handled.ofBool]
    · simp [hk, Slot.moved]
    · simp [writeNext_none hk, slotCommands_self, Output.issued]
  · obtain ⟨t, ht, hkept, hself, hother, hinv, hcoh, hcmd, hsame⟩ :=
      State.commitOpt_spec h hk ((descr (s.slot sl).kind).wr (s.slot sl).state addr v)
    refine ⟨t, ?_, hkept, ?_, hother, hinv, hcoh, hcmd, hsame⟩
    · cases hw : (descr (s.slot sl).kind).wr (s.slot sl).state addr v with
      | none =>
        rw [hw] at ht
        cases ht
        simp [State.writeSlot, hk, State.onWrite, hw, reacts, Handled.ofBool]
      | some n =>
        rw [hw] at ht
        simp only [State.commitOpt] at ht
        simp [State.writeSlot, hk, State.onWrite, hw, ht, reacts, Handled.ofBool]
    · simp [hk, Slot.moved, writeNext, hself]

/-- ORing two handled flags is ORing what they say. -/
theorem Handled.or_of_bool (a b : Bool) : (Handled.ofBool a).or (Handled.ofBool b) = Handled.ofBool (a || b) := by
  cases a <;> cases b <;> rfl

/-- The commands of the piggyback's part of an access, seen from before the primary's part. -/
theorem slotCommands_second {s t : State} (hm : t.machine = s.machine) (hg : t.g = s.g) {np : StateWord} (ha : t.active = activeOf s.sdxPbMask (s.p.moved np) s.g)
    (ng : StateWord) : slotCommands s .P np ++ slotCommands t .G ng = accessCommands s np ng := by
  simp only [slotCommands, accessCommands, piggybackCommands, hm, hg, ha]

/-- A control-page read: both slots move by their own read transitions, and the answer is the AND of their status bytes afterwards. -/
theorem State.ctrlRead_spec {s : State} (h : s.Inv) (addr : Addr) : ∃ t, s.ctrlRead addr false = .ok t ∧ s.SameFrame t ∧
    t.p = s.p.moved (readNext s.p addr) ∧ t.g = s.g.moved (readNext s.g addr) ∧
    t.out = { s.out with
      data := some (contribution (s.p.moved (readNext s.p addr)) addr &&& contribution (s.g.moved (readNext s.g addr)) addr)
      commands := s.out.commands ++ accessCommands s (readNext s.p addr) (readNext s.g addr) } ∧
    t.window = (accessCommands s (readNext s.p addr) (readNext s.g addr)).foldl Window.apply s.window ∧ t.Inv ∧ s.StillShows t ∧
    (readNext s.p addr = s.p.state → readNext s.g addr = s.g.state →
      t = s.giveData (contribution s.p addr &&& contribution s.g addr)) := by
  obtain ⟨t, ht, hk1, hself1, hoth1, hinv1, hcoh1, hcmd1, hsame1⟩ := State.readSlot_spec h .P addr
  obtain ⟨u, hu, hk2, hself2, hoth2, hinv2, hcoh2, hcmd2, hsame2⟩ := State.readSlot_spec hinv1 .G addr
  have htg : t.slot .G = s.slot .G := hoth1 .G (by simp)
  have hup : u.slot .P = t.slot .P := hoth2 .P (by simp)
  rw [htg] at hu hself2 hcmd2 hsame2
  simp only [State.slot_P, State.slot_G] at *
  have hact : t.active = activeOf s.sdxPbMask (s.p.moved (readNext s.p addr)) s.g := by rw [hinv1.active, hself1, htg, hk1.sdxPbMask]
  have hcs := slotCommands_second hk1.machine htg hact (readNext s.g addr)
  have hand : ∀ a b : Byte, 0xFF#8 &&& a &&& b = a &&& b := fun a b => by
    rw [show (0xFF#8 : Byte) = BitVec.allOnes 8 from rfl, BitVec.allOnes_and]
  refine ⟨u.giveData (contribution (s.p.moved (readNext s.p addr)) addr &&& contribution (s.g.moved (readNext s.g addr)) addr),
    by simp only [State.ctrlRead, ht, hu, hand], (hk1.trans hk2).frame.trans ⟨⟨rfl, rfl, rfl, rfl⟩, rfl, rfl⟩,
    by simp [hup, hself1], by simp [hself2], ?_, ?_, hinv2.giveData _, (hcoh1.trans hcoh2).giveData _, fun hp hg => ?_⟩
  · simp only [State.giveData_out, hcmd2, hcmd1, List.append_assoc, hcs]
  · exact (hk1.trans hk2).window (by simp only [hcmd2, hcmd1, List.append_assoc, hcs])
  · rw [hsame2 hg, hsame1 hp, hp, hg, Slot.moved_self, Slot.moved_self]

/-- A control-page write: both slots move by their own write transitions; handled if one of them reacted. -/
theorem State.ctrlWrite_spec {s : State} (h : s.Inv) (addr : Addr) (v : Byte) : ∃ t, s.ctrlWrite addr v false = .ok t ∧
    s.SameFrame t ∧ t.p = s.p.moved (writeNext s.p addr v) ∧ t.g = s.g.moved (writeNext s.g addr v) ∧
    t.out = { s.out with
      handled := some (Handled.ofBool (reacts s.p addr v || reacts s.g addr v))
      commands := s.out.commands ++ accessCommands s (writeNext s.p addr v) (writeNext s.g addr v) } ∧
    t.window = (accessCommands s (writeNext s.p addr v) (writeNext s.g addr v)).foldl Window.apply s.window ∧ t.Inv ∧
    s.StillShows t ∧
    (writeNext s.p addr v = s.p.state → writeNext s.g addr v = s.g.state →
      t = s.giveHandled (Handled.ofBool (reacts s.p addr v || reacts s.g addr v))) := by
  obtain ⟨t, ht, hk1, hself1, hoth1, hinv1, hcoh1, hcmd1, hsame1⟩ := State.writeSlot_spec h .P addr v
  obtain ⟨u, hu, hk2, hself2, hoth2, hinv2, hcoh2, hcmd2, hsame2⟩ := State.writeSlot_spec hinv1 .G addr v
  have htg : t.slot .G = s.slot .G := hoth1 .G (by simp)
  have hup : u.slot .P = t.slot .P := hoth2 .P (by simp)
  rw [htg] at hu hself2 hcmd2 hsame2
  simp only [State.slot_P, State.slot_G] at *
  have hact : t.active = activeOf s.sdxPbMask (s.p.moved (writeNext s.p addr v)) s.g := by rw [hinv1.active, hself1, htg, hk1.sdxPbMask]
  have hcs := slotCommands_second hk1.machine htg hact (writeNext s.g addr v)
  refine ⟨u.giveHandled (Handled.ofBool (reacts s.p addr v || reacts s.g addr v)),
    by rw [← Handled.or_of_bool]; simp only [State.ctrlWrite, ht, hu], (hk1.trans hk2).frame.trans ⟨⟨rfl, rfl, rfl, rfl⟩, rfl, rfl⟩,
    by simp [hup, hself1], by simp [hself2], ?_, ?_, hinv2.giveHandled _, (hcoh1.trans hcoh2).giveHandled _, fun hp hg => ?_⟩
  · simp only [State.giveHandled_out, hcmd2, hcmd1, List.append_assoc, hcs]
  · exact (hk1.trans hk2).window (by simp only [hcmd2, hcmd1, List.append_assoc, hcs])
  · rw [hsame2 hg, hsame1 hp]

theorem hookNext_of_not_fires {x : Slot} {addr : Addr} (h : firesHook x addr = false) (w : Bool) (v : Byte) : hookNext x addr w v = x.state := by
  simp [hookNext, h]

/-- The hook of a slot. -/
theorem State.fireHook_spec {s : State} (h : s.Inv) {sl : SlotName} (hk : (s.slot sl).kind ≠ .none) (addr : Addr) (w : Bool) (v : Byte) :
    ∃ t, s.fireHook sl addr w v = .ok t ∧ s.Kept t ∧ t.slot sl = { s.slot sl with state := hookNext (s.slot sl) addr w v } ∧
    (∀ tl, tl ≠ sl → t.slot tl = s.slot tl) ∧ t.Inv ∧ s.StillShows t ∧
    t.out = s.out.issued (slotCommands s sl (hookNext (s.slot sl) addr w v)) ∧
    (hookNext (s.slot sl) addr w v = (s.slot sl).state → t = s) := by
  by_cases hf : firesHook (s.slot sl) addr = true
  · cases hh : (descr (s.slot sl).kind).hook with
    | none => simp [firesHook, hh] at hf
    | some hook =>
      have ht : hook.triggers addr = true := by simpa [firesHook, hh, hk] using hf
      have hn : hookNext (s.slot sl) addr w v = (hook.tr (s.slot sl).state addr w v).getD (s.slot sl).state := by
        simp [hookNext, hf, hh]
      obtain ⟨t, htt, hrest⟩ := State.commitOpt_spec h hk (hook.tr (s.slot sl).state addr w v)
      exact ⟨t, by simp [State.fireHook, hh, ht, htt], by rw [hn]; exact hrest⟩
  · have hf' : firesHook (s.slot sl) addr = false := by simpa using hf
    have hs : s.fireHook sl addr w v = .ok s := by
      cases hh : (descr (s.slot sl).kind).hook with
      | none => simp [State.fireHook, hh]
      | some hook =>
        have : hook.triggers addr = false := by simpa [firesHook, hh, hk] using hf'
        simp [State.fireHook, hh, this]
    rw [hookNext_of_not_fires hf']
    exact ⟨s, hs, State.Kept.refl s, rfl, fun _ _ => rfl, h, State.StillShows.refl s, by simp [slotCommands_self, Output.issued], fun _ => rfl⟩

/-- A window read: the active slot's hook, then the byte. -/
theorem State.winReadEvent_spec {s : State} (h : s.Inv) (addr : Addr) : ∃ t, s.winReadEvent addr = .ok t ∧ s.SameFrame t ∧
    t.slot s.active = (s.slot s.active).moved (hookNext (s.slot s.active) addr false 0#8) ∧
    (∀ tl, tl ≠ s.active → t.slot tl = s.slot tl) ∧
    t.out = { s.out with
      data := some (winRead t.window addr.toNat)
      commands := s.out.commands ++ slotCommands s s.active (hookNext (s.slot s.active) addr false 0#8) } ∧
    t.window = (slotCommands s s.active (hookNext (s.slot s.active) addr false 0#8)).foldl Window.apply s.window ∧
    t.Inv ∧ s.StillShows t ∧
    (hookNext (s.slot s.active) addr false 0#8 = (s.slot s.active).state → t = s.giveData (winRead s.window addr.toNat)) := by
  by_cases hk : (s.slot s.active).kind = .none
  · have hf : firesHook (s.slot s.active) addr = false := by simp [firesHook, hk]
    exact ⟨s.giveData (winRead s.window addr.toNat), by simp [State.winReadEvent, hk], ⟨⟨rfl, rfl, rfl, rfl⟩, rfl, rfl⟩,
      by simp [Slot.moved, hk], by simp, by simp [hookNext_of_not_fires hf, slotCommands_self],
      by simp [hookNext_of_not_fires hf, slotCommands_self], h.giveData _, (State.StillShows.refl s).giveData _,
      fun _ => rfl⟩
  · obtain ⟨t, ht, hkept, hself, hother, hinv, hcoh, hcmd, hno⟩ := State.fireHook_spec h hk addr false 0#8
    exact ⟨t.giveData (winRead t.window addr.toNat), by simp [State.winReadEvent, hk, ht],
      hkept.frame.trans ⟨⟨rfl, rfl, rfl, rfl⟩, rfl, rfl⟩, by simp [Slot.moved_of_occupied hk, hself], fun tl htl => by simp [hother tl htl],
      by simp [hcmd], hkept.window (by rw [hcmd]), hinv.giveData _, hcoh.giveData _, fun hf => by rw [hno hf]⟩

/-! ### A RAM store -/

theorem bufRead_stored {x : Slot} {b : List Byte} (hb : x.buffer = some b) {off : Nat} (hoff : off < b.length) (v : Byte) (o : Nat) :
    bufRead { x with buffer := x.buffer.map (·.set off v) } o = if o = off then some v else bufRead x o := by
  simp only [bufRead, hb, Option.map_some, Option.getD_some, List.getElem?_set]
  by_cases h : off = o
  · subst h; simp [hoff]
  · simp [h, Ne.symm h]

@[simp] theorem State.stored_machine (s : State) (addr off v) : (s.stored addr off v).machine = s.machine := by simp [State.stored]
@[simp] theorem State.stored_sdxPbMask (s : State) (addr off v) : (s.stored addr off v).sdxPbMask = s.sdxPbMask := by simp [State.stored]
@[simp] theorem State.stored_active (s : State) (addr off v) : (s.stored addr off v).active = s.active := by simp [State.stored]
@[simp] theorem State.stored_out (s : State) (addr off v) : (s.stored addr off v).out = s.out := by simp [State.stored]

theorem State.stored_slot (s : State) (addr off v) : (s.stored addr off v).slot s.active =
    { s.slot s.active with buffer := (s.slot s.active).buffer.map (·.set off v) } := by
  have : (s.stored addr off v).slot s.active = (s.setSlot s.active
    { s.slot s.active with buffer := (s.slot s.active).buffer.map (·.set off v) }).slot s.active := by
    unfold State.stored; cases s.active <;> rfl
  rw [this, State.setSlot_slot]

theorem State.stored_slot_ne (s : State) (addr off v) {tl : SlotName} (h : tl ≠ s.active) :
    (s.stored addr off v).slot tl = s.slot tl := by
  have : (s.stored addr off v).slot tl = (s.setSlot s.active
    { s.slot s.active with buffer := (s.slot s.active).buffer.map (·.set off v) }).slot tl := by
    unfold State.stored; cases tl <;> rfl
  rw [this, State.setSlot_slot_ne _ _ _ h]

theorem State.stored_window (s : State) (addr off v) : (s.stored addr off v).window =
    { s.window with bytes := memWrite s.window.bytes addr.toNat [v] } := by simp [State.stored]

theorem winRead_stored (w : Window) (addr : Addr) (v : Byte) (a : Nat) :
    winRead { w with bytes := memWrite w.bytes addr.toNat [v] } a =
      if w.isOn a = true ∧ a = addr.toNat then v else winRead w a := by
  have hon : Window.isOn { w with bytes := memWrite w.bytes addr.toNat [v] } a = w.isOn a := rfl
  simp only [winRead, hon, memRead_memWrite, List.length_singleton]
  by_cases ha : a = addr.toNat
  · subst ha
    cases w.isOn addr.toNat <;> simp
  · have h1 : ¬(addr.toNat ≤ a ∧ a < addr.toNat + 1) := by omega
    have h2 : ¬(w.isOn a = true ∧ a = addr.toNat) := fun h => ha h.2
    rw [if_neg h1, if_neg h2]

theorem mappingOf_buffer (m : MachineKind) (x : Slot) (b : Option (List Byte)) : mappingOf m { x with buffer := b } = mappingOf m x := rfl

theorem segmentOf_buffer (m : MachineKind) (x : Slot) (b : Option (List Byte)) (a : Nat) :
    segmentOf m { x with buffer := b } a = segmentOf m x a := rfl

/-- Where a good marked state marks an address as RAM, the active slot's mapping has a RAM segment there and its buffer has the byte. -/
theorem State.ram_segment {s : State} (h : s.Inv) (hc : s.Marked) {addr : Addr} {off : Nat} (ho : storeOffset s addr = some off) :
    ∃ r g b, (s.slot s.active).kind ≠ .none ∧ firesHook (s.slot s.active) addr = false ∧
      (descr (s.slot s.active).kind).ram = some r ∧ s.window.isOn addr.toNat = true ∧ s.window.isRam addr.toNat = true ∧
      r.storesIn (s.slot s.active).state = true ∧ off = r.scatter (s.slot s.active).state addr.toNat ∧
      segmentOf s.machine (s.slot s.active) addr.toNat = some g ∧ g.content = .ram ∧
      (s.slot s.active).buffer = some b ∧ off < b.length := by
  unfold storeOffset at ho
  split at ho
  · cases ho
  · rename_i hcond
    rw [not_or] at hcond
    obtain ⟨hk, hf⟩ := hcond
    simp only [Bool.not_eq_true] at hf
    have hx := h.slot s.active
    cases hr : (descr (s.slot s.active).kind).ram with
    | none => rw [hr] at ho; cases ho
    | some r =>
      rw [hr, Option.bind_some] at ho
      split at ho
      · rename_i hb
        cases ho
        simp only [Bool.and_eq_true] at hb
        obtain ⟨⟨hon, hram⟩, hst⟩ := hb
        have hin : inWindow s.machine addr.toNat = true := h.inside.ram _ (by simpa [Window.isRam] using hram)
        have hs := hc.ram _ hin
        rw [hram] at hs
        cases hg : segmentOf s.machine (s.slot s.active) addr.toNat with
        | none => rw [hg] at hs; cases hs
        | some g =>
          rw [hg] at hs
          simp only [shownRam] at hs
          have hcon : g.content = .ram := by simpa using hs.symm
          obtain ⟨hmem, hhas⟩ := segmentOf_some hx hk hg
          obtain ⟨r', hr', hlt⟩ := (hx.wf hk).ramBound _ g hmem hcon
          rw [hr] at hr'
          cases hr'
          obtain ⟨b, hbuf, hlen⟩ := hx.buffer hk
          exact ⟨r, g, b, hk, hf, rfl, hon, hram, hst, rfl, rfl, hcon, hbuf, by rw [hlen]; exact hlt _ hhas⟩
      · cases ho

/-- A RAM store keeps a good marked state good and marked, and a coherent one coherent: the scatter function is injective on what is
mapped (41_type_descriptors.md R91), and no ROM segment shows the byte (`Slot.Inv.apart`). -/
theorem State.stored_good {s : State} (h : s.Inv) (hm : s.Marked) {addr : Addr} {off : Nat} (ho : storeOffset s addr = some off) (v : Byte) :
    (s.stored addr off v).Inv ∧ (s.stored addr off v).Marked ∧
    (s.Coherent → (s.stored addr off v).Coherent) := by
  obtain ⟨r, g, b, hk, -, hr, hon, hram, -, hoff, hg, hcon, hbuf, hlt⟩ := State.ram_segment h hm ho
  have hx := h.slot s.active
  have hin : inWindow s.machine addr.toNat = true := h.inside.ram _ (by simpa [Window.isRam] using hram)
  have hxinv : Slot.Inv s.machine { s.slot s.active with buffer := (s.slot s.active).buffer.map (·.set off v) } :=
    ⟨fun h' => absurd h' hk, fun _ => by
        obtain ⟨b', hb', hl⟩ := hx.buffer hk
        exact ⟨b'.set off v, by rw [hb']; rfl, by rw [List.length_set, hl]⟩, hx.positive, hx.size, hx.machine, hx.lines, hx.writable⟩
  have hslots : ∀ sl, ((s.stored addr off v).slot sl).Inv s.machine := fun sl => by
    by_cases hsl : sl = s.active
    · subst hsl; rw [State.stored_slot]; exact hxinv
    · rw [State.stored_slot_ne _ _ _ _ hsl]; exact h.slot sl
  have hkind : ∀ sl, ((s.stored addr off v).slot sl).kind = (s.slot sl).kind ∧
      ((s.stored addr off v).slot sl).state = (s.slot sl).state := fun sl => by
    by_cases hsl : sl = s.active
    · subst hsl; rw [State.stored_slot]; exact ⟨rfl, rfl⟩
    · rw [State.stored_slot_ne _ _ _ _ hsl]; exact ⟨rfl, rfl⟩
  have hpk := hkind .P
  have hgk := hkind .G
  simp only [State.slot_P, State.slot_G] at hpk hgk
  refine ⟨⟨by rw [State.stored_machine]; exact hslots .P, by rw [State.stored_machine]; exact hslots .G, by rw [hpk.1, hgk.1]; exact h.chained, ?_, ?_, ?_⟩, ?_, ?_⟩
  · simp only [State.stored_active, State.stored_sdxPbMask, activeOf, hpk.1, hpk.2, hgk.1]
    exact h.active
  · rw [State.stored_window]
    exact ⟨h.window.1, h.window.2.1, memWrite_wf h.window.2.2 _ _⟩
  · rw [State.stored_window, State.stored_machine]
    refine ⟨h.inside.en, h.inside.ram, fun c hcm => ?_⟩
    rcases mem_memWrite hcm with hcm | hcm
    · exact h.inside.bytes c hcm
    · have : c.1 = addr.toNat := by simp only [List.length_singleton] at hcm; omega
      rw [this]; exact hin
  · rw [State.marked_iff] at hm ⊢
    rw [State.stored_machine, State.stored_active, State.stored_slot, State.stored_window]
    exact hm
  · intro hc
    rw [State.coherent_iff] at hc ⊢
    rw [State.stored_machine, State.stored_active, State.stored_slot, State.stored_window]
    intro a ha
    obtain ⟨h1, h2, h3⟩ := hc a ha
    refine ⟨h1, h2, ?_⟩
    rw [winRead_stored]
    simp only [shownByte, segmentOf_buffer] at h3 ⊢
    by_cases haa : a = addr.toNat
    · subst haa
      rw [hg]
      simp only [hon, and_self, if_true, Segment.byteAt, hcon, hr, Option.bind_some, ← hoff, bufRead_stored hbuf hlt]
    · simp only [haa, and_false, if_false, h3]
      cases hga : segmentOf s.machine (s.slot s.active) a with
      | none => rfl
      | some g' =>
        obtain ⟨hmem, hhas⟩ := segmentOf_some hx hk hga
        obtain ⟨hmem0, hhas0⟩ := segmentOf_some hx hk hg
        simp only [Segment.byteAt]
        cases hcon' : g'.content with
        | disabled => rfl
        | fill => rfl
        | ram =>
          simp only [hr, Option.bind_some, bufRead_stored hbuf hlt]
          rw [if_neg]
          intro heq
          rw [hoff] at heq
          exact haa ((hx.wf hk).ramInjective _ r hr a addr.toNat ⟨g', hmem, hhas, hcon'⟩ ⟨g, hmem0, hhas0, hcon⟩ heq)
        | romAt o =>
          simp only [bufRead_stored hbuf hlt]
          rw [if_neg]
          intro heq
          rw [hoff] at heq
          exact hx.apart a addr.toNat g' o r hga hcon' hr (by rw [hg]; simp [shownRam, hcon]) heq.symm

/-- A window write from a good marked state: the hook of the active slot, or a store of one byte, or nothing. -/
theorem State.winWriteEvent_spec {s : State} (h : s.Inv) (hm : s.Marked) (addr : Addr) (v : Byte) : ∃ t,
    s.winWriteEvent addr v = .ok t ∧ s.SameFrame t ∧ t.Inv ∧ t.Marked ∧ (s.Coherent → t.Coherent) ∧
    (∀ tl, tl ≠ s.active → t.slot tl = s.slot tl) ∧
    (firesHook (s.slot s.active) addr = true →
      t.slot s.active = (s.slot s.active).moved (hookNext (s.slot s.active) addr true v) ∧
      t.out = s.out.issued (slotCommands s s.active (hookNext (s.slot s.active) addr true v)) ∧
      t.window = (slotCommands s s.active (hookNext (s.slot s.active) addr true v)).foldl Window.apply s.window) ∧
    (firesHook (s.slot s.active) addr = false → t = match storeOffset s addr with
      | some off => s.stored addr off v
      | Option.none => s) := by
  have hsame : s.SameFrame s := ⟨⟨rfl, rfl, rfl, rfl⟩, rfl, rfl⟩
  by_cases hk : (s.slot s.active).kind = .none
  · exact ⟨s, by simp [State.winWriteEvent, hk], hsame, h, hm, fun hc => hc, fun _ _ => rfl, fun hf => by simp [firesHook, hk] at hf,
      fun _ => by simp [storeOffset, hk]⟩
  · cases hf : firesHook (s.slot s.active) addr with
    | true =>
      obtain ⟨t, ht, hkept, hself, hother, hinv, hcoh, hcmd, -⟩ := State.fireHook_spec h hk addr true v
      refine ⟨t, ?_, hkept.frame, hinv, hcoh.marked hm, hcoh.coherent, hother, fun _ => ⟨?_, hcmd, hkept.window (by rw [hcmd])⟩, fun hf' => by cases hf'⟩
      · simp only [firesHook, hk, ne_eq, not_false_eq_true, decide_true, Bool.true_and] at hf
        simp [State.winWriteEvent, hk, hf, ht]
      · rw [hself, Slot.moved_of_occupied hk]
    | false =>
      have hf' := hf
      simp only [firesHook, hk, ne_eq, not_false_eq_true, decide_true, Bool.true_and] at hf'
      cases ho : storeOffset s addr with
      | none =>
        refine ⟨s, ?_, hsame, h, hm, fun hc => hc, fun _ _ => rfl, (fun hf' => by cases hf'), fun _ => rfl⟩
        simp only [storeOffset, hk, hf, false_or, Bool.false_eq_true, if_false] at ho
        simp only [State.winWriteEvent, hk, if_false, hf', Bool.false_eq_true]
        cases hr : (descr (s.slot s.active).kind).ram with
        | none => rfl
        | some r =>
          simp only [hr, Option.bind_some] at ho ⊢
          split at ho
          · cases ho
          · rename_i hb
            split
            · rename_i hb'
              simp only [hb', Bool.true_and, Bool.not_eq_true] at hb
              simp [State.ramStore, hb]
            · rfl
      | some off =>
        obtain ⟨r, g, b, -, -, hr, hon, hram, hst, hoff, -, -, hbuf, hlt⟩ := State.ram_segment h hm ho
        obtain ⟨hinv, hmark, hcoh⟩ := State.stored_good h hm ho v
        refine ⟨s.stored addr off v, ?_, ?_, hinv, hmark, hcoh, fun tl htl => State.stored_slot_ne _ _ _ _ htl, (fun hf' => by cases hf'),
          fun _ => rfl⟩
        · simp only [State.winWriteEvent, hk, if_false, hf', Bool.false_eq_true, hr, hon, hram, Bool.and_self, if_true, State.ramStore, hst,
            ← hoff, bufWrite, hbuf, hlt, State.stored, Option.map_some]
        · exact ⟨⟨by simp [State.stored], by simp [State.stored], by simp [State.stored], by simp [State.stored]⟩, by simp [State.stored], by simp [State.stored]⟩

/-- A RAM store that answers keeps a good state good, whatever the window image shows. -/
theorem State.ramStore_inv {s t : State} (h : s.Inv) {sl : SlotName} {r : RamOps} {addr : Addr} {v : Byte}
    (hw : inWindow s.machine addr.toNat = true) (ht : s.ramStore sl r addr v = .ok t) : t.Inv ∧ s.SameFrame t := by
  unfold State.ramStore at ht
  split at ht
  · cases hb : (s.slot sl).buffer with
    | none => simp [bufWrite, hb] at ht
    | some b =>
      by_cases hlt : r.scatter (s.slot sl).state addr.toNat < b.length
      · simp only [bufWrite, hb, hlt, if_true] at ht
        cases ht
        have hx := h.slot sl
        have hk : (s.slot sl).kind ≠ .none := fun hk => by
          rw [hx.empty hk] at hb
          cases hb
        have hlen : b.length = (s.slot sl).sizeKb * Config.kiloByte := by
          obtain ⟨b', hb', hl⟩ := hx.buffer hk
          rw [hb] at hb'
          cases hb'
          exact hl
        have hxinv : Slot.Inv s.machine { s.slot sl with buffer := some (b.set (r.scatter (s.slot sl).state addr.toNat) v) } :=
          ⟨fun h' => absurd h' hk, fun _ => ⟨_, rfl, by rw [List.length_set]; exact hlen⟩, hx.positive, hx.size, hx.machine, hx.lines,
            hx.writable⟩
        have hin : ∀ c ∈ memWrite s.window.bytes addr.toNat [v], inWindow s.machine c.1 = true := fun c hc => by
          rcases mem_memWrite hc with hc | hc
          · exact h.inside.bytes c hc
          · rw [List.length_singleton] at hc
            have : c.1 = addr.toNat := by omega
            rw [this]; exact hw
        refine ⟨?_, ⟨⟨by simp, by simp, by simp, by simp⟩, by simp, by simp⟩⟩
        cases sl with
        | P =>
          exact ⟨by simpa using hxinv, by simpa using h.g, by simpa using h.chained, h.active,
            ⟨h.window.1, h.window.2.1, memWrite_wf h.window.2.2 _ _⟩, ⟨h.inside.en, h.inside.ram, hin⟩⟩
        | G =>
          exact ⟨by simpa using h.p, by simpa using hxinv, by simpa using h.chained, h.active,
            ⟨h.window.1, h.window.2.1, memWrite_wf h.window.2.2 _ _⟩, ⟨h.inside.en, h.inside.ram, hin⟩⟩
      · simp [bufWrite, hb, hlt] at ht
  · cases ht
    exact ⟨h, ⟨⟨rfl, rfl, rfl, rfl⟩, rfl, rfl⟩⟩

/-- A window write that answers keeps a good state good. -/
theorem State.winWriteEvent_inv {s t : State} (h : s.Inv) {addr : Addr} {v : Byte} (ht : s.winWriteEvent addr v = .ok t) :
    t.Inv ∧ s.SameFrame t := by
  have hsame : s.Inv ∧ s.SameFrame s := ⟨h, ⟨⟨rfl, rfl, rfl, rfl⟩, rfl, rfl⟩⟩
  unfold State.winWriteEvent at ht
  split at ht
  · cases ht; exact hsame
  · rename_i hk
    split at ht
    · obtain ⟨u, hu, hkept, -, -, hinv, -⟩ := State.fireHook_spec h hk addr true v
      rw [hu] at ht
      cases ht
      exact ⟨hinv, hkept.frame⟩
    · split at ht
      · cases ht; exact hsame
      · split at ht
        · rename_i hb
          simp only [Bool.and_eq_true] at hb
          exact State.ramStore_inv h (h.inside.ram _ (by simpa [Window.isRam] using hb.2)) ht
        · cases ht; exact hsame

end Sys2Proof.Machine
end

