-- ==== Sys2Proof/Laws/PerInstr.lean ====
section
/-! SUPPORT. The per-instruction family `RowMatch`: the word that encodes a well-formed bus instruction matches the instruction's own row of
spec/opcode_table.json on its machine, and a host command is encoded by a code below 10 (30_encoding.md R55, R64). -/

namespace Sys2Proof.Laws.RowMatch

open Sys2Proof Sys2Proof.Machine

/-- What the family says of one instruction. -/
def Statement (i : Instr) : Prop :=
  match i.busRow, encode i with
  | some r, .bus word => ∀ m, i.wf m = true → r.matchesWord m word = true
  | none, .host code _ => code.toNat < 10
  | _, _ => False

/-- The four rows of the control page. -/
theorem page (p w : Bool) (addr : Addr) (data : Byte) (m : MachineKind) (h : busRegion m addr = .controlPage) :
    (BusRow.page p w).matchesWord m (busWord p w addr data) = true := by
  have h1 := data.isLt
  have h2 := addr.isLt
  have hr := busRegion_holds m addr
  simp only [h, BusRegion.Holds] at hr
  simp only [BusRow.page_eq, formBits, BusRow.matchesWord, true_or, decide_true, Bool.true_and, decide_eq_true_eq, and_page, busWord_toNat]
  cases p <;> cases w <;> simp only [Bool.toNat_true, Bool.toNat_false] <;> omega

/-- The four rows of the shared window addresses. -/
theorem window (p w : Bool) (addr : Addr) (data : Byte) (m : MachineKind) (h : busRegion m addr = .window) :
    (BusRow.window p w).matchesWord m (busWord p w addr data) = true := by
  have h1 := data.isLt
  have h2 := addr.isLt
  have hr := busRegion_holds m addr
  simp only [h, BusRegion.Holds] at hr
  simp only [BusRow.window_eq, formBits, BusRow.matchesWord, true_or, decide_true, Bool.true_and, decide_eq_true_eq, and_window, busWord_toNat]
  cases p <;> cases w <;> simp only [Bool.toNat_true, Bool.toNat_false] <;> omega

/-- The four rows of the window addresses of the 5200 machine. -/
theorem window5200 (p w : Bool) (addr : Addr) (data : Byte) (m : MachineKind) (h : busRegion m addr = .window5200) :
    (BusRow.window5200 p w).matchesWord m (busWord p w addr data) = true := by
  have h1 := data.isLt
  have h2 := addr.isLt
  have hr := busRegion_holds m addr
  simp only [h, BusRegion.Holds] at hr
  simp only [BusRow.window5200_eq, formBits, BusRow.matchesWord, hr.1, reduceCtorEq, false_or, decide_true, Bool.true_and, decide_eq_true_eq, and_window, busWord_toNat]
  cases p <;> cases w <;> simp only [Bool.toNat_true, Bool.toNat_false] <;> omega

/-- The row below the windows. -/
theorem below (p w : Bool) (addr : Addr) (data : Byte) (m : MachineKind) (h : busRegion m addr = .below) :
    (BusRow.other none belowBlock).matchesWord m (busWord p w addr data) = true := by
  have h1 := data.isLt
  have h2 := addr.isLt
  have hr := busRegion_holds m addr
  simp only [h, BusRegion.Holds] at hr
  simp only [BusRow.below_eq, BusRow.matchesWord, true_or, decide_true, Bool.true_and, decide_eq_true_eq, and_quarter, busWord_toNat]
  cases p <;> cases w <;> simp only [Bool.toNat_true, Bool.toNat_false] <;> omega

/-- The row of the 5200 window addresses on the other machine. -/
theorem between (p w : Bool) (addr : Addr) (data : Byte) (m : MachineKind) (h : busRegion m addr = .between) :
    (BusRow.other (some .xlxe) only5200Block).matchesWord m (busWord p w addr data) = true := by
  have h1 := data.isLt
  have h2 := addr.isLt
  have hr := busRegion_holds m addr
  simp only [h, BusRegion.Holds] at hr
  simp only [BusRow.between_eq, BusRow.matchesWord, hr.1, reduceCtorEq, false_or, decide_true, Bool.true_and, decide_eq_true_eq, and_quarter, busWord_toNat]
  cases p <;> cases w <;> simp only [Bool.toNat_true, Bool.toNat_false] <;> omega

/-- The row above the windows. -/
theorem above (p w : Bool) (addr : Addr) (data : Byte) (m : MachineKind) (h : busRegion m addr = .above) :
    (BusRow.other none aboveBlock).matchesWord m (busWord p w addr data) = true := by
  have h1 := data.isLt
  have h2 := addr.isLt
  have hr := busRegion_holds m addr
  simp only [h, BusRegion.Holds] at hr
  simp only [BusRow.above_eq, BusRow.matchesWord, true_or, decide_true, Bool.true_and, decide_eq_true_eq, and_quarter, busWord_toNat]
  cases p <;> cases w <;> simp only [Bool.toNat_true, Bool.toNat_false] <;> omega

theorem ctrlRd (addr : Addr) (data : Byte) : Statement (.ctrlRd addr data) := fun m h => page false false addr data m (of_decide_eq_true h)

theorem ctrlRdPeek (addr : Addr) (data : Byte) : Statement (.ctrlRdPeek addr data) := fun m h => page true false addr data m (of_decide_eq_true h)

theorem ctrlWr (addr : Addr) (data : Byte) : Statement (.ctrlWr addr data) := fun m h => page false true addr data m (of_decide_eq_true h)

theorem ctrlWrPeek (addr : Addr) (data : Byte) : Statement (.ctrlWrPeek addr data) := fun m h => page true true addr data m (of_decide_eq_true h)

theorem winRd (addr : Addr) (data : Byte) : Statement (.winRd addr data) := fun m h => window false false addr data m (of_decide_eq_true h)

theorem winRdPeek (addr : Addr) (data : Byte) : Statement (.winRdPeek addr data) := fun m h => window true false addr data m (of_decide_eq_true h)

theorem winWr (addr : Addr) (data : Byte) : Statement (.winWr addr data) := fun m h => window false true addr data m (of_decide_eq_true h)

theorem winWrPeek (addr : Addr) (data : Byte) : Statement (.winWrPeek addr data) := fun m h => window true true addr data m (of_decide_eq_true h)

theorem winRdLo5200 (addr : Addr) (data : Byte) : Statement (.winRdLo5200 addr data) := fun m h => window5200 false false addr data m (of_decide_eq_true h)

theorem winRdPeekLo5200 (addr : Addr) (data : Byte) : Statement (.winRdPeekLo5200 addr data) := fun m h => window5200 true false addr data m (of_decide_eq_true h)

theorem winWrLo5200 (addr : Addr) (data : Byte) : Statement (.winWrLo5200 addr data) := fun m h => window5200 false true addr data m (of_decide_eq_true h)

theorem winWrPeekLo5200 (addr : Addr) (data : Byte) : Statement (.winWrPeekLo5200 addr data) := fun m h => window5200 true true addr data m (of_decide_eq_true h)

theorem busOtherQ0 (p w : Bool) (addr : Addr) (data : Byte) : Statement (.busOtherQ0 p w addr data) := fun m h =>
  below p w addr data m (of_decide_eq_true h)

theorem busOtherQ1 (p w : Bool) (addr : Addr) (data : Byte) : Statement (.busOtherQ1 p w addr data) := fun m h =>
  between p w addr data m (of_decide_eq_true h)

theorem busOtherQ3 (p w : Bool) (addr : Addr) (data : Byte) : Statement (.busOtherQ3 p w addr data) := fun m h =>
  above p w addr data m (of_decide_eq_true h)

theorem insert (slot : SlotName) (kind : KindArg) (bytes : List Byte) (path : Text) (raw : Bool) : Statement (.insert slot kind bytes path raw) := by show (_ : Nat) < 10; decide

theorem remove (slot : SlotName) : Statement (.remove slot) := by show (_ : Nat) < 10; decide

theorem coldStart : Statement .coldStart := by show (_ : Nat) < 10; decide

theorem lineRemap (slot : SlotName) : Statement (.lineRemap slot) := by show (_ : Nat) < 10; decide

theorem saveState : Statement .saveState := by show (_ : Nat) < 10; decide

theorem restoreState (record : List SaveEntry) (files : List FileAt) : Statement (.restoreState record files) := by show (_ : Nat) < 10; decide

theorem readImage (file : Option (List Byte)) : Statement (.readImage file) := by show (_ : Nat) < 10; decide

theorem writeImage (path : Text) (kind : Kind) (buf : Option (List Byte)) (raw : Bool) : Statement (.writeImage path kind buf raw) := by show (_ : Nat) < 10; decide

theorem remap (slot : SlotName) : Statement (.remap slot) := by show (_ : Nat) < 10; decide

theorem fullRemap : Statement .fullRemap := by show (_ : Nat) < 10; decide

end Sys2Proof.Laws.RowMatch
end

