-- ==== Sys2Proof/Laws/SlotOps.lean ====
section
/-! SUPPORT. One spec lemma for each slot operation: each is an explicit change of the two records followed by one full remap. -/

namespace Sys2Proof.Machine

/-! ### What a full remap needs -/

/-- What a full remap needs of a state: good records, a canonical window image, no piggyback behind an empty primary. -/
structure State.Ready (s : State) : Prop where
  p       : s.p.Inv s.machine
  g       : s.g.Inv s.machine
  chained : s.g.kind ≠ .none → s.p.kind ≠ .none
  window  : s.window.wf
  inside  : s.window.Inside s.machine

theorem State.Inv.ready {s : State} (h : s.Inv) : s.Ready := ⟨h.p, h.g, h.chained, h.window, h.inside⟩

theorem State.Ready.slot {s : State} (h : s.Ready) (sl : SlotName) : (s.slot sl).Inv s.machine := by
  cases sl
  · exact h.p
  · exact h.g

/-- What one full remap issues: every window of the machine off, then the mapping of the new active slot (43_remap.md R141). -/
theorem State.fullRemap_out {s t : State} (h : s.fullRemap = .ok t) :
    t.out = s.out.issued (disableCommands s.machine ++ shownCommands s.machine (t.slot t.active)) ∧
    t.window = (disableCommands s.machine ++ shownCommands s.machine (t.slot t.active)).foldl Window.apply s.window := by
  have hslot : ∀ sl, State.slot { s with active := activeOf s.sdxPbMask s.p s.g } sl = s.slot sl := fun sl => by cases sl <;> rfl
  have ht := State.fullRemap_ok h
  have hs : t.slot t.active = s.slot (activeOf s.sdxPbMask s.p s.g) := by rw [ht]; simp [hslot]
  rw [hs, ht]
  simp

/-- A full remap of a ready state gives a good and coherent one with the same records, by the commands of one full remap. -/
theorem State.Ready.fullRemap {s : State} (h : s.Ready) : ∃ t, s.fullRemap = .ok t ∧ s.Kept t ∧ t.p = s.p ∧ t.g = s.g ∧ t.Inv ∧
    t.Coherent ∧ t.out = s.out.issued (disableCommands s.machine ++ shownCommands s.machine (t.slot t.active)) ∧
    t.window = (disableCommands s.machine ++ shownCommands s.machine (t.slot t.active)).foldl Window.apply s.window := by
  obtain ⟨t, ht, hk, hp, hg, ha, hw, hi, hc⟩ := State.fullRemap_spec h.p h.g h.window h.inside
  exact ⟨t, ht, hk, hp, hg, ⟨by rw [hp, hk.machine]; exact h.p, by rw [hg, hk.machine]; exact h.g, by rw [hp, hg]; exact h.chained,
    by rw [ha, hp, hg, hk.sdxPbMask], hw, by rw [hk.machine]; exact hi⟩, hc, State.fullRemap_out ht⟩

theorem Slot.empty_inv (m : MachineKind) : Slot.empty.Inv m :=
  ⟨fun _ => rfl, fun h => absurd rfl h, fun h => absurd rfl h, fun h => absurd rfl h, fun h => absurd rfl h, fun _ _ h => absurd rfl h,
    fun h => by cases h⟩

/-! ### Removal -/

variable (s : State) (sl tl : SlotName)

@[simp] theorem State.writtenBack_machine : (s.writtenBack sl).machine = s.machine := by unfold State.writtenBack; split <;> rfl
@[simp] theorem State.writtenBack_autoreboot : (s.writtenBack sl).autoreboot = s.autoreboot := by unfold State.writtenBack; split <;> rfl
@[simp] theorem State.writtenBack_loader : (s.writtenBack sl).loader = s.loader := by unfold State.writtenBack; split <;> rfl
@[simp] theorem State.writtenBack_sdxPbMask : (s.writtenBack sl).sdxPbMask = s.sdxPbMask := by unfold State.writtenBack; split <;> rfl
@[simp] theorem State.writtenBack_p : (s.writtenBack sl).p = s.p := by unfold State.writtenBack; split <;> rfl
@[simp] theorem State.writtenBack_g : (s.writtenBack sl).g = s.g := by unfold State.writtenBack; split <;> rfl
@[simp] theorem State.writtenBack_slot : (s.writtenBack sl).slot tl = s.slot tl := by unfold State.writtenBack; split <;> simp
@[simp] theorem State.writtenBack_active : (s.writtenBack sl).active = s.active := by unfold State.writtenBack; split <;> rfl
@[simp] theorem State.writtenBack_window : (s.writtenBack sl).window = s.window := by unfold State.writtenBack; split <;> rfl
@[simp] theorem State.writtenBack_input : (s.writtenBack sl).input = s.input := by unfold State.writtenBack; split <;> rfl

variable {s : State}

/-- `remove_one(s)` of a good record: the write-back, and the empty record. -/
theorem State.removeOne_spec {sl : SlotName} (h : (s.slot sl).Inv s.machine) :
    s.removeOne sl = .ok ((s.writtenBack sl).setSlot sl Slot.empty) := by
  unfold State.removeOne
  by_cases hk : (s.slot sl).kind = .none
  · have hw : s.writtenBack sl = s := by
      have : (descr (s.slot sl).kind).nonvolatile = false := by rw [hk]; rfl
      simp [State.writtenBack, this]
    have : s.setSlot sl Slot.empty = s := by rw [← h.empty hk, State.setSlot_self]
    simp [hk, hw, this]
  · by_cases hn : (descr (s.slot sl).kind).nonvolatile = true
    · simp [hk, hn, h.writable hn, State.writtenBack]
    · simp [hk, hn, State.writtenBack]

/-- Writing a slot back and emptying it leaves a ready state ready, if the piggyback is not left behind. -/
theorem State.Ready.emptied (h : s.Ready) {sl : SlotName} (hsl : sl = .P → s.g.kind = .none) :
    ((s.writtenBack sl).setSlot sl Slot.empty).Ready := by
  cases sl with
  | P => exact ⟨Slot.empty_inv _, by simpa using h.g, fun hg => absurd (by simpa using hsl rfl) hg, by simpa using h.window, by simpa using h.inside⟩
  | G => exact ⟨by simpa using h.p, Slot.empty_inv _, fun hg => absurd rfl hg, by simpa using h.window, by simpa using h.inside⟩

/-! ### Insertion -/

theorem LineMap.decoded_length (lm : LineMap) (old : List Byte) : (lm.decoded old).length = old.length := by simp [LineMap.decoded]

theorem keptBytes_length (kind : Kind) (bytes : List Byte) : (keptBytes kind bytes).length = bytes.length := by
  unfold keptBytes
  split
  · rfl
  · exact LineMap.decoded_length _ _

/-- What it means that no precondition of an insertion fails (45_slot_operations.md R168). -/
theorem insertFailure_none {sl : SlotName} {kind : Kind} {bytes : List Byte} (h : insertFailure s sl kind bytes = Option.none) :
    kind ≠ .none ∧ bytes.length ≠ 0 ∧ bytes.length = bytes.length / Config.kiloByte * Config.kiloByte ∧
    acceptsSize kind (bytes.length / Config.kiloByte) = true ∧ acceptsMachine kind s.machine = true ∧
    (∀ lm, lineMapOf kind = some lm → lm.fits bytes.length = true) ∧ (sl = .G → s.p.kind ≠ .none) ∧
    ((descr kind).nonvolatile = true → lineMapOf kind = Option.none) := by
  unfold insertFailure at h
  repeat' split at h
  all_goals try cases h
  rename_i h1 h2 h3 h4 h5 h6 h7
  rw [not_or] at h2
  simp only [not_not] at h2
  refine ⟨h1, h2.1, by simp only [Config.kiloByte] at *; omega, by simpa using h3, by simpa using h4, fun lm hlm => ?_, fun hsl hp => h6 ⟨hsl, hp⟩, fun hn => ?_⟩
  · rw [hlm] at h5; simpa using h5
  · cases hl : lineMapOf kind with
    | none => rfl
    | some lm => exact absurd ⟨hn, by simp [hl]⟩ h7

/-- Whether an insertion is refused depends on the machine, the kind, the bytes, and, in the piggyback slot, on whether the primary is empty. -/
theorem insertFailure_eq {t u : State} (hm : u.machine = t.machine) {sl tl : SlotName} (hsl : sl = .G → t.p.kind ≠ .none)
    (htl : tl = .G → u.p.kind ≠ .none) (kind : Kind) (bytes : List Byte) : insertFailure u tl kind bytes = insertFailure t sl kind bytes := by
  have h1 : ¬(sl = .G ∧ t.p.kind = .none) := fun h => hsl h.1 h.2
  have h2 : ¬(tl = .G ∧ u.p.kind = .none) := fun h => htl h.1 h.2
  simp only [insertFailure, hm, h1, h2]

/-- The kind a type code denotes: in range, the type with that code (30_encoding.md R56). -/
theorem resolveKind_ok {ops : LoaderOps} {arg : KindArg} {kind : Kind} : resolveKind ops arg = .ok kind ↔
    arg = .named kind ∨ ∃ n, arg = .code n ∧ 1 ≤ n.toInt ∧ n.toInt ≤ ops.codeMax ∧ kindOfCode ops n = some kind := by
  cases arg with
  | named k => simp [resolveKind]
  | code n =>
    simp only [resolveKind, reduceCtorEq, false_or, KindArg.code.injEq, exists_eq_left']
    by_cases hr : n.toInt < 1 ∨ (ops.codeMax : Int) < n.toInt
    · simp only [hr, if_true, reduceCtorEq, false_iff]
      rintro ⟨h1, h2, -⟩
      rcases hr with hr | hr <;> omega
    · simp only [hr, if_false]
      cases hk : kindOfCode ops n with
      | none => simp
      | some k =>
        rw [not_or] at hr
        simp only [Except.ok.injEq, Option.some.injEq]
        exact ⟨fun h => ⟨by omega, by omega, h⟩, fun h => h.2.2⟩

/-- The kind with a code is the one, not `Unknown`, whose code it is (45_slot_operations.md R178, R180). -/
theorem kindOfCode_eq_some {ops : LoaderOps} {c : Code} {k : Kind} : kindOfCode ops c = some k ↔ k ≠ .unknown ∧ codeOf ops k = c := by
  have hpos : ∀ l : Kind, l.isType = true → ops.code l ≠ 0#32 := fun l hl h0 => by
    have := ops.positive l hl
    rw [h0] at this
    exact absurd this (by decide)
  have htype : ∀ l : Kind, l.isType = true ↔ l ≠ .none ∧ l ≠ .unknown := fun l => by cases l <;> simp [Kind.isType]
  unfold kindOfCode codeOf
  by_cases hc : c = 0#32
  · subst hc
    by_cases hk : k = .none
    · simp [hk]
    · simp only [if_true, Option.some.injEq, Ne.symm hk, if_neg hk, false_iff, not_and]
      exact fun hu => hpos k ((htype k).2 ⟨hk, hu⟩)
  · simp only [hc, if_false, ops.kindOf_iff, htype]
    by_cases hk : k = .none
    · simp [hk, Ne.symm hc]
    · simp [hk]

/-- Every kind but `Unknown` is found by its code. -/
theorem kindOfCode_codeOf {ops : LoaderOps} {k : Kind} (h : k ≠ .unknown) : kindOfCode ops (codeOf ops k) = some k :=
  kindOfCode_eq_some.2 ⟨h, rfl⟩

/-- A kind that is neither `None` nor `Unknown` has a code of at least 1. -/
theorem codeOf_positive {ops : LoaderOps} {k : Kind} (hn : k ≠ .none) (hu : k ≠ .unknown) : 0 < (codeOf ops k).toInt := by
  rw [codeOf, if_neg hn]
  exact ops.positive k (by cases k <;> first | rfl | contradiction)

/-- The record an insertion leaves is a good one. -/
theorem insertedSlot_inv {sl : SlotName} {kind : Kind} {bytes : List Byte} (h : insertFailure s sl kind bytes = Option.none) (path : Text)
    (raw : Bool) : (insertedSlot kind bytes path raw).Inv s.machine := by
  obtain ⟨h1, h2, h3, h4, h5, h6, _, h8⟩ := insertFailure_none h
  refine ⟨fun hk => absurd hk h1, fun _ => ⟨_, rfl, by rw [keptBytes_length]; exact h3⟩, fun _ => ?_, fun _ => h4, fun _ => h5,
    fun lm hlm _ => ?_, h8⟩
  · rw [insertedSlot]
    simp only [Config.kiloByte] at *
    omega
  · have := h6 lm hlm
    rw [h3] at this
    exact this

/-- `insert_quiet`: the write-back of what was there, and the new record. -/
theorem State.insertQuiet_spec {sl : SlotName} (hs : (s.slot sl).Inv s.machine) {kind : Kind} {bytes : List Byte}
    (h : insertFailure s sl kind bytes = Option.none) (path : Text) (raw : Bool) :
    s.insertQuiet sl kind bytes path raw = .ok ((s.writtenBack sl).setSlot sl (insertedSlot kind bytes path raw)) := by
  obtain ⟨h1, h2, h3, h4, h5, h6, _, h8⟩ := insertFailure_none h
  have hset : ∀ (u : State) (x y : Slot), (u.setSlot sl x).setSlot sl y = u.setSlot sl y := fun u x y => by cases sl <;> rfl
  simp only [State.insertQuiet, h, State.removeOne_spec hs, hset, State.lineRemap, State.setSlot_slot, freshSlot]
  cases hl : lineMapOf kind with
  | none => simp [hset, insertedSlot, keptBytes, hl]
  | some lm => simp [h6 lm hl, hset, insertedSlot, keptBytes, hl]

theorem State.Ready.inserted (h : s.Ready) {sl : SlotName} {kind : Kind} {bytes : List Byte} (hf : insertFailure s sl kind bytes = Option.none)
    (x : Slot) (hx : x.Inv s.machine) (hk : x.kind = kind) : ((s.writtenBack sl).setSlot sl x).Ready := by
  obtain ⟨h1, -, -, -, -, -, hP, -⟩ := insertFailure_none hf
  cases sl with
  | P => exact ⟨by simpa using hx, by simpa using h.g, fun _ => by simpa [hk] using h1, by simpa using h.window, by simpa using h.inside⟩
  | G => exact ⟨by simpa using h.p, by simpa using hx, fun _ => by simpa using hP rfl, by simpa using h.window, by simpa using h.inside⟩

/-! ### Restoring -/

/-- What a restore keeps of the state it works on: the parameters and the input. -/
structure State.Under (s t : State) : Prop extends State.SameParams s t where
  input : t.input = s.input

theorem State.Under.refl (s : State) : s.Under s := ⟨⟨rfl, rfl, rfl, rfl⟩, rfl⟩

theorem State.Under.trans {s t u : State} (h : s.Under t) (k : t.Under u) : s.Under u :=
  ⟨⟨k.machine.trans h.machine, k.autoreboot.trans h.autoreboot, k.loader.trans h.loader, k.sdxPbMask.trans h.sdxPbMask⟩, k.input.trans h.input⟩

theorem State.Under.written (s : State) (sl : SlotName) (x : Slot) : s.Under ((s.writtenBack sl).setSlot sl x) :=
  ⟨⟨by simp, by simp, by simp, by simp⟩, by simp⟩

theorem State.Kept.under {s t : State} (h : s.Kept t) : s.Under t := ⟨⟨h.machine, h.autoreboot, h.loader, h.sdxPbMask⟩, h.input⟩

/-- Restoring one slot from a loaded image (45_slot_operations.md R180). -/
theorem State.restoreSlot_spec {sl : SlotName} (hs : (s.slot sl).Inv s.machine) {k : Kind} {e : SaveEntry} {files : List FileAt} {bytes : List Byte}
    (hl : LoadResult.image (loadPath s.loaderOps files e.path) = some bytes) (hf : insertFailure s sl k bytes = Option.none) :
    s.restoreSlot sl k e files =
      .ok ((s.writtenBack sl).setSlot sl { insertedSlot k bytes e.path e.raw with state := e.state }, Option.none) := by
  have hset : ∀ (u : State) (x y : Slot), (u.setSlot sl x).setSlot sl y = u.setSlot sl y := fun u x y => by cases sl <;> rfl
  simp only [State.restoreSlot, hl, State.insertQuiet_spec hs hf, State.setSlot_slot, hset]

theorem State.restoreSlot_ready (h : s.Ready) {sl : SlotName} {k : Kind} {e : SaveEntry} {files : List FileAt} {t : State}
    {r : Option LoadResult} (ht : s.restoreSlot sl k e files = .ok (t, r)) : t.Ready ∧ s.Under t := by
  unfold State.restoreSlot at ht
  simp only at ht
  cases hl : LoadResult.image (loadPath s.loaderOps files e.path) with
  | none => rw [hl] at ht; cases ht; exact ⟨h, State.Under.refl _⟩
  | some bytes =>
    rw [hl] at ht
    cases hf : insertFailure s sl k bytes with
    | some f =>
      have : s.insertQuiet sl k bytes e.path e.raw = .error (.insert f) := by simp [State.insertQuiet, hf]
      simp only [this] at ht
      cases ht
    | none =>
      have h0 := State.restoreSlot_spec (h.slot sl) hl hf
      have hset : ∀ (u : State) (x y : Slot), (u.setSlot sl x).setSlot sl y = u.setSlot sl y := fun u x y => by cases sl <;> rfl
      simp only [State.insertQuiet_spec (h.slot sl) hf, State.setSlot_slot, hset] at ht
      cases ht
      have hk := (insertFailure_none hf).1
      exact ⟨h.inserted hf _ ((insertedSlot_inv hf e.path e.raw).setState hk _) rfl, State.Under.written _ _ _⟩

theorem State.restoreRecord_ready (h : s.Ready) {record : List SaveEntry} {files : List FileAt} {t : State} {r : Option LoadResult}
    (ht : s.restoreRecord record files = .ok (t, r)) : t.Ready ∧ s.Under t := by
  cases record with
  | nil => cases ht
  | cons e rest =>
    simp only [State.restoreRecord] at ht
    split at ht
    · cases ht; exact ⟨h, State.Under.refl _⟩
    · split at ht
      · cases ht
      · split at ht
        · cases ht
        · rename_i u r' hu
          cases ht
          exact State.restoreSlot_ready h hu
        · rename_i u hu
          obtain ⟨hur, hk⟩ := State.restoreSlot_ready h hu
          split at ht
          · unfold State.restorePiggyback at ht
            split at ht
            · cases ht
            · split at ht
              · cases ht
              · obtain ⟨a, b⟩ := State.restoreSlot_ready hur ht
                exact ⟨a, hk.trans b⟩
          · cases ht
            exact ⟨hur, hk⟩

/-- The end of a restore: the records kept or emptied, and the commands of one full remap. -/
theorem State.restoreEnd_spec (h : s.Ready) (r : Option LoadResult) : ∃ t, s.restoreEnd r = .ok t ∧ t.Inv ∧ t.Coherent ∧ s.Under t ∧
    t.ioCount = s.ioCount ∧
    t.window = (disableCommands s.machine ++ shownCommands s.machine (t.slot t.active)).foldl Window.apply s.window ∧
    (r = Option.none → t.p = s.p ∧ t.g = s.g ∧
      t.out = s.out.issued (disableCommands s.machine ++ shownCommands s.machine (t.slot t.active))) ∧
    (∀ e, r = some e → t.p = Slot.empty ∧ t.g = Slot.empty ∧
      t.out = Output.issued { s.out with load := some e } (disableCommands s.machine ++ shownCommands s.machine (t.slot t.active))) := by
  cases r with
  | none =>
    obtain ⟨t, ht, hk, hp, hg, hi, hc, ho, hw⟩ := h.fullRemap
    exact ⟨t, ht, hi, hc, hk.under, hk.ioCount, hw, fun _ => ⟨hp, hg, ho⟩, fun e he => by cases he⟩
  | some e =>
    have h' : State.Ready { s with p := Slot.empty, g := Slot.empty, out := { s.out with load := some e } } :=
      ⟨Slot.empty_inv _, Slot.empty_inv _, fun hg => absurd rfl hg, h.window, h.inside⟩
    obtain ⟨t, ht, hk, hp, hg, hi, hc, ho, hw⟩ := h'.fullRemap
    exact ⟨t, ht, hi, hc, ⟨⟨hk.machine, hk.autoreboot, hk.loader, hk.sdxPbMask⟩, hk.input⟩, hk.ioCount, hw, (fun h => by cases h),
      fun e' he => (Option.some.inj he) ▸ ⟨hp, hg, ho⟩⟩

/-! ### The events -/

theorem State.Under.of_kept {s t u : State} (h : s.Under t) (k : t.Kept u) : s.Under u := h.trans k.under

theorem State.Ready.bothRemoved (h : s.Ready) : s.bothRemoved.Ready :=
  State.Ready.emptied (h.emptied (sl := .G) (by simp)) fun _ => rfl

theorem State.under_bothRemoved (s : State) : s.Under s.bothRemoved :=
  (State.Under.written s .G Slot.empty).trans (State.Under.written _ .P Slot.empty)

theorem State.bothRemoved_p (s : State) : s.bothRemoved.p = Slot.empty := rfl

theorem State.bothRemoved_g (s : State) : s.bothRemoved.g = Slot.empty := by simp [State.bothRemoved]

theorem State.bothRemoved_window (s : State) : s.bothRemoved.window = s.window := by simp [State.bothRemoved]

theorem State.loaderOps_eq {s t : State} (h : t.loader = s.loader) : t.loaderOps = s.loaderOps := by
  rw [State.loaderOps, State.loaderOps, h]

/-- `REMOVE(s)`: the write-backs and the empty records, then one full remap (45_slot_operations.md R170). -/
theorem State.removeEvent_spec (h : s.Inv) (sl : SlotName) : ∃ t, s.removeEvent sl = .ok t ∧ s.Under t ∧ t.Inv ∧ t.Coherent ∧
    t.slot sl = Slot.empty ∧ (sl = .P → t.g = Slot.empty) ∧ (sl = .G → t.p = s.p) ∧
    t.window = (disableCommands s.machine ++ shownCommands s.machine (t.slot t.active)).foldl Window.apply s.window ∧
    (sl = .G → t.ioCount = (s.writtenBack .G).ioCount ∧
      t.out = (s.writtenBack .G).out.issued (disableCommands s.machine ++ shownCommands s.machine (t.slot t.active))) ∧
    (sl = .P → t.ioCount = s.bothRemoved.ioCount ∧
      t.out = s.bothRemoved.out.issued (disableCommands s.machine ++ shownCommands s.machine (t.slot t.active))) := by
  cases sl with
  | G =>
    obtain ⟨t, ht, hk, hp, hg, hi, hc, ho, hw⟩ := (h.ready.emptied (sl := .G) (by simp)).fullRemap
    refine ⟨t, ?_, (State.Under.written s .G Slot.empty).of_kept hk, hi, hc, by simpa using hg, by simp, fun _ => by simpa using hp,
      by simpa using hw, fun _ => ⟨by simpa using hk.ioCount, by simpa using ho⟩, by simp⟩
    simp [State.removeEvent, State.removeOne_spec (h.slot .G), ht]
  | P =>
    have h1 : ((s.writtenBack .G).setSlot .G Slot.empty).Ready := h.ready.emptied (by simp)
    obtain ⟨t, ht, hk, hp, hg, hi, hc, ho, hw⟩ := h.ready.bothRemoved.fullRemap
    have hm := s.under_bothRemoved.machine
    rw [hm] at ho hw
    rw [State.bothRemoved_window] at hw
    refine ⟨t, ?_, s.under_bothRemoved.of_kept hk, hi, hc, by simpa using hp.trans s.bothRemoved_p, fun _ => hg.trans s.bothRemoved_g,
      by simp, hw, by simp, fun _ => ⟨hk.ioCount, ho⟩⟩
    simp only [State.removeEvent, if_true, State.removeOne_spec (h.slot .G), State.removeOne_spec (h1.slot .P)]
    exact ht

/-- `INSERT` of a kind: the write-back of what was there, the new record, one full remap, and the token of a primary insertion with autoreboot
(45_slot_operations.md R166). -/
theorem State.insertEvent_spec (h : s.Inv) {sl : SlotName} {arg : KindArg} {kind : Kind} (ha : resolveKind s.loaderOps arg = .ok kind)
    {bytes : List Byte} (hf : insertFailure s sl kind bytes = Option.none) (path : Text) (raw : Bool) :
    ∃ t, s.insertEvent sl arg bytes path raw = .ok t ∧ s.Under t ∧ t.Inv ∧ t.Coherent ∧
    t.slot sl = insertedSlot kind bytes path raw ∧ (∀ tl, tl ≠ sl → t.slot tl = s.slot tl) ∧ t.ioCount = (s.writtenBack sl).ioCount ∧
    t.out = Output.issued { (s.writtenBack sl).out with coldRestart := decide (sl = .P) && s.autoreboot }
      (disableCommands s.machine ++ shownCommands s.machine (t.slot t.active)) ∧
    t.window = (disableCommands s.machine ++ shownCommands s.machine (t.slot t.active)).foldl Window.apply s.window := by
  obtain ⟨t, ht, hk, hp, hg, hi, hc, ho, hw⟩ := (h.ready.inserted hf _ (insertedSlot_inv hf path raw) rfl).fullRemap
  have hauto : t.autoreboot = s.autoreboot := by rw [hk.autoreboot]; simp
  have hs : ∀ tl, t.slot tl = ((s.writtenBack sl).setSlot sl (insertedSlot kind bytes path raw)).slot tl := fun tl => by
    cases tl <;> assumption
  have hsame : t.SameCore { t with out := { t.out with coldRestart := decide (sl = .P) && t.autoreboot } } := ⟨rfl, rfl, rfl, rfl, rfl, rfl⟩
  refine ⟨{ t with out := { t.out with coldRestart := decide (sl = .P) && t.autoreboot } }, ?_, ?_, hsame.inv hi, hsame.coherent hc, ?_,
    fun tl htl => ?_, ?_, ?_, ?_⟩
  · simp only [State.insertEvent, ha, State.insertQuiet_spec (h.slot sl) hf, ht]
  · exact ((State.Under.written s sl _).of_kept hk).trans ⟨⟨rfl, rfl, rfl, rfl⟩, rfl⟩
  · rw [hsame.slot, hs, State.setSlot_slot]
  · rw [hsame.slot, hs, State.setSlot_slot_ne _ _ _ htl, State.writtenBack_slot]
  · simpa using hk.ioCount
  · rw [hsame.slot]
    simp [ho, hauto]
  · simpa [hsame.slot] using hw

/-- `COLD_START`: the initial state of every occupied slot, and one full remap (45_slot_operations.md R174). -/
theorem State.coldStartEvent_spec (h : s.Inv) : ∃ t, s.coldStartEvent = .ok t ∧ s.Kept t ∧ t.p = s.p.moved (descr s.p.kind).initState ∧
    t.g = s.g.moved (descr s.g.kind).initState ∧ t.Inv ∧ t.Coherent ∧
    t.out = s.out.issued (disableCommands s.machine ++ shownCommands s.machine (t.slot t.active)) ∧
    t.window = (disableCommands s.machine ++ shownCommands s.machine (t.slot t.active)).foldl Window.apply s.window := by
  have hinv : ∀ x : Slot, x.Inv s.machine → (coldSlot x).Inv s.machine := fun x hx => by
    by_cases hk : x.kind = .none
    · simpa [coldSlot, hk] using hx
    · simpa [coldSlot, hk] using hx.setState hk _
  have hkind : ∀ x : Slot, (coldSlot x).kind = x.kind := fun x => by unfold coldSlot; split <;> rfl
  have hr : State.Ready { s with p := coldSlot s.p, g := coldSlot s.g } :=
    ⟨hinv _ h.p, hinv _ h.g, by simpa [hkind] using h.chained, h.window, h.inside⟩
  obtain ⟨t, ht, hk, hp, hg, hi, hc, ho, hw⟩ := hr.fullRemap
  exact ⟨t, ht, ⟨hk.machine, hk.autoreboot, hk.loader, hk.sdxPbMask, hk.input, hk.ioCount, hk.out⟩, hp, hg, hi, hc, ho, hw⟩

/-- `RESTORE_STATE` of a good state: the removals, then the record, then the end. -/
theorem State.restoreEvent_eq (h : s.Inv) (record : List SaveEntry) (files : List FileAt) : s.restoreEvent record files =
    match s.bothRemoved.restoreRecord record files with
    | .error e => .error e
    | .ok (v, failed) => v.restoreEnd failed := by
  have h1 : ((s.writtenBack .G).setSlot .G Slot.empty).Ready := h.ready.emptied (by simp)
  simp only [State.restoreEvent, State.removeOne_spec (h.slot .G), State.removeOne_spec (h1.slot .P)]
  rfl

/-- `RESTORE_STATE` that answers leaves a good coherent state (45_slot_operations.md R180). -/
theorem State.restoreEvent_good (h : s.Inv) {record : List SaveEntry} {files : List FileAt} {t : State}
    (ht : s.restoreEvent record files = .ok t) : t.Inv ∧ t.Coherent ∧ s.Under t := by
  rw [State.restoreEvent_eq h] at ht
  split at ht
  · cases ht
  · rename_i v r hv
    obtain ⟨hvr, hvu⟩ := State.restoreRecord_ready h.ready.bothRemoved hv
    obtain ⟨u, hu, hi, hc, huu, -⟩ := State.restoreEnd_spec hvr r
    rw [hu] at ht
    cases ht
    exact ⟨hi, hc, (s.under_bothRemoved.trans hvu).trans huu⟩

/-- `LINE_REMAP` of a good slot of a line-remapped kind: the buffer decoded, and nothing else (44_address_line_remapper.md R152). -/
theorem State.lineRemap_spec (h : s.Inv) {sl : SlotName} {lm : LineMap} (hl : lineMapOf (s.slot sl).kind = some lm)
    (hk : (s.slot sl).kind ≠ .none) : ∃ old, (s.slot sl).buffer = some old ∧
    s.lineRemap sl = .ok (s.setSlot sl { s.slot sl with buffer := some (lm.decoded old) }) := by
  obtain ⟨old, hb, hlen⟩ := (h.slot sl).buffer hk
  have hfit := (h.slot sl).lines lm hl hk
  rw [← hlen] at hfit
  exact ⟨old, hb, by simp [State.lineRemap, hl, hb, hfit]⟩

/-- `LINE_REMAP` that answers keeps a good state good, and the marks of the window image right. -/
theorem State.lineRemap_inv (h : s.Inv) {sl : SlotName} {t : State} (ht : s.lineRemap sl = .ok t) : t.Inv ∧ s.SameFrame t ∧
    (s.Marked → t.Marked) ∧ (lineMapOf (s.slot sl).kind = Option.none → t = s) := by
  cases hl : lineMapOf (s.slot sl).kind with
  | none =>
    simp only [State.lineRemap, hl] at ht
    cases ht
    exact ⟨h, ⟨⟨rfl, rfl, rfl, rfl⟩, rfl, rfl⟩, id, fun _ => rfl⟩
  | some lm =>
    have hx := h.slot sl
    have hk : (s.slot sl).kind ≠ .none := fun hk => by
      rw [hk] at hl
      cases hl
    obtain ⟨old, hb, hok⟩ := State.lineRemap_spec h hl hk
    rw [hok] at ht
    cases ht
    have hx' : Slot.Inv s.machine { s.slot sl with buffer := some (lm.decoded old) } := by
      obtain ⟨b, hb', hlen⟩ := hx.buffer hk
      rw [hb] at hb'
      cases hb'
      exact ⟨fun h' => absurd h' hk, fun _ => ⟨_, rfl, by rw [LineMap.decoded_length]; exact hlen⟩, hx.positive, hx.size, hx.machine,
        hx.lines, hx.writable⟩
    refine ⟨?_, ⟨⟨by simp, by simp, by simp, by simp⟩, by simp, by simp⟩, fun hm => ?_, fun h' => by cases h'⟩
    rotate_left
    · rw [State.marked_iff] at hm ⊢
      simp only [State.setSlot_machine, State.setSlot_active, State.setSlot_window]
      by_cases ha : s.active = sl
      · rw [ha, State.setSlot_slot]
        rw [ha] at hm
        exact hm
      · rw [State.setSlot_slot_ne _ _ _ ha]
        exact hm
    cases sl with
    | P => exact ⟨hx', h.g, h.chained, h.active, h.window, h.inside⟩
    | G => exact ⟨h.p, hx', h.chained, h.active, h.window, h.inside⟩

end Sys2Proof.Machine
end

