-- ==== Sys2Proof/Tests/Slice0.lean ====
section
/-! SUPPORT. The model's own tests. The expected results of the `test_` theorems come from spec/95_test_vectors.md and the encoding tables of
spec/30_encoding.md; each `witness_` theorem shows concrete states and operands that meet the hypotheses of the statement it is named after. -/

namespace Sys2Proof.Tests

open Sys2Proof Sys2Proof.Machine

/-! ### Well-formedness: one ill-formed event for each check -/

theorem test_wf_ctrlRd : (Instr.ctrlRd 0xD4FF#16 0#8).wf .xlxe = false ∧ (Instr.ctrlRd 0xD5FF#16 0#8).wf .xlxe = true := by decide
theorem test_wf_ctrlRdPeek : (Instr.ctrlRdPeek 0xD600#16 0#8).wf .xlxe = false := by decide
theorem test_wf_ctrlWr : (Instr.ctrlWr 0xD400#16 0#8).wf .a5200 = false := by decide
theorem test_wf_ctrlWrPeek : (Instr.ctrlWrPeek 0x00D5#16 0#8).wf .xlxe = false := by decide
theorem test_wf_winRd : (Instr.winRd 0x7FFF#16 0#8).wf .a5200 = false ∧ (Instr.winRd 0xBFFF#16 0#8).wf .a5200 = true := by decide
theorem test_wf_winRdPeek : (Instr.winRdPeek 0xC000#16 0#8).wf .xlxe = false := by decide
theorem test_wf_winWr : (Instr.winWr 0x4000#16 0#8).wf .xlxe = false := by decide
theorem test_wf_winWrPeek : (Instr.winWrPeek 0xD500#16 0#8).wf .xlxe = false := by decide
theorem test_wf_winRdLo5200 : (Instr.winRdLo5200 0x4000#16 0#8).wf .xlxe = false ∧ (Instr.winRdLo5200 0x8000#16 0#8).wf .a5200 = false := by decide
theorem test_wf_winRdPeekLo5200 : (Instr.winRdPeekLo5200 0x7FFF#16 0#8).wf .xlxe = false := by decide
theorem test_wf_winWrLo5200 : (Instr.winWrLo5200 0x3FFF#16 0#8).wf .a5200 = false := by decide
theorem test_wf_winWrPeekLo5200 : (Instr.winWrPeekLo5200 0x4000#16 0#8).wf .xlxe = false := by decide
theorem test_wf_busOtherQ0 : (Instr.busOtherQ0 false false 0x4000#16 0#8).wf .xlxe = false := by decide
theorem test_wf_busOtherQ1 : (Instr.busOtherQ1 false false 0x4000#16 0#8).wf .a5200 = false ∧
    (Instr.busOtherQ1 false false 0x8000#16 0#8).wf .xlxe = false := by decide
theorem test_wf_busOtherQ3 : (Instr.busOtherQ3 false false 0xD500#16 0#8).wf .xlxe = false ∧
    (Instr.busOtherQ3 false false 0xBFFF#16 0#8).wf .xlxe = false := by decide

/-! ### Decoding: the words of 95_test_vectors.md section 3.1, and words written out bit by bit from 30_encoding.md R51 to R57 -/

theorem test_decode_ctrlRd : decode .xlxe (.bus 0b00000000110101010000000000000000#32) = .ok (.ctrlRd 0xD500#16 0x00#8) := by decide
theorem test_decode_ctrlWr : decode .a5200 (.bus 0b00000001110101011111111110101011#32) = .ok (.ctrlWr 0xD5FF#16 0xAB#8) := by decide
theorem test_decode_ctrlRdPeek : decode .a5200 (.bus 0b00000010110101010000000000000000#32) = .ok (.ctrlRdPeek 0xD500#16 0x00#8) := by decide
theorem test_decode_ctrlWrPeek : decode .xlxe (.bus 0b00000011110101010000001100010010#32) = .ok (.ctrlWrPeek 0xD503#16 0x12#8) := by decide
theorem test_decode_page_edges : decode .xlxe (.bus 0x00D4FF00#32) = .ok (.busOtherQ3 false false 0xD4FF#16 0x00#8) ∧
    decode .a5200 (.bus 0x00D60000#32) = .ok (.busOtherQ3 false false 0xD600#16 0x00#8) := by decide
theorem test_decode_winRd : decode .xlxe (.bus 0x00800000#32) = .ok (.winRd 0x8000#16 0x00#8) ∧
    decode .a5200 (.bus 0x00BFFF00#32) = .ok (.winRd 0xBFFF#16 0x00#8) := by decide
theorem test_decode_winWr : decode .xlxe (.bus 0x01A00055#32) = .ok (.winWr 0xA000#16 0x55#8) := by decide
theorem test_decode_winPeeks : decode .xlxe (.bus 0x02A01100#32) = .ok (.winRdPeek 0xA011#16 0x00#8) ∧
    decode .xlxe (.bus 0x03A01199#32) = .ok (.winWrPeek 0xA011#16 0x99#8) := by decide
theorem test_decode_low_half : decode .xlxe (.bus 0x00400000#32) = .ok (.busOtherQ1 false false 0x4000#16 0x00#8) ∧
    decode .a5200 (.bus 0x00400000#32) = .ok (.winRdLo5200 0x4000#16 0x00#8) ∧
    decode .a5200 (.bus 0x02400000#32) = .ok (.winRdPeekLo5200 0x4000#16 0x00#8) ∧
    decode .a5200 (.bus 0x017FFF01#32) = .ok (.winWrLo5200 0x7FFF#16 0x01#8) ∧
    decode .a5200 (.bus 0x037FFF01#32) = .ok (.winWrPeekLo5200 0x7FFF#16 0x01#8) := by decide
theorem test_decode_other : decode .a5200 (.bus 0x003FFF00#32) = .ok (.busOtherQ0 false false 0x3FFF#16 0x00#8) ∧
    decode .xlxe (.bus 0x03C00000#32) = .ok (.busOtherQ3 true true 0xC000#16 0x00#8) := by decide
theorem test_decode_too_wide : decode .xlxe (.bus 0x04000000#32) = .error .busWordTooWide ∧
    decode .xlxe (.bus 0x03FFFFFF#32) = .ok (.busOtherQ3 true true 0xFFFF#16 0xFF#8) := by decide
theorem test_decode_host : decode .xlxe (.host 0 { slot := .G, kindArg := .code 1#32, bytes := [1#8], path := [], raw := false }) =
      .ok (.insert .G (.code 1#32) [1#8] [] false) ∧
    decode .xlxe (.host 1 { slot := .G }) = .ok (.remove .G) ∧ decode .xlxe (.host 2 {}) = .ok .coldStart ∧
    decode .xlxe (.host 3 {}) = .ok (.lineRemap .P) ∧ decode .xlxe (.host 4 {}) = .ok .saveState ∧
    decode .xlxe (.host 6 {}) = .ok (.readImage none) ∧ decode .xlxe (.host 8 {}) = .ok (.remap .P) ∧
    decode .xlxe (.host 9 {}) = .ok .fullRemap := by decide
theorem test_decode_reserved : decode .xlxe (.host 10 {}) = .error .reservedHostCode ∧ decode .xlxe (.host 255 {}) = .error .reservedHostCode := by
  decide
theorem test_table_word : decodeTableWord 32 0x00D50000 = some (.ctrlRd 0xD500#16 0#8) ∧ decodeTableWord 8 9 = some .fullRemap ∧
    decodeTableWord 8 10 = none := by decide

/-! ### Images and states to test on -/

/-- The byte of `IMG(n)` at an offset (95_test_vectors.md). -/
def imgByte (k : Nat) : Byte := BitVec.ofNat 8 (k / 4096 % 16 * 16 + k % 16)

/-- `IMG(n)` (95_test_vectors.md). -/
def img (kb : Nat) : List Byte := (List.range (kb * 1024)).map imgByte

theorem img_length (kb : Nat) : (img kb).length = kb * 1024 := by simp [img]

theorem img_get {kb k : Nat} (h : k < kb * 1024) : (img kb)[k]? = some (imgByte k) := by simp [img, List.getElem?_range h]

/-- A slot record holding `IMG(kb)`. -/
def slotOf (k : Kind) (kb : Nat) (st : StateWord) : Slot := ⟨k, kb, some (img kb), st, [], true⟩

theorem slotOf_inv {k : Kind} {kb : Nat} {m : MachineKind} (st : StateWord) (h0 : 0 < kb) (hk : k ≠ .none)
    (hs : acceptsSize k kb = true) (hm : acceptsMachine k m = true) (hl : lineMapOf k = Option.none) : (slotOf k kb st).Inv m :=
  ⟨fun h => absurd h hk, fun _ => ⟨_, rfl, img_length kb⟩, fun _ => h0, fun _ => hs, fun _ => hm, fun _ h => (by rw [show lineMapOf (slotOf k kb st).kind = Option.none from hl] at h; cases h), fun _ => hl⟩

theorem bufRead_slotOf {k : Kind} {kb : Nat} {st : StateWord} {off : Nat} (h : off < kb * 1024) :
    bufRead (slotOf k kb st) off = some (imgByte off) := img_get h

/-- A machine with two records placed and one full remap run. -/
def placed (m : MachineKind) (x y : Slot) : State :=
  match State.fullRemap { State.reset with machine := m, p := x, g := y } with
  | .ok t => t
  | .error _ => State.reset

/-- What a test needs to know of a state. -/
structure Good (s : State) (m : MachineKind) (x y : Slot) : Prop where
  inv      : s.Inv
  coherent : s.Coherent
  machine  : s.machine = m
  p        : s.p = x
  g        : s.g = y
  mask     : s.sdxPbMask = 0b1000#32
  active   : s.active = activeOf 0b1000#32 x y
  input    : s.input = []

/-- A state with no event pending is good for its own records. -/
theorem good_of {t : State} {m : MachineKind} {x y : Slot} (hi : t.Inv) (hc : t.Coherent) (hm : t.machine = m) (hk : t.sdxPbMask = 0b1000#32)
    (hp : t.p = x) (hg : t.g = y) : Good { t with input := [] } m x y :=
  have e : t.SameCore { t with input := [] } := ⟨rfl, rfl, rfl, rfl, rfl, rfl⟩
  ⟨e.inv hi, e.coherent hc, hm, hp, hg, hk, by rw [← hp, ← hg, ← hk]; exact hi.active, rfl⟩

theorem Good.marked {s : State} {m : MachineKind} {x y : Slot} (h : Good s m x y) : s.Marked := h.coherent.toMarked

theorem placed_good {m : MachineKind} {x y : Slot} (hx : x.Inv m) (hy : y.Inv m) (hc : y.kind ≠ .none → x.kind ≠ .none) :
    Good (placed m x y) m x y := by
  have hr : State.Ready { State.reset with machine := m, p := x, g := y } :=
    ⟨hx, hy, hc, Window.empty_wf, ⟨fun _ h => (by cases h), fun _ h => (by cases h), fun _ h => (by cases h)⟩⟩
  obtain ⟨t, ht, hk, hp, hg, hi, hco, -⟩ := hr.fullRemap
  have : placed m x y = t := by simp only [placed, ht]
  rw [this]
  exact ⟨hi, hco, hk.machine, hp, hg, hk.sdxPbMask, by rw [hi.active, hp, hg, hk.sdxPbMask]; rfl, hk.input⟩

theorem placed_one {m : MachineKind} {x : Slot} (hx : x.Inv m) : Good (placed m x Slot.empty) m x Slot.empty :=
  placed_good hx (Slot.empty_inv m) (fun h => absurd rfl h)

theorem activeOf_one (mask : StateWord) (x : Slot) : activeOf mask x Slot.empty = .P := by simp [activeOf, Slot.empty]

theorem Good.active_P {s : State} {m : MachineKind} {x : Slot} (h : Good s m x Slot.empty) : s.active = .P := by
  rw [h.active, activeOf_one]

theorem Good.slot_P {s : State} {m : MachineKind} {x : Slot} (h : Good s m x Slot.empty) : s.slot s.active = x := by
  rw [h.active_P]; exact h.p

/-- The byte a good state with one cartridge shows. -/
theorem Good.byte {s : State} {m : MachineKind} {x : Slot} (h : Good s m x Slot.empty) {a : Nat} (ha : inWindow m a = true) :
    some (winRead s.window a) = shownByte m x a := by
  have := h.coherent.byte a (by rw [h.machine]; exact ha)
  rwa [h.slot_P, h.machine] at this

theorem shownByte_rom {m : MachineKind} {x : Slot} {a lo hi off : Nat} (h : segmentOf m x a = some ⟨lo, hi, .romAt off⟩) :
    shownByte m x a = bufRead x (off + (a - lo)) := by simp [shownByte, h, Segment.byteAt]

/-- The states of the tests: the test instances of 95_test_vectors.md section 2 and the named designs, each alone in the primary slot. -/
theorem std8_good (st : StateWord) : Good (placed .xlxe (slotOf .std8 8 st) Slot.empty) .xlxe (slotOf .std8 8 st) Slot.empty :=
  placed_one (slotOf_inv st (by decide) (by decide) (by decide) (by decide) rfl)
theorem tSdx_good (st : StateWord) :
    Good (placed .xlxe (slotOf (.test .tSdx) 64 st) Slot.empty) .xlxe (slotOf (.test .tSdx) 64 st) Slot.empty :=
  placed_one (slotOf_inv st (by decide) (by decide) (by decide) (by decide) rfl)
theorem tSub_good (st : StateWord) :
    Good (placed .xlxe (slotOf (.test .tSub) 64 st) Slot.empty) .xlxe (slotOf (.test .tSub) 64 st) Slot.empty :=
  placed_one (slotOf_inv st (by decide) (by decide) (by decide) (by decide) rfl)
theorem tRdr_good (st : StateWord) :
    Good (placed .xlxe (slotOf (.test .tRdr) 8 st) Slot.empty) .xlxe (slotOf (.test .tRdr) 8 st) Slot.empty :=
  placed_one (slotOf_inv st (by decide) (by decide) (by decide) (by decide) rfl)
theorem tRam_good (st : StateWord) :
    Good (placed .xlxe (slotOf (.test .tRam) 8 st) Slot.empty) .xlxe (slotOf (.test .tRam) 8 st) Slot.empty :=
  placed_one (slotOf_inv st (by decide) (by decide) (by decide) (by decide) rfl)
theorem tHook_good (st : StateWord) :
    Good (placed .xlxe (slotOf (.test .tHook) 16 st) Slot.empty) .xlxe (slotOf (.test .tHook) 16 st) Slot.empty :=
  placed_one (slotOf_inv st (by decide) (by decide) (by decide) (by decide) rfl)
theorem oss16_good (st : StateWord) : Good (placed .xlxe (slotOf .oss16 16 st) Slot.empty) .xlxe (slotOf .oss16 16 st) Slot.empty :=
  placed_one (slotOf_inv st (by decide) (by decide) (by decide) (by decide) rfl)
theorem rot32_good (st : StateWord) : Good (placed .xlxe (slotOf .rot32 32 st) Slot.empty) .xlxe (slotOf .rot32 32 st) Slot.empty :=
  placed_one (slotOf_inv st (by decide) (by decide) (by decide) (by decide) rfl)
theorem unknown_good : Good (placed .xlxe (slotOf .unknown 1 0#32) Slot.empty) .xlxe (slotOf .unknown 1 0#32) Slot.empty :=
  placed_one (slotOf_inv _ (by decide) (by decide) (by decide) (by decide) rfl)
theorem clamp_good (st : StateWord) : Good (placed clampEntry.machine (slotOf .clamp clampEntry.sizeKb st) Slot.empty) clampEntry.machine
    (slotOf .clamp clampEntry.sizeKb st) Slot.empty :=
  placed_one (slotOf_inv st Config.clampBase.positive (by simp) (by simp [acceptsSize, typeEntry]) (by simp [acceptsMachine, typeEntry]) rfl)
theorem bbsb_good (st : StateWord) : Good (placed Config.bbsbMachine (slotOf .bbsb Config.bbsb.sizeKb st) Slot.empty) Config.bbsbMachine
    (slotOf .bbsb Config.bbsb.sizeKb st) Slot.empty :=
  placed_one (slotOf_inv st Config.bbsb.positive (by simp) (by simp [acceptsSize, typeEntry, HookEntry.entry])
    (by simp [acceptsMachine, typeEntry, HookEntry.entry]) rfl)
theorem sc5200_good (st : StateWord) : Good (placed .a5200 (slotOf .sc5200 Config.sc5200.sizeKb st) Slot.empty) .a5200
    (slotOf .sc5200 Config.sc5200.sizeKb st) Slot.empty :=
  placed_one (slotOf_inv st Config.sc5200.positive (by simp) (by simp [acceptsSize, typeEntry, HookEntry.entry])
    (by simp [acceptsMachine, typeEntry, HookEntry.entry]) rfl)
theorem sdx_inv (v : BitVec 8) (st : StateWord) : (slotOf (.sdx v) (sdxEntry v).sizeKb st).Inv .xlxe :=
  slotOf_inv st (Config.sdxBase v).positive (by simp) (by simp [acceptsSize, typeEntry]) (by simp [acceptsMachine, typeEntry, sdxEntry]) rfl

/-- `P = T_SDX`, `G = T_SUB`, the two-slot start of 95_test_vectors.md section 3.2. -/
theorem two_good (st sg : StateWord) : Good (placed .xlxe (slotOf (.test .tSdx) 64 st) (slotOf (.test .tSub) 64 sg)) .xlxe
    (slotOf (.test .tSdx) 64 st) (slotOf (.test .tSub) 64 sg) :=
  placed_good (slotOf_inv st (by decide) (by decide) (by decide) (by decide) rfl)
    (slotOf_inv sg (by decide) (by decide) (by decide) (by decide) rfl) (fun _ => (by simp [slotOf]))

theorem reset_good : Good State.reset .xlxe Slot.empty Slot.empty where
  inv := ⟨Slot.empty_inv _, Slot.empty_inv _, fun h => absurd rfl h, rfl, Window.empty_wf,
    ⟨fun _ h => (by cases h), fun _ h => (by cases h), fun _ h => (by cases h)⟩⟩
  coherent := ⟨⟨fun _ _ => rfl, fun _ _ => rfl⟩, fun _ _ => rfl⟩
  mask := rfl
  machine := rfl
  p := rfl
  g := rfl
  active := rfl
  input := rfl

/-! ### Single steps, with the results of 95_test_vectors.md -/

/-- A control-page write on a good state: what the laws say, for the tests to read off. -/
theorem Good.ctrlWr {s : State} {m : MachineKind} {x y : Slot} (h : Good s m x y) (addr : Addr) (v : Byte) :
    ∃ t, exec (.ctrlWr addr v) s = .next t ∧ Good { t with input := [] } m (x.moved (writeNext x addr v)) (y.moved (writeNext y addr v)) ∧
      t.out.handled = some (Handled.ofBool (reacts x addr v || reacts y addr v)) := by
  obtain ⟨t, ht, hf, hp, hg, ho, -, hi, hc, -⟩ := State.ctrlWrite_spec h.inv.clearOut addr v
  have hp : t.p = s.p.moved (writeNext s.p addr v) := hp
  have hg : t.g = s.g.moved (writeNext s.g addr v) := hg
  rw [h.p] at hp
  rw [h.g] at hg
  refine ⟨t, by simp only [exec, execCtrlWr, ht, answer],
    good_of hi (hc.coherent h.coherent.clearOut) (hf.machine.trans h.machine) (hf.sdxPbMask.trans h.mask) hp hg, ?_⟩
  rw [ho]
  show some (Handled.ofBool (reacts s.p addr v || reacts s.g addr v)) = _
  rw [h.p, h.g]

/-- A control-page read on a good state. -/
theorem Good.ctrlRd {s : State} {m : MachineKind} {x y : Slot} (h : Good s m x y) (addr : Addr) (v : Byte) :
    ∃ t, exec (.ctrlRd addr v) s = .next t ∧ t.p = x.moved (readNext x addr) ∧ t.g = y.moved (readNext y addr) ∧
      t.out.data = some (contribution (x.moved (readNext x addr)) addr &&& contribution (y.moved (readNext y addr)) addr) := by
  obtain ⟨t, ht, -, hp, hg, ho, -⟩ := State.ctrlRead_spec h.inv.clearOut addr
  have hp : t.p = s.p.moved (readNext s.p addr) := hp
  have hg : t.g = s.g.moved (readNext s.g addr) := hg
  refine ⟨t, by simp only [exec, execCtrlRd, ht, answer], by rw [hp, h.p], by rw [hg, h.g], ?_⟩
  rw [ho]
  show some (contribution (s.p.moved (readNext s.p addr)) addr &&& contribution (s.g.moved (readNext s.g addr)) addr) = _
  rw [h.p, h.g]

/-- A window read on a good state with one cartridge: the byte the slot shows after its own hook. -/
theorem Good.winRd {s : State} {m : MachineKind} {x : Slot} (h : Good s m x Slot.empty) {addr : Addr} (v : Byte) (ha : inWindow m addr.toNat = true)
    {b : Byte} (hb : shownByte m (x.moved (hookNext x addr false 0#8)) addr.toNat = some b) :
    ∃ t, exec (.winRd addr v) s = .next t ∧ t.p = x.moved (hookNext x addr false 0#8) ∧ t.out.data = some b := by
  obtain ⟨t, ht, hf, hs, ho, hout, -, hi, hc, -⟩ := State.winReadEvent_spec h.inv.clearOut addr
  have hact : s.clearOut.active = .P := h.active_P
  rw [hact] at hs ho
  have hp : t.p = s.p.moved (hookNext s.p addr false 0#8) := hs
  have hg : t.g = s.g := ho .G (by decide)
  rw [h.p] at hp
  rw [h.g] at hg
  have hgood : Good { t with input := [] } m (x.moved (hookNext x addr false 0#8)) Slot.empty :=
    good_of hi (hc.coherent h.coherent.clearOut) (hf.machine.trans h.machine) (hf.sdxPbMask.trans h.mask) hp hg
  refine ⟨t, by simp only [exec, execWinRd, ht, answer], hp, ?_⟩
  rw [hout, ← hb, ← hgood.byte ha]

/-- `T_RDR` in state 0: the read moves it to state 1 (section 3.2). -/
theorem test_ctrlRd_reacts : ∃ s t, Good s .xlxe (slotOf (.test .tRdr) 8 0#32) Slot.empty ∧ exec (.ctrlRd 0xD500#16 0#8) s = .next t ∧
    t.p.state = 1#32 ∧ t.out.data = some 0xFF#8 := by
  obtain ⟨t, ht, hp, -, ho⟩ := (tRdr_good 0#32).ctrlRd 0xD500#16 0#8
  exact ⟨_, t, tRdr_good 0#32, ht, by rw [hp]; rfl, ho⟩

/-- Two slots: the status bytes are ANDed (section 3.2). -/
theorem test_ctrlRd_and : ∃ s t, Good s .xlxe (slotOf (.test .tSdx) 64 6#32) (slotOf (.test .tSub) 64 3#32) ∧
    exec (.ctrlRd 0xD500#16 0#8) s = .next t ∧ t.p.state = 6#32 ∧ t.out.data = some 0x02#8 := by
  obtain ⟨t, ht, hp, -, ho⟩ := (two_good 6#32 3#32).ctrlRd 0xD500#16 0#8
  exact ⟨_, t, two_good 6#32 3#32, ht, by rw [hp]; rfl, ho⟩

/-- `T_RDR` in state 0: the peek moves nothing (section 3.2). -/
theorem test_ctrlRdPeek_reads_the_state : ∃ t, exec (.ctrlRdPeek 0xD500#16 0#8) { State.reset with p := ⟨.test .tRdr, 8, none, 0#32, [], true⟩ } = .next t ∧
    t.p.state = 0#32 ∧ t.out.data = some 0xFF#8 := ⟨_, rfl, rfl, rfl⟩

/-- `T_SDX` in state 3: the status byte is the state (section 3.2). -/
theorem test_ctrlRdPeek_status : ∃ t, exec (.ctrlRdPeek 0xD500#16 0#8) { State.reset with p := ⟨.test .tSdx, 64, none, 3#32, [], true⟩ } = .next t ∧
    t.out.data = some 0x03#8 := ⟨_, rfl, rfl⟩

/-- `T_SDX` in state 0, `WR $D500,#$F3`: handled, state 3, and the bank at offset 0x6000 shows (section 3.2). -/
theorem test_ctrlWr_bank : ∃ s t, Good s .xlxe (slotOf (.test .tSdx) 64 0#32) Slot.empty ∧ exec (.ctrlWr 0xD500#16 0xF3#8) s = .next t ∧
    t.p.state = 3#32 ∧ t.out.handled = some .handled ∧ winRead t.window 0xA000 = 0x60#8 := by
  obtain ⟨t, ht, hg, ho⟩ := (tSdx_good 0#32).ctrlWr 0xD500#16 0xF3#8
  refine ⟨_, t, tSdx_good 0#32, ht, by rw [show t.p = _ from hg.p]; rfl, ho, ?_⟩
  have hb := hg.byte (a := 0xA000) rfl
  rw [show Slot.moved _ _ = slotOf (.test .tSdx) 64 3#32 from rfl, shownByte_rom (lo := 0xA000) (hi := 0xBFFF) (off := 0x6000) rfl,
    bufRead_slotOf (by decide)] at hb
  exact Option.some.inj hb

/-- `T_SUB` in state 5, `WR $D5D2,#$00`: unhandled, and the state is not 0 (section 3.2). -/
theorem test_ctrlWr_sub_range : ∃ s t, Good s .xlxe (slotOf (.test .tSub) 64 5#32) Slot.empty ∧ exec (.ctrlWr 0xD5D2#16 0x00#8) s = .next t ∧
    t.p.state = 5#32 ∧ t.out.handled = some .unhandled := by
  obtain ⟨t, ht, hg, ho⟩ := (tSub_good 5#32).ctrlWr 0xD5D2#16 0x00#8
  exact ⟨_, t, tSub_good 5#32, ht, by rw [show t.p = _ from hg.p]; rfl, ho⟩

/-- `ROT_32` in state 4, `PWR $D500,#$00`: unhandled, state 4 (section 3.2). -/
theorem test_ctrlWrPeek : ∃ t, exec (.ctrlWrPeek 0xD500#16 0#8) { State.reset with p := ⟨.rot32, 32, none, 4#32, [], true⟩ } = .next t ∧
    t.p.state = 4#32 ∧ t.out.handled = some .unhandled := ⟨_, rfl, rfl, rfl⟩

/-- `T_HOOK` in state 0, `RD $BFF7`: state 1, and the byte of bank 1 (section 3.5). -/
theorem test_winRd_hook : ∃ s t, Good s .xlxe (slotOf (.test .tHook) 16 0#32) Slot.empty ∧ exec (.winRd 0xBFF7#16 0#8) s = .next t ∧
    t.p.state = 1#32 ∧ t.out.data = some 0x37#8 := by
  obtain ⟨t, ht, hp, ho⟩ := (tHook_good 0#32).winRd (addr := 0xBFF7#16) (b := 0x37#8) 0#8 rfl
    (by rw [show Slot.moved _ _ = slotOf (.test .tHook) 16 1#32 from rfl, shownByte_rom (lo := 0xA000) (hi := 0xBFFF) (off := 0x2000) rfl,
      bufRead_slotOf (by decide)]; rfl)
  exact ⟨_, t, tHook_good 0#32, ht, by rw [hp]; rfl, ho⟩

/-- `STD_8`, `RD $9FFF`: the other window is not driven (section 3.5). -/
theorem test_winRd_off : ∃ s t, Good s .xlxe (slotOf .std8 8 0#32) Slot.empty ∧ exec (.winRd 0x9FFF#16 0#8) s = .next t ∧
    t.p.state = 0#32 ∧ t.out.data = some 0xFF#8 := by
  obtain ⟨t, ht, hp, ho⟩ := (std8_good 0#32).winRd (addr := 0x9FFF#16) (b := 0xFF#8) 0#8 rfl rfl
  exact ⟨_, t, std8_good 0#32, ht, by rw [hp]; rfl, ho⟩

/-- `T_HOOK` in state 1, `PEEK $BFF6`: the byte, and no transition (section 3.5). -/
theorem test_winRdPeek : ∃ s t, Good s .xlxe (slotOf (.test .tHook) 16 1#32) Slot.empty ∧ exec (.winRdPeek 0xBFF6#16 0#8) s = .next t ∧
    t.p = s.p ∧ t.out.data = some 0x36#8 := by
  obtain ⟨s, h⟩ : ∃ s, Good s .xlxe (slotOf (.test .tHook) 16 1#32) Slot.empty := ⟨_, tHook_good 1#32⟩
  refine ⟨s, _, h, rfl, rfl, ?_⟩
  have hb := h.byte (a := 0xBFF6) rfl
  rw [shownByte_rom (lo := 0xA000) (hi := 0xBFFF) (off := 0x2000) rfl, bufRead_slotOf (by decide)] at hb
  exact hb

/-- Where a good `T_RAM` stores: in state 0 at the scattered offset, in state 1 nowhere. -/
theorem tRam_store {s : State} {st : StateWord} (h : Good s .xlxe (slotOf (.test .tRam) 8 st) Slot.empty) (addr : Addr)
    (ha : 0xA000 ≤ addr.toNat ∧ addr.toNat ≤ 0xBFFF) :
    storeOffset s addr = if tRamOps.storesIn st then some (tRamOps.scatter st addr.toNat) else Option.none := by
  have hin : inWindow .xlxe addr.toNat = true := by
    simp only [inWindow, windows, AddrRange.has, List.any_cons, List.any_nil, Bool.or_false, Bool.or_eq_true, Bool.and_eq_true, decide_eq_true_eq]
    omega
  have hseg : segmentOf .xlxe (slotOf (.test .tRam) 8 st) addr.toNat = some ⟨0xA000, 0xBFFF, .ram⟩ := by
    show segmentAt [⟨0xA000, 0xBFFF, .ram⟩] addr.toNat = _
    simp [segmentAt, Segment.has, ha.1, ha.2]
  have hon : s.window.isOn addr.toNat = true := by
    rw [h.coherent.on _ (by rw [h.machine]; exact hin), h.slot_P, h.machine, hseg]; rfl
  have hram : s.window.isRam addr.toNat = true := by
    rw [h.coherent.ram _ (by rw [h.machine]; exact hin), h.slot_P, h.machine, hseg]; rfl
  unfold storeOffset
  rw [h.slot_P, hon, hram, if_neg (by rintro (hk | hk) <;> cases hk)]
  rfl

/-- A window write to a good `T_RAM`. -/
theorem tRam_write {s : State} {st : StateWord} (h : Good s .xlxe (slotOf (.test .tRam) 8 st) Slot.empty) (addr : Addr) (v : Byte)
    (ha : 0xA000 ≤ addr.toNat ∧ addr.toNat ≤ 0xBFFF) : exec (.winWr addr v) s = .next
      (if tRamOps.storesIn st then s.clearOut.stored addr (tRamOps.scatter st addr.toNat) v else s.clearOut) := by
  obtain ⟨t, ht, -, -, -, -, -, -, heq⟩ := State.winWriteEvent_spec h.inv.clearOut h.marked.clearOut addr v
  have hs : storeOffset s.clearOut addr = if tRamOps.storesIn st then some (tRamOps.scatter st addr.toNat) else Option.none := by
    rw [← tRam_store h addr ha]
    cases hs : s.active <;> simp [storeOffset, State.slot, State.clearOut, hs]
  have hslot : s.clearOut.slot s.clearOut.active = slotOf (.test .tRam) 8 st := h.slot_P
  have he := heq (by rw [hslot]; rfl)
  rw [hs] at he
  simp only [exec, execWinWr, ht, answer, he]
  cases tRamOps.storesIn st <;> rfl

/-- `T_RAM` in state 0, `WR $A011,#$77`: the buffer byte and the window byte (section 3.5). -/
theorem test_winWr_store : ∃ s t, Good s .xlxe (slotOf (.test .tRam) 8 0#32) Slot.empty ∧ exec (.winWr 0xA011#16 0x77#8) s = .next t ∧
    t.p.buffer = some ((img 8).set 0x11 0x77#8) ∧ memRead t.window.bytes 0xA011 = 0x77#8 := by
  obtain ⟨s, h⟩ : ∃ s, Good s .xlxe (slotOf (.test .tRam) 8 0#32) Slot.empty := ⟨_, tRam_good 0#32⟩
  refine ⟨s, s.clearOut.stored 0xA011#16 0x11 0x77#8, h, (tRam_write h 0xA011#16 0x77#8 (by decide)).trans rfl, ?_, ?_⟩
  · have ha : s.clearOut.active = .P := h.active_P
    have := State.stored_slot s.clearOut 0xA011#16 0x11 0x77#8
    rw [ha, show s.clearOut.slot .P = slotOf (.test .tRam) 8 0#32 from h.p] at this
    exact congrArg Slot.buffer this
  · rw [State.stored_window]
    simp [memRead_memWrite]

/-- `T_RAM` in state 1: the write is dropped (section 3.5). -/
theorem test_winWr_locked : ∃ s t, Good s .xlxe (slotOf (.test .tRam) 8 1#32) Slot.empty ∧ exec (.winWr 0xA011#16 0x77#8) s = .next t ∧
    t.p = s.p ∧ t.window = s.window := by
  obtain ⟨s, h⟩ : ∃ s, Good s .xlxe (slotOf (.test .tRam) 8 1#32) Slot.empty := ⟨_, tRam_good 1#32⟩
  exact ⟨s, s.clearOut, h, tRam_write h 0xA011#16 0x77#8 (by decide), rfl, rfl⟩

/-- `T_RAM`, `PWR $A011,#$99`: nothing (section 3.5). -/
theorem test_winWrPeek (s : State) : exec (.winWrPeek 0xA011#16 0x99#8) s = .next s.clearOut := rfl

/-- The low half of the 5200 window with no cartridge: undriven (20_memory.md R35, 43_remap.md R137). -/
theorem test_lo5200 : ∃ t u, exec (.winRdLo5200 0x4000#16 0#8) { State.reset with machine := .a5200 } = .next t ∧ t.out.data = some 0xFF#8 ∧
    exec (.winRdPeekLo5200 0x7FFF#16 0#8) { State.reset with machine := .a5200 } = .next u ∧ u.out.data = some 0xFF#8 :=
  ⟨_, _, rfl, rfl, rfl, rfl⟩
theorem test_lo5200_writes : exec (.winWrLo5200 0x4000#16 1#8) { State.reset with machine := .a5200 } = .next { State.reset with machine := .a5200 } ∧
    exec (.winWrPeekLo5200 0x4000#16 1#8) { State.reset with machine := .a5200 } = .next { State.reset with machine := .a5200 } := ⟨rfl, rfl⟩

/-- Other addresses: nothing changed, nothing returned (30_encoding.md R57). -/
theorem test_busOther : exec (.busOtherQ0 false true 0x0000#16 1#8) State.reset = .next State.reset ∧
    exec (.busOtherQ1 false false 0x4000#16 1#8) State.reset = .next State.reset ∧
    exec (.busOtherQ3 true false 0xD4FF#16 1#8) State.reset = .next State.reset := ⟨rfl, rfl, rfl⟩

/-- Inserting `STD_8` from power-on: state 0, active P, and 0xA000 shows `buffer[0]`, 0xBFFF `buffer[0x1FFF]` (section 4, P1). -/
theorem test_insert : ∃ t, exec (.insert .P (.named .std8) (img 8) [] true) State.reset = .next t ∧ t.p = slotOf .std8 8 0#32 ∧
    winRead t.window 0xA000 = 0x00#8 ∧ winRead t.window 0xBFFF = 0x1F#8 := by
  have hf : insertFailure State.reset.clearOut .P .std8 (img 8) = none := by
    unfold insertFailure
    rw [img_length]
    decide
  obtain ⟨t, ht, hu, hi, hc, hs, ho, -⟩ := State.insertEvent_spec reset_good.inv.clearOut (arg := .named .std8) rfl hf [] true
  have hp : t.p = slotOf .std8 8 0#32 := by
    rw [show t.p = _ from hs, insertedSlot, img_length]; rfl
  have hg : t.g = Slot.empty := ho .G (by decide)
  have good : Good { t with input := [] } .xlxe (slotOf .std8 8 0#32) Slot.empty :=
    good_of hi hc hu.machine hu.sdxPbMask hp hg
  refine ⟨t, by simp only [exec, execInsert, ht, answer], hp, ?_, ?_⟩
  · have hb := good.byte (a := 0xA000) rfl
    rw [shownByte_rom (lo := 0xA000) (hi := 0xBFFF) (off := 0) rfl, bufRead_slotOf (by decide)] at hb
    exact Option.some.inj hb
  · have hb := good.byte (a := 0xBFFF) rfl
    rw [shownByte_rom (lo := 0xA000) (hi := 0xBFFF) (off := 0) rfl, bufRead_slotOf (by decide)] at hb
    exact Option.some.inj hb

/-- A piggyback behind an empty primary, and an image of the wrong size, are refused (section 3.7). -/
theorem test_insert_refused : exec (.insert .G (.named .std8) (img 8) [] true) State.reset = .refused (.insert .noPrimary) ∧
    exec (.insert .P (.named .std8) (img 16) [] true) State.reset = .refused (.insert .size) := by
  have h8 : insertFailure State.reset.clearOut .G .std8 (img 8) = some .noPrimary := by unfold insertFailure; rw [img_length]; decide
  have h16 : insertFailure State.reset.clearOut .P .std8 (img 16) = some .size := by unfold insertFailure; rw [img_length]; decide
  constructor
  · simp only [exec, execInsert, State.insertEvent, resolveKind, State.insertQuiet, h8, answer]
  · simp only [exec, execInsert, State.insertEvent, resolveKind, State.insertQuiet, h16, answer]

/-- `REMOVE P` with both slots occupied: both empty (section 3.7). -/
theorem test_remove : ∃ s t, Good s .xlxe (slotOf (.test .tSdx) 64 8#32) (slotOf (.test .tSub) 64 0#32) ∧ exec (.remove .P) s = .next t ∧
    t.p = Slot.empty ∧ t.g = Slot.empty := by
  have h := two_good 8#32 0#32
  obtain ⟨t, ht, -, -, -, hs, hg, -⟩ := State.removeEvent_spec h.inv.clearOut .P
  exact ⟨_, t, h, by simp only [exec, execRemove, ht, answer], hs, hg rfl⟩

/-- A nonvolatile cartridge is written back to its own file in its own format, here raw, when it is removed (45_slot_operations.md R171). -/
theorem test_remove_writes_back : ∃ s t r, Good s .xlxe (slotOf (.test .tNv) 8 0#32) Slot.empty ∧ exec (.remove .P) s = .next t ∧
    t.out.writes = [⟨[], img 8, r⟩] := by
  obtain ⟨s, h⟩ : ∃ s, Good s .xlxe (slotOf (.test .tNv) 8 0#32) Slot.empty :=
    ⟨_, placed_one (slotOf_inv _ (by decide) (by decide) (by decide) (by decide) rfl)⟩
  obtain ⟨t, ht, -, -, -, -, -, -, -, hw⟩ := State.removeEvent_spec h.inv.clearOut .P
  have hg : s.clearOut.writtenBack .G = s.clearOut := by
    unfold State.writtenBack
    rw [show s.clearOut.slot .G = Slot.empty from h.g]
    rfl
  have hp : (s.clearOut.setSlot .G Slot.empty).slot .P = slotOf (.test .tNv) 8 0#32 := h.p
  have hout := (hw.2 rfl).2
  unfold State.bothRemoved at hout
  rw [hg] at hout
  unfold State.writtenBack at hout
  rw [hp, if_pos (show (descr (slotOf (.test .tNv) 8 0#32).kind).nonvolatile = true from rfl)] at hout
  have hw1 : ∀ (u : State) (k : Kind) (b : List Byte), u.out.writes = [] →
      (u.writeFile [] k (some b) true).out.writes = [⟨[], b, u.nextIo⟩] := fun u k b hu => by
    simp [State.writeFile, hu, imageFile]
  have hout : t.out.writes = ((s.clearOut.setSlot .G Slot.empty).writeFile [] (.test .tNv) (some (img 8)) true).out.writes := (congrArg Output.writes hout).trans rfl
  rw [hw1 _ _ _ rfl] at hout
  exact ⟨s, t, _, h, by simp only [exec, execRemove, ht, answer], hout⟩

/-- `ROT_32` in state 3, `COLD`: state 0 (section 3.7). -/
theorem test_coldStart : ∃ s t, Good s .xlxe (slotOf .rot32 32 3#32) Slot.empty ∧ exec .coldStart s = .next t ∧ t.p.state = 0#32 ∧
    t.out.coldRestart = false := by
  obtain ⟨s, h⟩ : ∃ s, Good s .xlxe (slotOf .rot32 32 3#32) Slot.empty := ⟨_, rot32_good 3#32⟩
  obtain ⟨t, ht, -, hp, -, -, -, ho, -⟩ := State.coldStartEvent_spec h.inv.clearOut
  have hp : t.p = s.p.moved (descr s.p.kind).initState := hp
  exact ⟨s, t, h, by simp only [exec, execColdStart, ht, answer], by rw [hp, h.p]; rfl, by rw [ho]; rfl⟩

/-- The wiring of the third row of section 3.6. -/
def crossedMap : LineMap where
  amap := #v[2, 1, 0, 3, 4, 5, 6, 7, 8, 9, 10, 11, 12, 13, 14, 15, 16]
  dmap := #v[7, 1, 2, 3, 4, 5, 6, 0]
  amapPerm := by decide
  dmapPerm := by decide

/-- The rows of section 3.6: the address lines alone as the second row has them, and both crossings of the third. -/
theorem test_line_decoding : (List.range 8).map exampleLineMap.permAddr = [0, 2, 4, 6, 1, 3, 5, 7] ∧
    crossedMap.decoded [0x01#8, 0x02#8, 0x03#8, 0x80#8, 0x81#8, 0xFF#8, 0x00#8, 0x7E#8] =
      [0x80#8, 0x81#8, 0x82#8, 0x00#8, 0x02#8, 0xFF#8, 0x01#8, 0x7E#8] ∧
    [0x01#8, 0x02#8, 0x04#8, 0x03#8, 0xFF#8, 0x80#8].map exampleLineMap.permData = [0x02#8, 0x04#8, 0x01#8, 0x06#8, 0xFF#8, 0x80#8] := by decide

/-- An eight-byte buffer of a line-remapped kind. -/
def lineState (old : List Byte) : State := { State.reset with p := ⟨.test .tLine, 8, some old, 0#32, [], true⟩ }

/-- `LINE_REMAP` on eight bytes: address lines `[1, 2, 0]` and data lines `[1, 2, 0]` (section 3.6). -/
theorem test_lineRemap : ∃ t, exec (.lineRemap .P) (lineState [0#8, 1#8, 2#8, 3#8, 4#8, 5#8, 6#8, 7#8]) = .next t ∧
    t.p.buffer = some [0#8, 4#8, 1#8, 5#8, 2#8, 6#8, 3#8, 7#8] := ⟨_, rfl, by decide⟩

/-- A buffer its lines leave is refused (44_address_line_remapper.md R154). -/
theorem test_lineRemap_refused : exec (.lineRemap .P) (lineState [0#8, 1#8, 2#8]) = .refused .lineRemap := rfl

/-- The test tables of section 3.8, with two more rows for the kinds of section 3.7. -/
def testTables : LoaderTables where
  codes := [(.std8, 1#32), (.oss16, 3#32), (.test .tSdx, 5#32)]
  base := 200
  codeMax := 100
  sizeKinds := [.std8, .oss16, .test .tHook, .rot32, .test .tSdx]
  checksum := .byteSum
  presizeFill := 0xEE#8
  lawful := by decide

/-- A state with the test tables and two records without buffers. -/
def savedState (x y : Slot) : State := { State.reset with loader := some testTables, p := x, g := y }

/-- A type code instead of a kind: 0, 101 and -1 are outside `1..KIND_CODE_MAX`, 77 and 100 are no kind's, 1 is `STD_8`'s
(30_encoding.md R56, R62 e). -/
theorem test_type_codes : [0#32, 101#32, 0xFFFFFFFF#32].all (fun n => resolveKind testTables.ops (.code n) == .error .codeRange) = true ∧
    resolveKind testTables.ops (.code 77#32) = .error .codeOfNoKind ∧ resolveKind testTables.ops (.code 100#32) = .error .codeOfNoKind ∧
    resolveKind testTables.ops (.code 1#32) = .ok .std8 ∧ resolveKind testTables.ops (.code 3#32) = .ok .oss16 := by decide

/-- The piggyback-select pattern under the default mask and under a mask of two bits: a parameter, not a constant (41_type_descriptors.md R107). -/
theorem test_sdx_mask : ∀ v, (descr (.sdx v)).selects 0b01000#32 0b11000#32 = true ∧ (descr (.sdx v)).selects 0b11000#32 0b11000#32 = false ∧
    (descr (.sdx v)).selects 0b11000#32 0b01000#32 = true := fun _ => ⟨rfl, rfl, rfl⟩

/-- The defaults of 41_type_descriptors.md R93 hold for the SDX family and `CLAMP`. -/
theorem test_banked_defaults : ∀ v st addr, (descr (.sdx v)).status st addr = 0xFF#8 ∧ (descr (.sdx v)).rd st addr = none ∧
    (descr (.sdx v)).hook.isNone = true ∧ (descr .clamp).status st addr = 0xFF#8 ∧ (descr .clamp).rd st addr = none ∧
    (descr .clamp).hook.isNone = true ∧ (descr .clamp).passthrough.isNone = true := fun _ _ _ => ⟨rfl, rfl, rfl, rfl, rfl, rfl, rfl⟩

/-- The three records of section 3.7. -/
theorem test_saveState : (∃ t, exec .saveState (savedState ⟨.test .tSdx, 64, none, 2#32, ['p'], true⟩ ⟨.std8, 8, none, 0#32, ['g'], false⟩) = .next t ∧
      t.out.record = some [⟨-5#32, ['p'], 2#32, true⟩, ⟨1#32, ['g'], 0#32, false⟩]) ∧
    (∃ t, exec .saveState (savedState ⟨.test .tSdx, 64, none, 2#32, ['p'], true⟩ Slot.empty) = .next t ∧
      t.out.record = some [⟨5#32, ['p'], 2#32, true⟩]) ∧
    (∃ t, exec .saveState State.reset = .next t ∧ t.out.record = some [⟨0#32, [], 0#32, false⟩]) :=
  ⟨⟨_, rfl, by decide⟩, ⟨_, rfl, by decide⟩, ⟨_, rfl, by decide⟩⟩

/-- Restoring the record of an empty machine (section 3.7, third record). -/
theorem test_restoreState : ∃ t, exec (.restoreState [⟨0#32, [], 0#32, false⟩] []) State.reset = .next t ∧ t.p = Slot.empty ∧ t.g = Slot.empty ∧
    t.out.load = none := ⟨_, rfl, rfl, rfl, rfl⟩

/-- A record shorter than its sign promises is refused, and so is a code with no kind (93_implementation_defined.md U14; 45_slot_operations.md R180). -/
theorem test_restoreState_refused : exec (.restoreState [] []) State.reset = .refused .restoreRecord ∧
    exec (.restoreState [⟨77#32, [], 0#32, false⟩] []) (savedState Slot.empty Slot.empty) = .refused .restoreCode := ⟨rfl, rfl⟩

/-- The short files of section 3.8. -/
theorem test_readImage_short : (∃ t, exec (.readImage none) State.reset = .next t ∧ t.out.load = some .cantOpen) ∧
    (∃ t, exec (.readImage (some [])) (savedState Slot.empty Slot.empty) = .next t ∧ t.out.load = some .unknownSize) ∧
    (∃ t, exec (.readImage (some (Config.hdrMagic ++ List.replicate 6 0#8))) (savedState Slot.empty Slot.empty) = .next t ∧ t.out.load = some .badFormat) :=
  ⟨⟨_, rfl, rfl⟩, ⟨_, rfl, by decide⟩, ⟨_, rfl, by decide⟩⟩

/-- A sixteen-byte header with a type code and a stored checksum. -/
def header (code sum : Code) : List Byte := Config.hdrMagic ++ be32 code ++ be32 sum ++ [0#8, 0#8, 0#8, 0#8]

/-- Codes 0, 101 and -1 are out of range; with code 1 and too few bytes the result is `TooFewData` (section 3.8). -/
theorem test_readImage_codes :
    (∃ t, exec (.readImage (some (header 0#32 0#32 ++ [1#8]))) (savedState Slot.empty Slot.empty) = .next t ∧ t.out.load = some .badFormat) ∧
    (∃ t, exec (.readImage (some (header 101#32 0#32 ++ [1#8]))) (savedState Slot.empty Slot.empty) = .next t ∧ t.out.load = some .badFormat) ∧
    (∃ t, exec (.readImage (some (header 0xFFFFFFFF#32 0#32 ++ [1#8]))) (savedState Slot.empty Slot.empty) = .next t ∧ t.out.load = some .badFormat) ∧
    (∃ t, exec (.readImage (some (header 1#32 0x0001F000#32 ++ [1#8]))) (savedState Slot.empty Slot.empty) = .next t ∧ t.out.load = some .tooFewData) :=
  ⟨⟨_, rfl, by decide⟩, ⟨_, rfl, by decide⟩, ⟨_, rfl, by decide⟩, ⟨_, rfl, by decide⟩⟩

/-- `WRITE_IMAGE` of three bytes: the header of section 3.8's layout, or the bytes alone. -/
theorem test_writeImage :
    (∃ t w, exec (.writeImage ['f'] .std8 (some [1#8, 2#8, 0xFF#8]) false) (savedState Slot.empty Slot.empty) = .next t ∧ t.out.writes = [w] ∧
      w.bytes = [0x43#8, 0x41#8, 0x52#8, 0x54#8, 0#8, 0#8, 0#8, 1#8, 0#8, 0#8, 1#8, 2#8, 0#8, 0#8, 0#8, 0#8, 1#8, 2#8, 0xFF#8]) ∧
    (∃ t w, exec (.writeImage ['f'] .std8 (some [1#8, 2#8]) true) (savedState Slot.empty Slot.empty) = .next t ∧ t.out.writes = [w] ∧
      w.bytes = [1#8, 2#8]) := ⟨⟨_, _, rfl, rfl, by decide⟩, ⟨_, _, rfl, rfl, rfl⟩⟩

/-- `FULL_REMAP` disables both windows, `REMAP` of the inactive slot issues nothing (43_remap.md R140, R141). -/
theorem test_remaps : (∃ t, exec .fullRemap State.reset = .next t ∧ t.out.commands = [.disable 0x8000 0x9FFF, .disable 0xA000 0xBFFF]) ∧
    exec (.remap .G) State.reset = .next State.reset ∧ exec (.remap .P) State.reset = .next State.reset := ⟨⟨_, rfl, rfl⟩, rfl, rfl⟩

/-- A step takes the next event and runs it; with none pending nothing happens; a word that spells nothing is refused. -/
theorem test_step : step State.reset = .next State.reset ∧
    step { State.reset with input := [.bus 0x00D50000#32, .host 2 {}] } =
      .next { State.reset with input := [.host 2 {}], out := { data := some 0xFF#8 } } ∧
    step { State.reset with input := [.host 10 {}] } = .refused (.decode .reservedHostCode) := ⟨rfl, rfl, rfl⟩

/-- The first event after reset is the one placed. -/
theorem test_withFetchWord : step (State.reset.withFetchWord 32 0x01D50001) = .next { State.reset with out := { handled := some .unhandled } } := rfl

/-- The empty machine with the test tables is good. -/
theorem saved_inv : (savedState Slot.empty Slot.empty).Inv :=
  State.SameCore.inv (s := State.reset) ⟨rfl, rfl, rfl, rfl, rfl, rfl⟩ reset_good.inv

/-! ### Witnesses: encoding and decoding -/

theorem witness_DecodeOfEncode : (Instr.winRdLo5200 0x7FFF#16 0xFF#8).wf .a5200 = true ∧ (Instr.busOtherQ3 true true 0xFFFF#16 0xFF#8).wf .xlxe = true := by decide
theorem witness_EncodeOfDecodedWord : decode .xlxe (.bus 0x03FFFFFF#32) = .ok (.busOtherQ3 true true 0xFFFF#16 0xFF#8) := by decide
theorem witness_LongestMaskRowSelects : decode .a5200 (.bus 0x03D5FFFF#32) = .ok (.ctrlWrPeek 0xD5FF#16 0xFF#8) := by decide
theorem witness_EveryBusWordSpellsOneEvent : (0x03FFFFFF#32 : BitVec 32).toNat < 2 ^ 26 ∧ 2 ^ 26 ≤ (0x04000000#32 : BitVec 32).toNat := by decide
/-- The edges of the page: both outcomes, and both sides of the equivalence. -/
theorem witness_ControlPageDecode : (decodeFields .xlxe false true 0xD500#16 1#8).controlFields = some (false, true, 0xD500#16, 1#8) ∧
    (decodeFields .a5200 true true 0xD5FF#16 1#8).controlFields = some (true, true, 0xD5FF#16, 1#8) ∧
    (decodeFields .xlxe false false 0xD4FF#16 1#8).controlFields = none ∧ (decodeFields .a5200 false false 0xD600#16 1#8).controlFields = none ∧
    (busWord false true 0xD5FF#16 1#8).toNat &&& 0x03FF0000 = 0x01D50000 ∧ (busWord false true 0xD600#16 1#8).toNat &&& 0x03FF0000 ≠ 0x01D50000 := by decide
/-- The edges of the windows of both machines. -/
theorem witness_WindowDecode : (decodeFields .xlxe false false 0x8000#16 1#8).windowFields = some (false, false, 0x8000#16, 1#8) ∧
    (decodeFields .a5200 false false 0x4000#16 1#8).windowFields = some (false, false, 0x4000#16, 1#8) ∧
    (decodeFields .a5200 true false 0xBFFF#16 1#8).windowFields = some (true, false, 0xBFFF#16, 1#8) ∧
    (decodeFields .xlxe false false 0x7FFF#16 1#8).windowFields = none ∧ (decodeFields .a5200 false false 0x3FFF#16 1#8).windowFields = none ∧
    (decodeFields .xlxe false false 0xC000#16 1#8).windowFields = none := by decide
theorem witness_HostCodesDecode : 10 ≤ (10#8 : BitVec 8).toNat ∧ 10 ≤ (255#8 : BitVec 8).toNat := by decide
/-- No event pending; one that decodes; one that does not. -/
theorem witness_StepRunsTheDecodedInstruction : State.reset.input = [] ∧
    (∃ s : State, ∃ e rest i, s.input = e :: rest ∧ decode s.machine e = .ok i) ∧
    ∃ s : State, ∃ e rest r, s.input = e :: rest ∧ decode s.machine e = .error r :=
  ⟨rfl, ⟨{ State.reset with input := [.bus 0x00D50000#32] }, _, _, _, rfl, rfl⟩, ⟨{ State.reset with input := [.host 10 {}] }, _, _, _, rfl, rfl⟩⟩
theorem witness_OtherAddressesAreIgnored : (¬(0xD500 ≤ (0xD4FF#16 : Addr).toNat ∧ (0xD4FF#16 : Addr).toNat ≤ 0xD5FF) ∧ inWindow .xlxe (0xD4FF#16 : Addr).toNat = false) ∧
    (¬(0xD500 ≤ (0xD600#16 : Addr).toNat ∧ (0xD600#16 : Addr).toNat ≤ 0xD5FF) ∧ inWindow .a5200 (0xD600#16 : Addr).toNat = false) ∧
    inWindow .xlxe (0x7FFF#16 : Addr).toNat = false ∧ inWindow .a5200 (0x3FFF#16 : Addr).toNat = false ∧ inWindow .a5200 (0xC000#16 : Addr).toNat = false := by
  decide

/-! ### Witnesses: the control page and the windows -/

theorem witness_ControlReadResult : ∃ s : State, s.Inv ∧ s.p.kind = .test .tRdr := ⟨_, (tRdr_good 0#32).inv, by rw [(tRdr_good 0#32).p]; rfl⟩
theorem witness_ControlPeekReadsTheCurrentState : ∃ s : State, s.Inv ∧ onControlPage 0xD500#16 = true ∧ onControlPage 0xD5FF#16 = true :=
  ⟨_, (tRdr_good 0#32).inv, rfl, rfl⟩
theorem witness_ControlWriteResult : ∃ s : State, s.Inv ∧ s.g.kind = .test .tSub := ⟨_, (two_good 6#32 3#32).inv, by rw [(two_good 6#32 3#32).g]; rfl⟩
/-- A slot that handles a write, and one whose type gives no new state. -/
theorem witness_UnhandledWriteKeepsTheState : ∃ s : State, s.Inv ∧ (descr (s.slot .P).kind).wr (s.slot .P).state 0xD5D3#16 6#8 = some 6#32 ∧
    (descr (s.slot .G).kind).wr (s.slot .G).state 0xD5D3#16 6#8 = none :=
  ⟨_, (two_good 6#32 3#32).inv, by rw [show State.slot _ .P = _ from (two_good 6#32 3#32).p]; rfl,
    by rw [show State.slot _ .G = _ from (two_good 6#32 3#32).g]; rfl⟩
/-- Two states whose slots have one kind and one state word each, under another path. -/
theorem witness_ReadIsTheAndOfIndependentReads : ∃ s u : State, s.Inv ∧ s.p.kind ≠ .none ∧ s.g.kind ≠ .none ∧ u.Inv ∧
    (∀ sl, (u.slot sl).kind = (s.slot sl).kind ∧ (u.slot sl).state = (s.slot sl).state) ∧ (u.slot .P).path ≠ (s.slot .P).path := by
  have h := two_good 6#32 3#32
  have hx := h.inv.p
  rw [h.p, h.machine] at hx
  have hk : Slot.Inv .xlxe { slotOf (.test .tSdx) 64 6#32 with path := ['u'] } :=
    ⟨fun hk => (by cases hk), hx.buffer, hx.positive, hx.size, hx.machine, hx.lines, hx.writable⟩
  have hy := h.inv.g
  rw [h.g, h.machine] at hy
  have k := placed_good hk hy (fun _ => (by simp [slotOf]))
  refine ⟨_, _, h.inv, by rw [h.p]; simp [slotOf], by rw [h.g]; simp [slotOf], k.inv, fun sl => ?_, ?_⟩
  · cases sl
    · simp only [State.slot_P, h.p, k.p, and_self]
    · simp only [State.slot_G, h.g, k.g, and_self]
  · simp only [State.slot_P, h.p, k.p]
    decide
theorem witness_WindowReadResult : ∃ s : State, s.Inv ∧ firesHook (s.slot s.active) 0xBFF7#16 = true :=
  ⟨_, (tHook_good 0#32).inv, by rw [(tHook_good 0#32).slot_P]; rfl⟩
/-- Each case at the edges of its addresses: the hook fires on 0xBFF6 and 0xBFF7 and on no neighbour; a store at 0xA000 and 0xBFFF. -/
theorem witness_WindowWriteResult : (∃ s : State, s.Inv ∧ s.Marked ∧ firesHook (s.slot s.active) 0xBFF6#16 = true ∧
      firesHook (s.slot s.active) 0xBFF7#16 = true ∧ firesHook (s.slot s.active) 0xBFF5#16 = false ∧ storeOffset s 0xBFF5#16 = none ∧
      firesHook (s.slot s.active) 0xBFF8#16 = false ∧ storeOffset s 0xBFF8#16 = none) ∧
    ∃ s : State, s.Inv ∧ s.Marked ∧ storeOffset s 0xA000#16 = some 0 ∧ storeOffset s 0xBFFF#16 = some 0x1FFF := by
  obtain ⟨s, h⟩ : ∃ s, Good s .xlxe (slotOf (.test .tHook) 16 0#32) Slot.empty := ⟨_, tHook_good 0#32⟩
  obtain ⟨u, k⟩ : ∃ s, Good s .xlxe (slotOf (.test .tRam) 8 0#32) Slot.empty := ⟨_, tRam_good 0#32⟩
  have hs : ∀ addr, storeOffset s addr = none := fun addr => by
    unfold storeOffset
    rw [h.slot_P]
    split <;> rfl
  exact ⟨⟨s, h.inv, h.marked, by rw [h.slot_P]; rfl, by rw [h.slot_P]; rfl, by rw [h.slot_P]; rfl, hs _, by rw [h.slot_P]; rfl, hs _⟩,
    ⟨u, k.inv, k.marked, by rw [tRam_store k _ (by decide)]; rfl, by rw [tRam_store k _ (by decide)]; rfl⟩⟩
theorem witness_RamStoreIsReadBack : ∃ s : State, s.Inv ∧ s.Marked ∧ storeOffset s 0xA011#16 = some 0x11 :=
  ⟨_, (tRam_good 0#32).inv, (tRam_good 0#32).marked, by rw [tRam_store (tRam_good 0#32) _ (by decide)]; rfl⟩
theorem witness_ClosedRamDropsWrites : ∃ s : State, s.Inv ∧ (descr (s.slot s.active).kind).ram = some tRamOps ∧
    (tRamOps.locked (s.slot s.active).state = true ∨ tRamOps.writable (s.slot s.active).state = false) ∧ firesHook (s.slot s.active) 0xA000#16 = false := by
  obtain ⟨s, h⟩ : ∃ s, Good s .xlxe (slotOf (.test .tRam) 8 1#32) Slot.empty := ⟨_, tRam_good 1#32⟩
  exact ⟨s, h.inv, by rw [h.slot_P]; rfl, .inl (by rw [h.slot_P]; rfl), by rw [h.slot_P]; rfl⟩
/-- A ROM type in the active slot; and the types that have a hook. -/
theorem witness_RomWindowAccessChangesNothing : (∃ s : State, s.Inv ∧ (descr (s.slot s.active).kind).hook.isNone = true ∧
    (descr (s.slot s.active).kind).ram.isNone = true) ∧
    ∀ k, k = .bbsb ∨ k = .sc5200 ∨ k = .test .tHook → (descr k).hook.isSome = true := by
  obtain ⟨s, h⟩ : ∃ s, Good s .xlxe (slotOf .std8 8 0#32) Slot.empty := ⟨_, std8_good 0#32⟩
  refine ⟨⟨s, h.inv, by rw [h.slot_P]; rfl, by rw [h.slot_P]; rfl⟩, fun k hk => ?_⟩
  rcases hk with rfl | rfl | rfl <;> rfl

/-! ### Witnesses: the remap steps and the whole machine -/

/-- Also for `RemapShowsTheActiveSlotOnly` and `RemapIsIdempotent`: `P` is the active slot of this state and `G` is not. -/
theorem witness_FullRemapShowsTheActiveSlot : ∃ s : State, s.p.Inv s.machine ∧ s.g.Inv s.machine ∧ s.window.wf ∧ s.window.Inside s.machine ∧
    s.Inv ∧ s.Coherent ∧ s.active = .P := by
  have h := two_good 6#32 3#32
  exact ⟨_, h.inv.p, h.inv.g, h.inv.window, h.inv.inside, h.inv, h.coherent, by rw [h.active]; rfl⟩
theorem witness_RemapShowsTheActiveSlotOnly : ∃ s : State, s.Inv ∧ s.Coherent ∧ SlotName.P = s.active ∧ SlotName.G ≠ s.active := by
  have h := two_good 6#32 3#32
  exact ⟨_, h.inv, h.coherent, by rw [h.active]; rfl, by rw [h.active]; decide⟩
/-- Mappings with a `Ram`, a `RomAt` and a `Disabled` segment. -/
theorem witness_RemapShowsTheActiveSlotOnly_contents : (∃ x : Slot, x.Inv .xlxe ∧ ⟨0xA000, 0xBFFF, .ram⟩ ∈ (descr x.kind).map x.state .xlxe x.sizeKb) ∧
    (∃ x : Slot, x.Inv .xlxe ∧ ⟨0xA000, 0xBFFF, .romAt 0⟩ ∈ (descr x.kind).map x.state .xlxe x.sizeKb) ∧
    ∃ x : Slot, x.Inv .xlxe ∧ ⟨0xA000, 0xBFFF, .disabled⟩ ∈ (descr x.kind).map x.state .xlxe x.sizeKb :=
  ⟨⟨slotOf (.test .tRam) 8 0#32, slotOf_inv _ (by decide) (by decide) (by decide) (by decide) rfl, List.mem_singleton.2 rfl⟩,
    ⟨slotOf .std8 8 0#32, slotOf_inv _ (by decide) (by decide) (by decide) (by decide) rfl, List.mem_singleton.2 rfl⟩,
    ⟨slotOf .rot32 32 4#32, slotOf_inv _ (by decide) (by decide) (by decide) (by decide) rfl, List.mem_singleton.2 rfl⟩⟩
/-- The commands of a two-byte segment of each content, written out from 43_remap.md R138 and R139. -/
theorem test_segment_commands : let x : Slot := ⟨.test .tRam, 8, some [1#8, 2#8, 3#8, 4#8], 0#32, [], true⟩
    segCommands x ⟨0xA000, 0xA001, .disabled⟩ = some [.disable 0xA000 0xA001] ∧
    segCommands x ⟨0xA000, 0xA001, .fill⟩ = some [.copy 0xA000 0xA001 [0xFF#8, 0xFF#8], .enable 0xA000 0xA001] ∧
    segCommands x ⟨0xA000, 0xA001, .romAt 1⟩ = some [.copy 0xA000 0xA001 [2#8, 3#8], .enable 0xA000 0xA001] ∧
    segCommands x ⟨0xA002, 0xA003, .ram⟩ = some [.copy 0xA002 0xA003 [3#8, 4#8], .markRam 0xA002 0xA003, .enable 0xA002 0xA003] := by
  intro x
  have h : segBytes x ⟨0xA002, 0xA003, .ram⟩ = some [3#8, 4#8] := by
    show bufGather x ([0xA002, 0xA003].map (tRamOps.scatter 0#32)) = _
    simp [tRamOps_scatter, bufGather, x]
  exact ⟨rfl, rfl, rfl, by simp [segCommands, h]⟩
theorem witness_RemapIsIdempotent : ∃ s : State, s.Inv := ⟨_, (two_good 8#32 3#32).inv⟩

/-- The two-slot state with a control-page write pending: it meets the hypotheses of every statement about a step. -/
theorem pending_step : ∃ s t : State, s.Inv ∧ s.Coherent ∧
    s.slot .P = slotOf (.test .tSdx) 64 0#32 ∧ s.input = [.bus 0x01D50006#32] ∧ s.machine = .xlxe ∧ step s = .next t := by
  obtain ⟨s, h⟩ : ∃ s, Good s .xlxe (slotOf (.test .tSdx) 64 0#32) (slotOf (.test .tSub) 64 3#32) := ⟨_, two_good 0#32 3#32⟩
  have hin : { { s with input := [.bus 0x01D50006#32] } with input := [] } = s := by
    have := h.input
    obtain ⟨_, _, _, _, _, _, _, _, _, _, _⟩ := s
    simp only at this
    subst this
    rfl
  obtain ⟨t, ht, -⟩ := h.ctrlWr 0xD500#16 6#8
  have e : s.SameCore { s with input := [.bus 0x01D50006#32] } := ⟨rfl, rfl, rfl, rfl, rfl, rfl⟩
  refine ⟨{ s with input := [.bus 0x01D50006#32] }, t, e.inv h.inv, e.coherent h.coherent, h.p, rfl, h.machine, ?_⟩
  · have hd : decode s.machine (.bus 0x01D50006#32) = .ok (.ctrlWr 0xD500#16 6#8) := by rw [h.machine]; decide
    simp only [step, hd]
    rw [hin]
    exact ht

theorem pending_decodes (m : MachineKind) (sl : SlotName) : decode m (.bus 0x01D50006#32) ≠ .ok (.lineRemap sl) := by
  cases m <;> cases sl <;> decide

theorem witness_EveryStepKeepsCoherence : ∃ s t : State, s.Inv ∧ s.Coherent ∧
    (∀ e rest sl, s.input = e :: rest → decode s.machine e ≠ .ok (.lineRemap sl)) ∧ step s = .next t := by
  obtain ⟨s, t, h1, h2, -, h4, -, h5⟩ := pending_step
  exact ⟨s, t, h1, h2,
    fun e rest sl h => by rw [h4] at h; cases h; exact pending_decodes _ _, h5⟩
theorem witness_EveryStepKeepsTheMarks : ∃ s t : State, s.Inv ∧ s.Marked ∧ step s = .next t := by
  obtain ⟨s, t, h1, h2, -, -, -, h5⟩ := pending_step
  exact ⟨s, t, h1, h2.toMarked, h5⟩
theorem witness_WindowReadsShowTheMapping : ∃ s : State, s.Inv ∧ s.Coherent ∧ inWindow s.machine (0xA000#16 : Addr).toNat = true ∧
    inWindow s.machine (0x8000#16 : Addr).toNat = true ∧ firesHook (s.slot s.active) 0xBFF5#16 = false := by
  obtain ⟨s, h⟩ : ∃ s, Good s .xlxe (slotOf (.test .tHook) 16 0#32) Slot.empty := ⟨_, tHook_good 0#32⟩
  exact ⟨s, h.inv, h.coherent, by rw [h.machine]; rfl, by rw [h.machine]; rfl, by rw [h.slot_P]; rfl⟩
theorem witness_EveryStepKeepsTheInvariants : ∃ s t : State, s.Inv ∧ step s = .next t := by
  obtain ⟨s, t, h1, -, -, -, -, h5⟩ := pending_step
  exact ⟨s, t, h1, h5⟩
/-- A bus word pending; and a write neither slot reacts to. -/
theorem witness_BusEventsRaiseNothing : (∃ s : State, s.Inv ∧ s.Marked ∧ s.input = .bus 0x01D50006#32 :: [] ∧ (0x01D50006#32 : BitVec 32).toNat < 2 ^ 26) ∧
    ∃ s : State, s.Inv ∧ s.Marked ∧ s.p.kind ≠ .none ∧
      ∀ sl, (s.slot sl).kind ≠ .none → (descr (s.slot sl).kind).wr (s.slot sl).state 0xD5D2#16 0#8 = none := by
  obtain ⟨s, t, h1, h2, -, h4, -⟩ := pending_step
  obtain ⟨u, k⟩ : ∃ s, Good s .xlxe (slotOf (.test .tSub) 64 5#32) Slot.empty := ⟨_, tSub_good 5#32⟩
  refine ⟨⟨s, h1, h2.toMarked, h4, by decide⟩, ⟨u, k.inv, k.marked, by rw [k.p]; simp [slotOf], fun sl hk => ?_⟩⟩
  cases sl
  · rw [show u.slot .P = _ from k.p]; rfl
  · rw [show u.slot .G = _ from k.g]; rfl
theorem witness_RunsOfBusEventsAreSafe : ∃ s : State, s.Inv ∧ s.Marked ∧ s.input ≠ [] ∧
    ∀ e ∈ s.input, ∃ word : BitVec 32, e = .bus word ∧ word.toNat < 2 ^ 26 := by
  obtain ⟨s, t, h1, h2, -, h4, -⟩ := pending_step
  exact ⟨s, h1, h2.toMarked, by rw [h4]; simp, fun e he => ⟨0x01D50006#32, by rw [h4] at he; simpa using he, by decide⟩⟩
theorem witness_ParametersNeverChange : ∃ s t : State, s.Inv ∧ step s = .next t := witness_EveryStepKeepsTheInvariants
/-- `CTRL_WR` writes neither a buffer nor a cartridge's identity; `SAVE_STATE` writes no state word. -/
theorem witness_RecordFieldsHaveTheirWriters : (∃ s t : State, s.Inv ∧ exec (.ctrlWr 0xD500#16 6#8) s = .next t) ∧
    (Instr.ctrlWr 0xD500#16 6#8).replacesCartridge = false ∧ (Instr.ctrlWr 0xD500#16 6#8).writesBuffer = false ∧
    (∃ s t : State, s.Inv ∧ exec .saveState s = .next t) ∧ Instr.saveState.writesState = false := by
  obtain ⟨t, ht, -⟩ := (two_good 0#32 3#32).ctrlWr 0xD500#16 6#8
  exact ⟨⟨_, t, (two_good 0#32 3#32).inv, ht⟩, rfl, rfl, ⟨State.reset, _, reset_good.inv, rfl⟩, rfl⟩

/-! ### Witnesses: slot operations -/

/-- A code that denotes no kind, a failing precondition, and a sound insertion into the primary and into the piggyback slot. -/
theorem witness_InsertResult : (∃ s : State, s.Inv ∧ resolveKind s.loaderOps (.code 0#32) = .error .codeRange ∧
      resolveKind s.loaderOps (.code 1#32) = .ok .std8 ∧ insertFailure s .P .std8 (img 8) = none) ∧
    (∃ s : State, s.Inv ∧ insertFailure s .G .std8 (img 8) = some .noPrimary ∧ insertFailure s .P .std8 (img 8) = none) ∧
    ∃ s : State, s.Inv ∧ insertFailure s .G .std8 (img 8) = none := by
  have h1 : insertFailure State.reset .G .std8 (img 8) = some .noPrimary := by unfold insertFailure; rw [img_length]; decide
  have h2 : insertFailure State.reset .P .std8 (img 8) = none := by unfold insertFailure; rw [img_length]; decide
  have h := two_good 8#32 3#32
  refine ⟨⟨_, saved_inv, rfl, rfl, h2⟩, ⟨_, reset_good.inv, h1, h2⟩, ⟨_, h.inv, ?_⟩⟩
  unfold insertFailure
  rw [img_length, h.machine, h.p]
  simp [acceptsSize, acceptsMachine, typeEntry, std8Entry, lineMapOf, slotOf, descr, std8Descriptor, Descriptor.unsupported]
theorem witness_RemoveResult : ∃ s : State, s.Inv ∧ s.g.kind ≠ .none := by
  have h := two_good 8#32 3#32
  exact ⟨_, h.inv, by rw [h.g]; simp [slotOf]⟩
theorem witness_ColdStartResult : ∃ s : State, s.Inv ∧ s.p.kind = .rot32 := ⟨_, (rot32_good 3#32).inv, by rw [(rot32_good 3#32).p]; rfl⟩
theorem witness_SaveStateResult : (State.reset.p.kind ≠ .unknown ∧ State.reset.g.kind ≠ .unknown) ∧ ∃ s : State, s.Inv ∧ s.p.kind = .unknown :=
  ⟨by decide, ⟨_, unknown_good.inv, by rw [unknown_good.p]; rfl⟩⟩

theorem load_img64 : readImage testTables.ops (some (img 64)) = .ok (.test .tSdx) 64 (img 64) true := by
  unfold readImage
  simp only [img_length, readRaw, Config.kiloByte]
  rfl

theorem loadPath_one (ops : LoaderOps) (path : Text) (bytes : List Byte) : loadPath ops [⟨path, bytes⟩] path = readImage ops (some bytes) := by
  simp [loadPath]

/-- Both slots hold a `T_SDX` whose path loads `IMG(64)`; `G` is active. -/
theorem witness_SaveThenRestore : ∃ (s : State) (files : List FileAt), s.Inv ∧ s.Coherent ∧ s.active = .G ∧
    (∀ sl, (s.slot sl).kind ≠ .none → (s.slot sl).kind ≠ .unknown ∧
      ∃ bytes, LoadResult.image (loadPath s.loaderOps files (s.slot sl).path) = some bytes ∧ bytes.length = (s.slot sl).sizeKb * 1024) ∧
    (s.slot s.active).kind ≠ .none := by
  have hx : ∀ st, (slotOf (.test .tSdx) 64 st).Inv .xlxe := fun st => slotOf_inv st (by decide) (by decide) (by decide) (by decide) rfl
  obtain ⟨s, h⟩ : ∃ s, Good s .xlxe (slotOf (.test .tSdx) 64 8#32) (slotOf (.test .tSdx) 64 0#32) := ⟨_, placed_good (hx _) (hx _) (fun _ => (by simp [slotOf]))⟩
  have hsl : ∀ sl, ∃ st, State.slot { s with loader := some testTables } sl = slotOf (.test .tSdx) 64 st := fun sl => by
    cases sl
    · exact ⟨_, h.p⟩
    · exact ⟨_, h.g⟩
  have e : s.SameCore { s with loader := some testTables } := ⟨rfl, rfl, rfl, rfl, rfl, rfl⟩
  refine ⟨{ s with loader := some testTables }, [⟨[], img 64⟩], e.inv h.inv, e.coherent h.coherent,
    by rw [show State.active { s with loader := some testTables } = _ from h.active]; rfl, fun sl _ => ?_, ?_⟩
  · obtain ⟨st, hst⟩ := hsl sl
    rw [hst, show State.loaderOps { s with loader := some testTables } = testTables.ops from rfl,
      show (slotOf (.test .tSdx) 64 st).path = [] from rfl, show (slotOf (.test .tSdx) 64 st).kind = .test .tSdx from rfl, loadPath_one, load_img64]
    exact ⟨by decide, img 64, rfl, img_length 64⟩
  · obtain ⟨st, hst⟩ := hsl (State.active { s with loader := some testTables })
    rw [hst]
    simp [slotOf]
theorem load_img8 : readImage testTables.ops (some (img 8)) = .ok .std8 8 (img 8) true := by
  unfold readImage
  simp only [img_length, readRaw, Config.kiloByte]
  rfl

/-- The primary's path loads nothing; and the primary's loads `IMG(8)` while the piggyback's loads nothing. -/
theorem witness_RestoreOfNothing : ∃ (s : State) (e e2 : SaveEntry) (files : List FileAt), s.Inv ∧
    (e.code ≠ 0#32 ∧ kindOfCode s.loaderOps (absCode e.code) = some .std8 ∧ LoadResult.image (loadPath s.loaderOps [] e.path) = none) ∧
    e.code.toInt < 0 ∧ LoadResult.image (loadPath s.loaderOps files e.path) = some (img 8) ∧ insertFailure s .P .std8 (img 8) = none ∧
    kindOfCode s.loaderOps e2.code = some .oss16 ∧ LoadResult.image (loadPath s.loaderOps files e2.path) = none := by
  refine ⟨savedState Slot.empty Slot.empty, ⟨-1#32, [], 0#32, false⟩, ⟨3#32, ['q'], 0#32, false⟩, [⟨[], img 8⟩], saved_inv, ⟨by decide, by decide, rfl⟩,
    by decide, ?_, ?_, by decide, rfl⟩
  · rw [show (savedState Slot.empty Slot.empty).loaderOps = testTables.ops from rfl, loadPath_one, load_img8]
    rfl
  · unfold insertFailure
    rw [img_length]
    decide

/-- A code that is no kind's; a primary whose image loads, one whose image the kind refuses, a positive and a negative code, and for the piggyback a
code that is no kind's, an image its kind takes and one it refuses. -/
theorem witness_RestoreResult : ∃ (s : State) (files : List FileAt), s.Inv ∧ kindOfCode s.loaderOps (absCode 77#32) = none ∧
    (77#32 : Code) ≠ 0#32 ∧ (∀ c : Code, c = 1#32 ∨ c = -1#32 → c ≠ 0#32 ∧ kindOfCode s.loaderOps (absCode c) = some .std8) ∧
    0 < (1#32 : Code).toInt ∧ (-1#32 : Code).toInt < 0 ∧ LoadResult.image (loadPath s.loaderOps files []) = some (img 8) ∧
    insertFailure s .P .std8 (img 8) = none ∧ kindOfCode s.loaderOps (absCode 3#32) = some .oss16 ∧ insertFailure s .P .oss16 (img 8) = some .size ∧
    kindOfCode s.loaderOps 77#32 = none ∧ kindOfCode s.loaderOps 1#32 = some .std8 ∧ kindOfCode s.loaderOps 3#32 = some .oss16 := by
  refine ⟨savedState Slot.empty Slot.empty, [⟨[], img 8⟩], saved_inv, by decide, by decide, ?_, by decide, by decide, ?_, ?_, by decide, ?_, by decide,
    by decide, by decide⟩
  · rintro c (rfl | rfl) <;> decide
  · rw [show (savedState Slot.empty Slot.empty).loaderOps = testTables.ops from rfl, loadPath_one, load_img8]
    rfl
  · unfold insertFailure; rw [img_length]; decide
  · unfold insertFailure; rw [img_length]; decide

/-! ### Witnesses: line maps and image files -/

theorem witness_LineRemapResult : ∃ (s : State) (lm : LineMap) (old : List Byte), lineMapOf (s.slot .P).kind = some lm ∧ (s.slot .P).buffer = some old ∧
    old.length ≤ 2 ^ 17 ∧ ∀ i, i < old.length → lm.permAddr i < old.length :=
  ⟨lineState [0#8, 1#8, 2#8, 3#8, 4#8, 5#8, 6#8, 7#8], exampleLineMap, _, rfl, rfl, by decide, by decide⟩
theorem witness_LineRemapElsewhere : lineMapOf (State.reset.slot .P).kind = Option.none ∧ ∃ (s : State) (lm : LineMap) (old : List Byte),
    lineMapOf (s.slot .P).kind = some lm ∧ (s.slot .P).buffer = some old ∧ ¬(old.length ≤ 2 ^ 17 ∧ ∀ i, i < old.length → lm.permAddr i < old.length) :=
  ⟨rfl, ⟨lineState [0#8, 1#8, 2#8], exampleLineMap, _, rfl, rfl, by decide⟩⟩

/-- The inverse of the example wiring. -/
def inverseLineMap : LineMap where
  amap := #v[2, 0, 1, 3, 4, 5, 6, 7, 8, 9, 10, 11, 12, 13, 14, 15, 16]
  dmap := #v[2, 0, 1, 3, 4, 5, 6, 7]
  amapPerm := by decide
  dmapPerm := by decide

theorem witness_InverseTablesRestore : (∀ b : Fin 17, inverseLineMap.amap[exampleLineMap.amap[b]] = b) ∧
    (∀ b : Fin 8, inverseLineMap.dmap[exampleLineMap.dmap[b]] = b) ∧ exampleLineMap.fits 8 = true := by decide
/-- No entry, one entry and two entries of the size table, and the empty file. -/
theorem witness_RawSizeLookup : (∀ n, (img n).length % 1024 = 0) ∧
    (testTables.ops.sizeTable.filter fun r => decide (r.1 = (img 4).length / 1024)).map (·.2) = [] ∧
    (testTables.ops.sizeTable.filter fun r => decide (r.1 = (img 8).length / 1024)).map (·.2) = [.std8] ∧
    (testTables.ops.sizeTable.filter fun r => decide (r.1 = (img 16).length / 1024)).map (·.2) = [.oss16, .test .tHook] ∧ img 8 ≠ [] ∧ img 16 ≠ [] := by
  refine ⟨fun n => by rw [img_length]; omega, ?_, ?_, ?_, fun h => ?_, fun h => ?_⟩
  · rw [img_length]; decide
  · rw [img_length]; decide
  · rw [img_length]; decide
  · have := img_length 8; rw [h] at this; cases this
  · have := img_length 16; rw [h] at this; cases this
/-- Each of the four reasons, and a file refused whose code is a kind's. -/
theorem witness_BadFormatIsNoSizeAndNoHeader : ((header 1#32 0#32).take 10).length % 1024 ≠ 0 ∧ ((header 1#32 0#32).take 10).length < 16 ∧
    (header 1#32 0#32).length % 1024 ≠ 0 ∧ (0#8 :: header 1#32 0#32).take 4 ≠ [0x43#8, 0x41#8, 0x52#8, 0x54#8] ∧
    (readBe32 (header 0#32 0#32) 4).toInt < 1 ∧ ((savedState Slot.empty Slot.empty).loaderOps.codeMax : Int) < (readBe32 (header 101#32 0#32) 4).toInt ∧
    (kindOfCode (savedState Slot.empty Slot.empty).loaderOps (readBe32 ((header 1#32 0#32).take 10) 4)).isSome = true ∧
    exec (.readImage (some ((header 1#32 0#32).take 10))) (savedState Slot.empty Slot.empty) =
      .next { savedState Slot.empty Slot.empty with out := { load := some .badFormat } } := by
  refine ⟨by decide, by decide, by decide, by decide, by decide, by decide, by decide, rfl⟩
/-- A file with a valid header and too few bytes, and one with enough. -/
theorem witness_HeaderedRead : ∀ body : List Byte, body = [1#8] ∨ body = img 8 → (header 1#32 0#32 ++ body).length % 1024 ≠ 0 ∧
    16 ≤ (header 1#32 0#32 ++ body).length ∧ (header 1#32 0#32 ++ body).take 4 = [0x43#8, 0x41#8, 0x52#8, 0x54#8] ∧
    readBe32 (header 1#32 0#32 ++ body) 4 = 1#32 ∧ 1 ≤ (1#32 : Code).toInt ∧ (1#32 : Code).toInt ≤ testTables.ops.codeMax ∧
    kindOfCode testTables.ops 1#32 = some .std8 ∧ declaredKb .std8 = 8 := by
  intro body hb
  have hl : (header 1#32 0#32 ++ body).length = 16 + body.length := by
    rw [List.length_append, show (header 1#32 0#32).length = 16 by decide]
  have hn : body.length = 1 ∨ body.length = 8192 := by
    rcases hb with h | h
    · rw [h]; exact .inl rfl
    · rw [h, img_length]; exact .inr rfl
  have hr : readBe32 (header 1#32 0#32 ++ body) 4 = readBe32 (header 1#32 0#32) 4 := by
    simp only [readBe32, header, Config.hdrMagic, be32, List.cons_append, List.nil_append, List.getD_cons_succ, List.getD_cons_zero]
  exact ⟨by omega, by omega, by simp [header, Config.hdrMagic], hr.trans (by decide), by decide, by decide, rfl, rfl⟩
/-- A kind with a code and one entry of the size table, one with two, and the open table. -/
theorem witness_WriteThenRead : (img 8).length = declaredKb .std8 * 1024 ∧ (codeOf testTables.ops .std8).toInt ≤ testTables.ops.codeMax ∧
    Kind.std8 ∈ testTables.ops.sizeKinds ∧ Kind.oss16 ∈ testTables.ops.sizeKinds ∧ img 8 ≠ [] ∧
    (savedState Slot.empty Slot.empty).loaderOps = testTables.ops ∧ State.reset.loader = none ∧ declaresSize .std8 = true :=
  ⟨img_length 8, by decide, by decide, by decide, witness_RawSizeLookup.2.2.2.2.1, rfl, rfl, rfl⟩

/-! ### Witnesses: the named designs -/

theorem witness_PlainEightKilobyteRom : (img 8).length = 8192 ∧ (∃ s : State, s.Inv ∧ s.machine = .xlxe) ∧ ∃ s : State, s.Inv ∧ s.machine = .a5200 :=
  ⟨img_length 8, ⟨_, reset_good.inv, rfl⟩, ⟨_, (sc5200_good 0#32).inv, (sc5200_good 0#32).machine⟩⟩
theorem witness_OssLowNibbleSelects : (∃ s : State, s.Inv ∧ s.Coherent ∧ s.p.kind = .oss16 ∧ s.g.kind = .none) ∧ lowNibble 0xD5F0#16 = 0x0#4 ∧
    lowNibble 0xD503#16 = 0x3#4 ∧ lowNibble 0xD507#16 = 0x7#4 ∧ lowNibble 0xD508#16 = 0x8#4 := by
  have h := oss16_good ossSd
  exact ⟨⟨_, h.inv, h.coherent, by rw [h.p]; rfl, by rw [h.g]; rfl⟩, by decide⟩
/-- Every state word, in the cycle and above it, and an image to insert. -/
theorem witness_RotateOnEveryWrite : (∀ st : StateWord, ∃ s : State, s.Inv ∧ s.Coherent ∧ s.p.kind = .rot32 ∧ s.g.kind = .none ∧ s.p.state = st) ∧
    (4#32 : StateWord).toNat ≤ 4 ∧ State.reset.Inv ∧ State.reset.machine = .xlxe ∧ (img 32).length = 32768 := by
  refine ⟨fun st => ?_, by decide, reset_good.inv, rfl, img_length 32⟩
  have h := rot32_good st
  exact ⟨_, h.inv, h.coherent, by rw [h.p]; rfl, by rw [h.g]; rfl, by rw [h.p]; rfl⟩
/-- The successors of 4 (scenario 5) and of a state above the cycle. -/
theorem test_rotate_states : rotWr 4#32 = 0#32 ∧ rotWr 7#32 = 3#32 := by decide
/-- An SDX-family primary with an `STD_8` behind it, in a state with bit 3 clear and in one with it set (the example of 41_type_descriptors.md R107), and
one alone. -/
theorem witness_PiggybackSelectSwitchesTheSource : ∀ v, (∀ st, ∃ s : State, s.Inv ∧ s.Coherent ∧ s.p.kind = .sdx v ∧ s.g.kind = .std8 ∧
      s.p.state &&& s.sdxPbMask = st &&& 0b1000#32) ∧
    ∃ s : State, s.Inv ∧ s.Coherent ∧ s.p.kind = .sdx v ∧ s.g.kind = .none := by
  intro v
  refine ⟨fun st => ?_, ?_⟩
  · have h2 := placed_good (sdx_inv v st) (slotOf_inv (k := .std8) (kb := 8) 0#32 (by decide) (by decide) (by decide) (by decide) rfl)
      (fun _ => (by simp [slotOf]))
    exact ⟨_, h2.inv, h2.coherent, by rw [h2.p]; rfl, by rw [h2.g]; rfl, by rw [h2.p, h2.mask]; rfl⟩
  · have h1 := placed_one (sdx_inv v 8#32)
    exact ⟨_, h1.inv, h1.coherent, by rw [h1.p]; rfl, by rw [h1.g]; rfl⟩
/-- The pattern in the primary's state makes the `STD_8` behind it the active slot, and a state without it the primary. -/
theorem test_sdx_std8 : ∀ v, activeOf 0b1000#32 (slotOf (.sdx v) 1 8#32) (slotOf .std8 8 0#32) = .G ∧
    activeOf 0b1000#32 (slotOf (.sdx v) 1 0#32) (slotOf .std8 8 0#32) = .P := fun _ => by
  simp [activeOf, slotOf, Descriptor.selects, descr, typeEntry, sdxEntry, selectPattern]
/-- Both sides of the boundary. -/
theorem witness_ClampTakesTheDefaultArmFromFour : (∃ s : State, s.Inv ∧ s.p.kind = .clamp ∧ 4 ≤ s.p.state.toNat) ∧
    ∃ s : State, s.Inv ∧ s.p.kind = .clamp ∧ s.p.state.toNat < 4 :=
  ⟨⟨_, (clamp_good 4#32).inv, by rw [(clamp_good 4#32).p]; rfl, by rw [(clamp_good 4#32).p]; decide⟩,
    ⟨_, (clamp_good 3#32).inv, by rw [(clamp_good 3#32).p]; rfl, by rw [(clamp_good 3#32).p]; decide⟩⟩
theorem witness_WindowSwitchedDesigns : (∃ s : State, s.Inv ∧ s.p.kind = .bbsb ∧ s.g.kind = .none) ∧
    ∃ s : State, s.Inv ∧ s.p.kind = .sc5200 ∧ s.g.kind = .none :=
  ⟨⟨_, (bbsb_good 0#32).inv, by rw [(bbsb_good 0#32).p]; rfl, by rw [(bbsb_good 0#32).g]; rfl⟩,
    ⟨_, (sc5200_good 0#32).inv, by rw [(sc5200_good 0#32).p]; rfl, by rw [(sc5200_good 0#32).g]; rfl⟩⟩
theorem witness_UnknownKindShowsNothing : State.reset.Inv ∧ State.reset.g.kind = .none ∧ 0 < (img 1).length ∧ (img 1).length % 1024 = 0 :=
  ⟨reset_good.inv, rfl, by rw [img_length]; decide, by rw [img_length]⟩

end Sys2Proof.Tests
end

section
/-! PROOFS. What an event that answers leaves of a good state: the invariants, the parameters and the input, and in each slot record the fields the
event is no writer of (10_state.md R10, R12, R16, R23, R24). -/

namespace Sys2Proof.Machine

/-! ### The step and the answer of an operation -/

theorem step_of_idle {s : State} (h : s.input = []) : step s = .next s := by rw [step, h]

theorem step_of_decoded {s : State} {e : Event} {rest : List Event} {i : Instr} (h : s.input = e :: rest)
    (hd : decode s.machine e = .ok i) : step s = exec i { s with input := rest } := by rw [step, h]; simp only [hd]

theorem step_of_undecodable {s : State} {e : Event} {rest : List Event} {r : DecodeError} (h : s.input = e :: rest)
    (hd : decode s.machine e = .error r) : step s = .refused (.decode r) := by rw [step, h]; simp only [hd]

/-- Everything a step that answers can be: the idle step, or the meaning of the event that leaves the input. -/
theorem step_cases {s t : State} (ht : step s = .next t) : (s.input = [] ∧ t = s) ∨
    ∃ e rest i, s.input = e :: rest ∧ decode s.machine e = .ok i ∧ exec i { s with input := rest } = .next t := by
  cases hin : s.input with
  | nil =>
    rw [step_of_idle hin] at ht
    cases ht
    exact .inl ⟨rfl, rfl⟩
  | cons e rest =>
    cases hd : decode s.machine e with
    | error r => rw [step_of_undecodable hin hd] at ht; cases ht
    | ok i => exact .inr ⟨e, rest, i, rfl, hd, by rw [← step_of_decoded hin hd, ht]⟩

/-- An operation's answer is a next state exactly when the operation succeeds with it. -/
theorem answer_eq_next {r : Except Refusal State} {t : State} : answer r = .next t ↔ r = .ok t := by
  cases r <;> simp [answer]

/-! ### The writers of a slot record -/

@[simp] theorem Slot.moved_sizeKb (x : Slot) (n : StateWord) : (x.moved n).sizeKb = x.sizeKb := by unfold Slot.moved; split <;> rfl
@[simp] theorem Slot.moved_path (x : Slot) (n : StateWord) : (x.moved n).path = x.path := by unfold Slot.moved; split <;> rfl
@[simp] theorem Slot.moved_raw (x : Slot) (n : StateWord) : (x.moved n).raw = x.raw := by unfold Slot.moved; split <;> rfl
@[simp] theorem Slot.moved_buffer (x : Slot) (n : StateWord) : (x.moved n).buffer = x.buffer := by unfold Slot.moved; split <;> rfl

/-- The record `y` differs from `x` in no field but those the event `i` is a writer of (10_state.md R10, R24). -/
structure Slot.WrittenBy (i : Instr) (x y : Slot) : Prop where
  identity : i.replacesCartridge = false → y.kind = x.kind ∧ y.sizeKb = x.sizeKb ∧ y.path = x.path ∧ y.raw = x.raw
  buffer   : i.writesBuffer = false → y.buffer = x.buffer
  state    : i.writesState = false → y.state = x.state

/-- An event that replaces a cartridge is a writer of every field. -/
theorem Instr.writes_of_replacesCartridge {i : Instr} (h : i.replacesCartridge = true) : i.writesBuffer = true ∧ i.writesState = true := by
  cases i with
  | insert _ _ _ _ _ | remove _ | restoreState _ _ => exact ⟨rfl, rfl⟩
  | _ => cases h

variable {i : Instr} {x y : Slot} {s t : State}

theorem Slot.WrittenBy.same (hy : y = x) : x.WrittenBy i y := by
  subst hy
  exact ⟨fun _ => ⟨rfl, rfl, rfl, rfl⟩, fun _ => rfl, fun _ => rfl⟩

theorem Slot.WrittenBy.moved (hi : i.writesState = true) {n : StateWord} (hy : y = x.moved n) : x.WrittenBy i y := by
  subst hy
  exact ⟨fun _ => ⟨x.moved_kind n, x.moved_sizeKb n, x.moved_path n, x.moved_raw n⟩, fun _ => x.moved_buffer n, by simp [hi]⟩

theorem Slot.WrittenBy.rebuffered (hi : i.writesBuffer = true) {b : Option (List Byte)} (hy : y = { x with buffer := b }) : x.WrittenBy i y := by
  subst hy
  exact ⟨fun _ => ⟨rfl, rfl, rfl, rfl⟩, by simp [hi], fun _ => rfl⟩

theorem Slot.WrittenBy.replaced (hi : i.replacesCartridge = true) : x.WrittenBy i y := by
  obtain ⟨hb, hs⟩ := Instr.writes_of_replacesCartridge hi
  exact ⟨by simp [hi], by simp [hb], by simp [hs]⟩

/-! ### What a served event leaves -/

/-- What every event that answers leaves of a good state: a good state with the parameters and the pending input as they were, and in either
record only the event's own fields written. -/
structure Served (i : Instr) (s t : State) : Prop extends State.Under s t where
  inv    : t.Inv
  record : ∀ sl, (s.slot sl).WrittenBy i (t.slot sl)

theorem State.SameFrame.under (h : s.SameFrame t) : s.Under t := ⟨h.toSameParams, h.input⟩

/-- An event that gives an answer, or counts a write to storage, and does nothing else. -/
theorem Served.of_output (h : s.Inv) {o : Output} {n : Nat} (ht : (Host.Outcome.next { s with out := o, ioCount := n } : Answer) = .next t) :
    Served i s t := by
  cases ht
  have hsame : s.SameCore { s with out := o, ioCount := n } := ⟨rfl, rfl, rfl, rfl, rfl, rfl⟩
  exact ⟨⟨⟨rfl, rfl, rfl, rfl⟩, rfl⟩, hsame.inv h, fun sl => .same (hsame.slot sl)⟩

/-- An event whose meaning is an operation on the state with the old answer cleared. -/
theorem Served.of_answer {r : Except Refusal State} (ht : answer r = .next t) (hr : r = .ok t → Served i s.clearOut t) : Served i s t := by
  have hcleared : s.Under s.clearOut := ⟨⟨rfl, rfl, rfl, rfl⟩, rfl⟩
  obtain ⟨hunder, hinv, hrec⟩ := hr (answer_eq_next.1 ht)
  exact ⟨hcleared.trans hunder, hinv, fun sl => s.clearOut_slot sl ▸ hrec sl⟩

/-! ### The control page -/

theorem State.readSlot_peek (s : State) (sl : SlotName) (addr : Addr) : s.readSlot sl addr true = .ok (s, contribution (s.slot sl) addr) := by
  unfold State.readSlot contribution
  split <;> rfl

theorem State.writeSlot_peek (s : State) (sl : SlotName) (addr : Addr) (v : Byte) : s.writeSlot sl addr v true = .ok (s, .unhandled) := by
  unfold State.writeSlot
  split <;> rfl

theorem State.ctrlRead_peek (s : State) (addr : Addr) :
    s.ctrlRead addr true = .ok (s.giveData (Config.idleStatus &&& contribution s.p addr &&& contribution s.g addr)) := by
  simp only [State.ctrlRead, State.readSlot_peek, State.slot_P, State.slot_G]

theorem State.ctrlWrite_peek (s : State) (addr : Addr) (v : Byte) : s.ctrlWrite addr v true = .ok (s.giveHandled .unhandled) := by
  simp only [State.ctrlWrite, State.writeSlot_peek, Handled.or]

theorem State.ctrlRead_served (hi : i.writesState = true) (h : s.Inv) {addr : Addr} (ht : s.ctrlRead addr false = .ok t) : Served i s t := by
  obtain ⟨u, hu, hf, hp, hg, -, -, hinv, -⟩ := State.ctrlRead_spec h addr
  cases hu.symm.trans ht
  exact ⟨hf.under, hinv, fun | .P => .moved hi hp | .G => .moved hi hg⟩

theorem State.ctrlWrite_served (hi : i.writesState = true) (h : s.Inv) {addr : Addr} {v : Byte} (ht : s.ctrlWrite addr v false = .ok t) :
    Served i s t := by
  obtain ⟨u, hu, hf, hp, hg, -, -, hinv, -⟩ := State.ctrlWrite_spec h addr v
  cases hu.symm.trans ht
  exact ⟨hf.under, hinv, fun | .P => .moved hi hp | .G => .moved hi hg⟩

/-! ### The windows -/

theorem State.winReadEvent_served (hi : i.writesState = true) (h : s.Inv) {addr : Addr} (ht : s.winReadEvent addr = .ok t) : Served i s t := by
  obtain ⟨u, hu, hf, hself, hother, -, -, hinv, -⟩ := State.winReadEvent_spec h addr
  cases hu.symm.trans ht
  refine ⟨hf.under, hinv, fun sl => ?_⟩
  by_cases hsl : sl = s.active
  · exact .moved hi (hsl ▸ hself)
  · exact .same (hother sl hsl)

theorem bufWrite_eq_some {off : Nat} {v : Byte} (h : bufWrite x off v = some y) : y = { x with buffer := y.buffer } := by
  unfold bufWrite at h
  split at h
  · cases h
  · split at h <;> cases h
    rfl

/-- A RAM store that answers rewrites the buffer of its slot at most. -/
theorem State.ramStore_slot {sl : SlotName} {r : RamOps} {addr : Addr} {v : Byte} (ht : s.ramStore sl r addr v = .ok t) (tl : SlotName) :
    ∃ b, t.slot tl = { s.slot tl with buffer := b } := by
  unfold State.ramStore at ht
  split at ht
  · split at ht
    · cases ht
    · next x hx =>
      cases ht
      have hslot : ∀ w, State.slot { s.setSlot sl x with window := w } tl = (s.setSlot sl x).slot tl := fun w => by cases tl <;> rfl
      rw [hslot]
      by_cases htl : tl = sl
      · subst htl
        exact ⟨x.buffer, by rw [State.setSlot_slot]; exact bufWrite_eq_some hx⟩
      · exact ⟨_, State.setSlot_slot_ne _ _ _ htl⟩
  · cases ht
    exact ⟨_, rfl⟩

/-- A window write that answers moves the state word of a record, by the hook, or rewrites its buffer, by a store. -/
theorem State.winWriteEvent_slot (h : s.Inv) {addr : Addr} {v : Byte} (ht : s.winWriteEvent addr v = .ok t) (sl : SlotName) :
    (∃ n, t.slot sl = (s.slot sl).moved n) ∨ ∃ b, t.slot sl = { s.slot sl with buffer := b } := by
  unfold State.winWriteEvent at ht
  split at ht
  · cases ht
    exact .inr ⟨_, rfl⟩
  · next hk =>
    split at ht
    · obtain ⟨u, hu, -, hself, hother, -⟩ := State.fireHook_spec h hk addr true v
      cases hu.symm.trans ht
      by_cases hsl : sl = s.active
      · subst hsl
        exact .inl ⟨_, hself.trans (Slot.moved_of_occupied hk _).symm⟩
      · exact .inr ⟨_, hother sl hsl⟩
    · split at ht
      · cases ht
        exact .inr ⟨_, rfl⟩
      · split at ht
        · exact .inr (State.ramStore_slot ht sl)
        · cases ht
          exact .inr ⟨_, rfl⟩

theorem State.winWriteEvent_served (hs : i.writesState = true) (hb : i.writesBuffer = true) (h : s.Inv) {addr : Addr} {v : Byte}
    (ht : s.winWriteEvent addr v = .ok t) : Served i s t := by
  obtain ⟨hinv, hf⟩ := State.winWriteEvent_inv h ht
  refine ⟨hf.under, hinv, fun sl => ?_⟩
  rcases State.winWriteEvent_slot h ht sl with ⟨n, hn⟩ | ⟨b, hb'⟩
  · exact .moved hs hn
  · exact .rebuffered hb hb'

/-! ### The remap steps -/

theorem State.remap_served (h : s.Inv) {sl : SlotName} (ht : s.remap sl = .ok t) : Served i s t := by
  obtain ⟨cs, hcs, -, hwf, hin, -⟩ := State.remap_spec (h.slot sl) h.window h.inside
  cases hcs.symm.trans ht
  refine ⟨(State.Kept.issueAll s cs).under, ?_, fun _ => .same (by simp)⟩
  exact ⟨by simpa using h.p, by simpa using h.g, by simpa using h.chained, by simpa using h.active, hwf, by simpa using hin⟩

theorem State.fullRemap_served (h : s.Inv) (ht : s.fullRemap = .ok t) : Served i s t := by
  obtain ⟨u, hu, hk, hp, hg, hinv, -⟩ := h.ready.fullRemap
  cases hu.symm.trans ht
  exact ⟨hk.under, hinv, fun | .P => .same hp | .G => .same hg⟩

/-- `LINE_REMAP` that answers rewrites the buffer of its slot at most. -/
theorem State.lineRemap_slot {sl : SlotName} (ht : s.lineRemap sl = .ok t) (tl : SlotName) :
    ∃ b, t.slot tl = { s.slot tl with buffer := b } := by
  unfold State.lineRemap at ht
  split at ht
  · cases ht
    exact ⟨_, rfl⟩
  · split at ht
    · cases ht
    · split at ht
      · cases ht
        by_cases htl : tl = sl
        · subst htl
          exact ⟨_, State.setSlot_slot _ _ _⟩
        · exact ⟨_, State.setSlot_slot_ne _ _ _ htl⟩
      · cases ht

theorem State.lineRemap_served (hi : i.writesBuffer = true) (h : s.Inv) {sl : SlotName} (ht : s.lineRemap sl = .ok t) : Served i s t := by
  obtain ⟨hinv, hf, -⟩ := State.lineRemap_inv h ht
  refine ⟨hf.under, hinv, fun tl => ?_⟩
  obtain ⟨b, hb⟩ := State.lineRemap_slot ht tl
  exact .rebuffered hi hb

/-! ### The slot operations -/

/-- An insertion that answers was given a kind, and none of its preconditions fails. -/
theorem State.insertEvent_answers {sl : SlotName} {arg : KindArg} {bytes : List Byte} {path : Text} {raw : Bool}
    (ht : s.insertEvent sl arg bytes path raw = .ok t) :
    ∃ kind, resolveKind s.loaderOps arg = .ok kind ∧ insertFailure s sl kind bytes = Option.none := by
  unfold State.insertEvent at ht
  split at ht
  · cases ht
  · next kind hkind =>
    refine ⟨kind, hkind, ?_⟩
    cases hf : insertFailure s sl kind bytes with
    | none => rfl
    | some f => simp [State.insertQuiet, hf] at ht

theorem State.insertEvent_served (hi : i.replacesCartridge = true) (h : s.Inv) {sl : SlotName} {arg : KindArg} {bytes : List Byte}
    {path : Text} {raw : Bool} (ht : s.insertEvent sl arg bytes path raw = .ok t) : Served i s t := by
  obtain ⟨kind, hkind, hf⟩ := State.insertEvent_answers ht
  obtain ⟨u, hu, hunder, hinv, -⟩ := State.insertEvent_spec h hkind hf path raw
  cases hu.symm.trans ht
  exact ⟨hunder, hinv, fun _ => .replaced hi⟩

theorem State.removeEvent_served (hi : i.replacesCartridge = true) (h : s.Inv) {sl : SlotName} (ht : s.removeEvent sl = .ok t) :
    Served i s t := by
  obtain ⟨u, hu, hunder, hinv, -⟩ := State.removeEvent_spec h sl
  cases hu.symm.trans ht
  exact ⟨hunder, hinv, fun _ => .replaced hi⟩

theorem State.restoreEvent_served (hi : i.replacesCartridge = true) (h : s.Inv) {record : List SaveEntry} {files : List FileAt}
    (ht : s.restoreEvent record files = .ok t) : Served i s t := by
  obtain ⟨hinv, -, hunder⟩ := State.restoreEvent_good h ht
  exact ⟨hunder, hinv, fun _ => .replaced hi⟩

theorem State.coldStartEvent_served (hi : i.writesState = true) (h : s.Inv) (ht : s.coldStartEvent = .ok t) : Served i s t := by
  obtain ⟨u, hu, hk, hp, hg, hinv, -⟩ := State.coldStartEvent_spec h
  cases hu.symm.trans ht
  exact ⟨hk.under, hinv, fun | .P => .moved hi hp | .G => .moved hi hg⟩

theorem execSaveState_served (h : s.Inv) (ht : execSaveState s = .next t) : Served i s t := by
  unfold execSaveState at ht
  split at ht
  · cases ht
  · exact .of_output h ht

/-! ### Every event -/

/-- Every event that answers on a good state leaves a good one and writes only what it is a writer of, one arm of the dispatch at a time. -/
theorem exec_served (h : s.Inv) (ht : exec i s = .next t) : Served i s t := by
  have hc := h.clearOut
  cases i with
  | ctrlRd addr data => exact .of_answer ht (State.ctrlRead_served rfl hc)
  | ctrlRdPeek addr data => exact .of_output h ((congrArg answer (s.clearOut.ctrlRead_peek addr)).symm.trans ht)
  | ctrlWr addr data => exact .of_answer ht (State.ctrlWrite_served rfl hc)
  | ctrlWrPeek addr data => exact .of_output h ((congrArg answer (s.clearOut.ctrlWrite_peek addr data)).symm.trans ht)
  | winRd addr data => exact .of_answer ht (State.winReadEvent_served rfl hc)
  | winRdPeek addr data => exact .of_output h ht
  | winWr addr data => exact .of_answer ht (State.winWriteEvent_served rfl rfl hc)
  | winWrPeek addr data => exact .of_output h ht
  | winRdLo5200 addr data => exact .of_answer ht (State.winReadEvent_served rfl hc)
  | winRdPeekLo5200 addr data => exact .of_output h ht
  | winWrLo5200 addr data => exact .of_answer ht (State.winWriteEvent_served rfl rfl hc)
  | winWrPeekLo5200 addr data => exact .of_output h ht
  | busOtherQ0 p w addr data => exact .of_output h ht
  | busOtherQ1 p w addr data => exact .of_output h ht
  | busOtherQ3 p w addr data => exact .of_output h ht
  | insert slot kind bytes path raw => exact .of_answer ht (State.insertEvent_served rfl hc)
  | remove slot => exact .of_answer ht (State.removeEvent_served rfl hc)
  | coldStart => exact .of_answer ht (State.coldStartEvent_served rfl hc)
  | lineRemap slot => exact .of_answer ht (State.lineRemap_served rfl hc)
  | saveState => exact execSaveState_served h ht
  | restoreState record files => exact .of_answer ht (State.restoreEvent_served rfl hc)
  | readImage file => exact .of_output h ht
  | writeImage path kind buf raw => exact .of_output h ht
  | remap slot => exact .of_answer ht (State.remap_served hc)
  | fullRemap => exact .of_answer ht (State.fullRemap_served hc)

/-- What a step keeps of a good state: goodness and the parameters; and it takes the event it served, if there was one, off the input. -/
theorem step_keeps (h : s.Inv) (ht : step s = .next t) : t.Inv ∧ s.SameParams t ∧ t.input = s.input.tail := by
  rcases step_cases ht with ⟨hin, rfl⟩ | ⟨e, rest, i, hin, -, hex⟩
  · exact ⟨h, ⟨rfl, rfl, rfl, rfl⟩, by rw [hin]; rfl⟩
  · have hsame : s.SameCore { s with input := rest } := ⟨rfl, rfl, rfl, rfl, rfl, rfl⟩
    obtain ⟨⟨⟨hmachine, hauto, hloader, hmask⟩, hinput⟩, hinv, -⟩ := exec_served (hsame.inv h) hex
    exact ⟨hinv, ⟨hmachine, hauto, hloader, hmask⟩, by rw [hin]; exact hinput⟩

/-! ### The state after reset -/

theorem segmentOf_empty (m : MachineKind) (a : Nat) : segmentOf m Slot.empty a = Option.none := by
  rw [segmentOf, mappingOf_none rfl]
  rfl

theorem Window.empty_inside (m : MachineKind) : Window.empty.Inside m := by constructor <;> intro _ h <;> cases h

/-- The empty window image shows an empty slot. -/
theorem Window.empty_shows (m : MachineKind) : Window.empty.Shows m Slot.empty := fun a _ => by
  rw [shownByte, segmentOf_empty]
  exact ⟨rfl, rfl, rfl⟩

theorem State.reset_inv : State.reset.Inv :=
  ⟨Slot.empty_inv _, Slot.empty_inv _, fun h => absurd rfl h, rfl, Window.empty_wf, Window.empty_inside _⟩

theorem State.reset_coherent : State.reset.Coherent := State.coherent_iff.2 (Window.empty_shows _)

end Sys2Proof.Machine

/-! ### The obligations -/

namespace Sys2Proof.Proofs

open Sys2Proof Sys2Proof.Machine

/-- Settles O29: `step_keeps`, by the spec lemma of the operation behind each arm of the dispatch. -/
theorem everyStepKeepsTheInvariants : Obligations.EveryStepKeepsTheInvariants := fun _ _ h ht => (step_keeps h ht).1

/-- Settles O34: `step_keeps` again. -/
theorem parametersNeverChange : Obligations.ParametersNeverChange := fun _ _ h ht => (step_keeps h ht).2

/-- Settles O35: `exec_served` names the fields of a record each event is a writer of. -/
theorem recordFieldsHaveTheirWriters : Obligations.RecordFieldsHaveTheirWriters := fun _ _ _ h ht sl =>
  let hrec := (exec_served h ht).record sl
  ⟨hrec.identity, hrec.buffer, hrec.state⟩

/-- Settles O9, by the three equations of `step`. -/
theorem stepRunsTheDecodedInstruction : Obligations.StepRunsTheDecodedInstruction := fun _ =>
  ⟨step_of_idle, fun _ _ hin => ⟨fun _ => step_of_decoded hin, fun _ => step_of_undecodable hin⟩⟩

/-- Settles O30: empty records are good, and the empty window image shows one. -/
theorem resetIsGood : Obligations.ResetIsGood :=
  ⟨State.reset_inv, State.reset_coherent, State.reset_coherent.toMarked, rfl, rfl, rfl, rfl, fun _ => ⟨rfl, rfl⟩, rfl⟩

end Sys2Proof.Proofs
end

section
/-! PROOFS. The decoder as the region of the address and the form `(p, w)`: the event each region gives, and the row of the opcode table it has
(30_encoding.md R51 to R53, R55, R57, R62, R64). -/

namespace Sys2Proof

open Machine

/-! ### The event a region gives -/

/-- The instruction of a region and a form, with the fields of the word (30_encoding.md R52, R53, R57). -/
def BusRegion.event (p w : Bool) (addr : Addr) (data : Byte) : BusRegion → Instr
  | .controlPage => selectForm p w (.ctrlRd addr data) (.ctrlRdPeek addr data) (.ctrlWr addr data) (.ctrlWrPeek addr data)
  | .window => selectForm p w (.winRd addr data) (.winRdPeek addr data) (.winWr addr data) (.winWrPeek addr data)
  | .window5200 =>
    selectForm p w (.winRdLo5200 addr data) (.winRdPeekLo5200 addr data) (.winWrLo5200 addr data) (.winWrPeekLo5200 addr data)
  | .below => .busOtherQ0 p w addr data
  | .between => .busOtherQ1 p w addr data
  | .above => .busOtherQ3 p w addr data

section

variable (m : MachineKind) (r : BusRegion) (p w : Bool) (addr : Addr) (data : Byte)

theorem decodeFields_eq_event : decodeFields m p w addr data = (busRegion m addr).event p w addr data := by
  unfold decodeFields
  cases busRegion m addr <;> rfl

theorem decode_busWord : decode m (.bus (busWord p w addr data)) = .ok ((busRegion m addr).event p w addr data) :=
  (decodeBus_busWord m p w addr data).trans (congrArg _ (decodeFields_eq_event m p w addr data))

theorem BusRegion.encode_event : encode (r.event p w addr data) = .bus (busWord p w addr data) := by
  cases r <;> cases p <;> cases w <;> rfl

theorem BusRegion.wf_event : (r.event p w addr data).wf m = decide (busRegion m addr = r) := by
  cases r <;> cases p <;> cases w <;> rfl

theorem BusRegion.controlFields_event :
    (r.event p w addr data).controlFields = if r = .controlPage then some (p, w, addr, data) else none := by
  cases r <;> cases p <;> cases w <;> rfl

theorem BusRegion.windowFields_event :
    (r.event p w addr data).windowFields = if r = .window ∨ r = .window5200 then some (p, w, addr, data) else none := by
  cases r <;> cases p <;> cases w <;> rfl

end

/-- An event well formed on the machine is what its own encoding decodes to. -/
theorem BusRegion.decode_encode_event {m : MachineKind} (r : BusRegion) (p w : Bool) {addr : Addr} {data : Byte}
    (h : (r.event p w addr data).wf m = true) : decode m (encode (r.event p w addr data)) = .ok (r.event p w addr data) := by
  rw [r.wf_event, decide_eq_true_eq] at h
  rw [r.encode_event, decode_busWord, h]

theorem decode_bus_of_wide {m : MachineKind} {word : BitVec 32} (h : 2 ^ 26 ≤ word.toNat) :
    decode m (.bus word) = .error .busWordTooWide := if_pos h

/-- A word that decodes is the packing of fields, and decodes to their event in the region of the address. -/
theorem decode_bus_cases {m : MachineKind} {word : BitVec 32} {i : Instr} (h : decode m (.bus word) = .ok i) :
    ∃ p w addr data, word = busWord p w addr data ∧ i = (busRegion m addr).event p w addr data := by
  by_cases hw : word.toNat < 2 ^ 26
  · rw [← busWord_fields hw, decode_busWord] at h
    cases h
    exact ⟨_, _, _, _, (busWord_fields hw).symm, rfl⟩
  · rw [decode_bus_of_wide (Nat.le_of_not_lt hw)] at h
    cases h

theorem decodeHost_of_reserved {code : BitVec 8} (h : 10 ≤ code.toNat) (ops : HostOps) : decodeHost code ops = .error .reservedHostCode := by
  obtain ⟨n, hn⟩ := Nat.exists_eq_add_of_le' h
  rw [decodeHost, hn]
  rfl

/-! ### The region of an address -/

/-- No address lies in two regions of a machine. -/
theorem BusRegion.Holds.unique {m : MachineKind} {a : Nat} {r r' : BusRegion} (hr : r.Holds m a) (hr' : r'.Holds m a) : r' = r := by
  cases r <;> cases r' <;> simp only [Holds, reduceCtorEq] at hr hr' ⊢ <;> grind

theorem busRegion_eq_iff {m : MachineKind} {addr : Addr} {r : BusRegion} : busRegion m addr = r ↔ r.Holds m addr.toNat :=
  ⟨fun h => h ▸ busRegion_holds m addr, fun h => h.unique (busRegion_holds m addr)⟩

/-- The window regions are the cartridge windows of the machine. -/
theorem busRegion_window_iff {m : MachineKind} {addr : Addr} :
    busRegion m addr = .window ∨ busRegion m addr = .window5200 ↔ inWindow m addr.toNat = true := by
  rw [busRegion_eq_iff, busRegion_eq_iff]
  cases m with
  | xlxe => simp [BusRegion.Holds, inWindow_xlxe_iff]
  | a5200 => simp only [BusRegion.Holds, inWindow_a5200_iff, true_and]; omega

/-! ### The row a region gives -/

/-- The row of a region and a form (30_encoding.md R64); outside page and windows the form is free. -/
def BusRegion.row (p w : Bool) : BusRegion → BusRow
  | .controlPage => .page p w
  | .window => .window p w
  | .window5200 => .window5200 p w
  | .below => .other none belowBlock
  | .between => .other (some .xlxe) only5200Block
  | .above => .other none aboveBlock

/-- Whether the rows of a region fix the bits of the form. -/
def BusRegion.FixesForm : BusRegion → Prop
  | .controlPage | .window | .window5200 => True
  | .below | .between | .above => False

/-- The addresses the rows of a region match: the region's own, and for the row above every window the control page as well. -/
def BusRegion.Covers (m : MachineKind) (a : Nat) : BusRegion → Prop
  | .above => 0xC000 ≤ a
  | r => r.Holds m a

theorem BusRegion.Holds.covers {m : MachineKind} {a : Nat} {r : BusRegion} (h : r.Holds m a) : r.Covers m a := by
  cases r with
  | above => exact h.1
  | _ => exact h

/-- Of the regions whose rows cover an address, only the one above every window can be another than the address's own, on the control page. -/
theorem BusRegion.Covers.eq_or_page {m : MachineKind} {a : Nat} {r r' : BusRegion} (hr : r.Holds m a) (hr' : r'.Covers m a) :
    r' = r ∨ r = .controlPage ∧ r' = .above := by
  cases r' with
  | above =>
    by_cases hpage : 0xD500 ≤ a ∧ a ≤ 0xD5FF
    · exact .inr ⟨Holds.unique (r' := .controlPage) hr hpage ▸ rfl, rfl⟩
    · exact .inl (hr.unique ⟨hr', hpage⟩)
  | _ => exact .inl (hr.unique hr')

/-- The table lists the rows of the regions that fix the form, each in the four forms, and then the other three. -/
theorem busRows_eq : busRows = ([.controlPage, .window, .window5200].flatMap fun r : BusRegion =>
    [(false, false), (true, false), (false, true), (true, true)].map fun f => r.row f.1 f.2) ++
    [.below, .between, .above].map (BusRegion.row false false) := rfl

theorem mem_busRows_iff {row : BusRow} : row ∈ busRows ↔ ∃ (r : BusRegion) (p w : Bool), row = r.row p w := by
  constructor
  · rw [busRows_eq, List.mem_append, List.mem_flatMap, List.mem_map]
    rintro (⟨r, -, hr⟩ | ⟨r, -, rfl⟩)
    · obtain ⟨f, -, rfl⟩ := List.mem_map.1 hr
      exact ⟨r, f.1, f.2, rfl⟩
    · exact ⟨r, false, false, rfl⟩
  · rintro ⟨r, p, w, rfl⟩
    cases r <;> cases p <;> cases w <;> decide

/-- Where the form is free, the row is the same for every form. -/
theorem BusRegion.row_congr {r : BusRegion} {p w p' w' : Bool} (h : r.FixesForm → p' = p ∧ w' = w) : r.row p' w' = r.row p w := by
  cases r with
  | controlPage | window | window5200 => obtain ⟨rfl, rfl⟩ := h trivial; rfl
  | below | between | above => rfl

theorem BusRegion.above_mask_lt_page {p w p' w' : Bool} :
    maskBits (BusRegion.above.row p' w').mask < maskBits (BusRegion.controlPage.row p w).mask := by
  show maskBits 0x00C00000 < maskBits 0x03FF0000
  decide

theorem BusRegion.busRow_event (r : BusRegion) (p w : Bool) (addr : Addr) (data : Byte) : (r.event p w addr data).busRow = some (r.row p w) := by
  cases r <;> cases p <;> cases w <;> rfl

theorem BusRow.matchesWord_iff {row : BusRow} {m : MachineKind} {word : BitVec 32} :
    row.matchesWord m word = true ↔ (row.machine = none ∨ row.machine = some m) ∧ word.toNat &&& row.mask = row.mtch := by
  rw [BusRow.matchesWord, Bool.and_eq_true, decide_eq_true_eq, decide_eq_true_eq]

theorem bool_eq_iff_toNat_eq (a b : Bool) : a = b ↔ a.toNat = b.toNat := by cases a <;> cases b <;> decide

/-- Which rows match a word: the machine and the block of addresses must fit, and the form where the row fixes it (30_encoding.md R64). -/
theorem BusRegion.row_matches_iff (r : BusRegion) (p' w' : Bool) (m : MachineKind) (p w : Bool) (addr : Addr) (data : Byte) :
    (r.row p' w').matchesWord m (busWord p w addr data) = true ↔ r.Covers m addr.toNat ∧ (r.FixesForm → p' = p ∧ w' = w) := by
  have ha := addr.isLt
  have hd := data.isLt
  have hp := Bool.toNat_le p
  have hw := Bool.toNat_le w
  have hp' := Bool.toNat_le p'
  have hw' := Bool.toNat_le w'
  rw [BusRow.matchesWord_iff, busWord_toNat, bool_eq_iff_toNat_eq p' p, bool_eq_iff_toNat_eq w' w]
  cases r <;> simp only [row, Covers, Holds, FixesForm, BusRow.page_eq, BusRow.window_eq, BusRow.window5200_eq, BusRow.below_eq, BusRow.between_eq,
    BusRow.above_eq, and_page, and_window, and_quarter, formBits, forall_const, true_or, true_and, reduceCtorEq, false_or, Option.some.injEq,
    eq_comm (b := m), IsEmpty.forall_iff, and_true, and_assoc, and_congr_right_iff] <;> omega

/-- Match and mask of a row that fixes the form say, of a word of that form, whether the row covers its address (30_encoding.md R52, R53). -/
theorem BusRegion.mask_iff {r : BusRegion} (hform : r.FixesForm) (m : MachineKind) {p w : Bool}
    (hm : (r.row p w).machine = none ∨ (r.row p w).machine = some m) (addr : Addr) (data : Byte) :
    (busWord p w addr data).toNat &&& (r.row p w).mask = (r.row p w).mtch ↔ r.Covers m addr.toNat := by
  have h := r.row_matches_iff p w m p w addr data
  simpa only [BusRow.matchesWord_iff, hm, hform, true_and, and_self, imp_self, and_true] using h

/-- A match written with its form bits apart (30_encoding.md R52, R53). -/
theorem or_form_eq {b : Nat} (hb : b < 2 ^ 24) (p w : Bool) : b ||| p.toNat <<< 25 ||| w.toNat <<< 24 = formBits p w + b := by
  have hw := Bool.toNat_le w
  calc b ||| p.toNat <<< 25 ||| w.toNat <<< 24
    _ = p.toNat <<< 25 ||| (w.toNat <<< 24 ||| b) := by rw [Nat.or_comm b, Nat.or_assoc, Nat.or_comm b]
    _ = p.toNat <<< 25 + (w.toNat <<< 24 + b) := by
      rw [← Nat.shiftLeft_add_eq_or_of_lt hb, ← Nat.shiftLeft_add_eq_or_of_lt (by omega)]
    _ = formBits p w + b := by rw [formBits, Nat.shiftLeft_eq, Nat.shiftLeft_eq, Nat.add_assoc]

end Sys2Proof

/-! ### The obligations -/

namespace Sys2Proof.Proofs

open Sys2Proof Sys2Proof.Machine

/-- Settles O1: an instruction is the event of its region and form, or a host command with a code of its own. -/
theorem decodeOfEncode : Obligations.DecodeOfEncode := by
  intro m i h
  cases i with
  | ctrlRd addr data => exact BusRegion.controlPage.decode_encode_event false false h
  | ctrlRdPeek addr data => exact BusRegion.controlPage.decode_encode_event true false h
  | ctrlWr addr data => exact BusRegion.controlPage.decode_encode_event false true h
  | ctrlWrPeek addr data => exact BusRegion.controlPage.decode_encode_event true true h
  | winRd addr data => exact BusRegion.window.decode_encode_event false false h
  | winRdPeek addr data => exact BusRegion.window.decode_encode_event true false h
  | winWr addr data => exact BusRegion.window.decode_encode_event false true h
  | winWrPeek addr data => exact BusRegion.window.decode_encode_event true true h
  | winRdLo5200 addr data => exact BusRegion.window5200.decode_encode_event false false h
  | winRdPeekLo5200 addr data => exact BusRegion.window5200.decode_encode_event true false h
  | winWrLo5200 addr data => exact BusRegion.window5200.decode_encode_event false true h
  | winWrPeekLo5200 addr data => exact BusRegion.window5200.decode_encode_event true true h
  | busOtherQ0 p w addr data => exact BusRegion.below.decode_encode_event p w h
  | busOtherQ1 p w addr data => exact BusRegion.between.decode_encode_event p w h
  | busOtherQ3 p w addr data => exact BusRegion.above.decode_encode_event p w h
  | insert _ _ _ _ _ | remove _ | coldStart | lineRemap _ | saveState | restoreState _ _ | readImage _ | writeImage _ _ _ _ | remap _
  | fullRemap => rfl

/-- Settles O2: the instruction is the event of the word's fields in the region of its address. -/
theorem encodeOfDecodedWord : Obligations.EncodeOfDecodedWord := by
  intro m word i h
  obtain ⟨p, w, addr, data, rfl, rfl⟩ := decode_bus_cases h
  exact ⟨by rw [BusRegion.wf_event, decide_eq_true rfl], BusRegion.encode_event _ _ _ _ _⟩

/-- Settles O4: a row that matches is the region's own, or the row above every window where the address is on the control page. -/
theorem longestMaskRowSelects : Obligations.LongestMaskRowSelects := by
  intro m word i h
  obtain ⟨p, w, addr, data, rfl, rfl⟩ := decode_bus_cases h
  have hr := busRegion_holds m addr
  generalize busRegion m addr = r at hr
  refine ⟨r.row p w, r.busRow_event p w addr data, mem_busRows_iff.2 ⟨r, p, w, rfl⟩,
    (r.row_matches_iff p w m p w addr data).2 ⟨hr.covers, fun _ => ⟨rfl, rfl⟩⟩, fun row hrow hmatch => ?_⟩
  obtain ⟨r', p', w', rfl⟩ := mem_busRows_iff.1 hrow
  obtain ⟨hcovers, hform⟩ := (r'.row_matches_iff p' w' m p w addr data).1 hmatch
  obtain rfl | ⟨rfl, rfl⟩ := hcovers.eq_or_page hr
  · exact .inl (BusRegion.row_congr hform)
  · exact .inr BusRegion.above_mask_lt_page

/-- Settles O6: the control-page events are those of one region, whose rows cover its addresses and no other. -/
theorem controlPageDecode : Obligations.ControlPageDecode := by
  intro m p w addr data
  refine ⟨_, decode_busWord m p w addr data, ?_, ?_⟩
  · simp only [BusRegion.controlFields_event, busRegion_eq_iff, BusRegion.Holds]
    split <;> rfl
  · rw [or_form_eq (by decide)]
    exact BusRegion.mask_iff (r := .controlPage) trivial m (.inl rfl) addr data

/-- Settles O7: the window events are those of two regions, the cartridge windows of the machine. -/
theorem windowDecode : Obligations.WindowDecode := by
  intro m p w addr data
  refine ⟨_, decode_busWord m p w addr data, ?_, ?_, ?_, ?_⟩
  · simp only [BusRegion.windowFields_event, busRegion_window_iff]
    cases m <;> simp only [inWindow_xlxe_iff, inWindow_a5200_iff] <;> split <;> rfl
  · rw [or_form_eq (by decide)]
    exact BusRegion.mask_iff (r := .window) trivial m (.inl rfl) addr data
  · rw [or_form_eq (by decide)]
    exact (BusRegion.mask_iff (r := .window5200) trivial .a5200 (.inr rfl) addr data).trans (and_iff_right rfl)
  · rw [BusRegion.controlFields_event, BusRegion.windowFields_event]
    cases busRegion m addr <;> simp

/-- Settles O10: off the page and the windows the region is one of the three whose instructions clear the answer alone. -/
theorem otherAddressesAreIgnored : Obligations.OtherAddressesAreIgnored := by
  refine ⟨fun s p w addr data hpage hwin => ⟨_, decode_busWord s.machine p w addr data, ?_⟩, fun _ _ _ _ _ => ⟨rfl, rfl, rfl⟩⟩
  have hpage : busRegion s.machine addr ≠ .controlPage := fun h => hpage (busRegion_eq_iff.1 h)
  have hwin : ¬(busRegion s.machine addr = .window ∨ busRegion s.machine addr = .window5200) := by
    rw [busRegion_window_iff, hwin]; decide
  cases hr : busRegion s.machine addr with
  | controlPage => exact absurd hr hpage
  | window => exact absurd (.inl hr) hwin
  | window5200 => exact absurd (.inr hr) hwin
  | below | between | above => rfl

/-- Settles O3, by evaluating the decoder on the nine events. -/
theorem writtenOutWordsDecode : Obligations.WrittenOutWordsDecode := by
  unfold Obligations.WrittenOutWordsDecode
  decide

/-- Settles O5: a word below 2^26 is the packing of its fields, which decode. -/
theorem everyBusWordSpellsOneEvent : Obligations.EveryBusWordSpellsOneEvent := fun m _ =>
  ⟨fun h => ⟨_, busWord_fields h ▸ decode_busWord m _ _ _ _⟩, decode_bus_of_wide⟩

/-- Settles O8: the ten arms of `decodeHost`, and the refusal of every other code. -/
theorem hostCodesDecode : Obligations.HostCodesDecode := fun _ ops =>
  ⟨rfl, rfl, rfl, rfl, rfl, rfl, rfl, rfl, rfl, rfl, fun _ h => decodeHost_of_reserved h ops⟩

end Sys2Proof.Proofs
end

section
/-! PROOFS. The control page: what a slot answers, what each of the four events does, and that a read's byte is a function of kinds and state words
(40_control_page_access.md R71 to R79, R81, R82). -/

namespace Sys2Proof.Machine

/-! ### What a slot answers -/

variable {x : Slot} {addr : Addr} {data : Byte}

theorem Handled.ofBool_eq_handled {b : Bool} : Handled.ofBool b = .handled ↔ b = true := by cases b <;> decide

theorem Handled.ofBool_eq_unhandled {b : Bool} : Handled.ofBool b = .unhandled ↔ b = false := by cases b <;> decide

theorem reacts_iff : reacts x addr data = true ↔ x.kind ≠ .none ∧ ∃ n, (descr x.kind).wr x.state addr data = some n := by
  simp only [reacts, Bool.and_eq_true, decide_eq_true_eq, Option.isSome_iff_exists]

theorem reacts_eq_false_iff : reacts x addr data = false ↔ (x.kind ≠ .none → (descr x.kind).wr x.state addr data = none) := by
  rw [← Bool.not_eq_true, reacts_iff, not_and, ← Option.isSome_iff_exists, Option.not_isSome_iff_eq_none]

/-- A slot whose table gives no new state keeps its whole record (40_control_page_access.md R74). -/
theorem Slot.moved_writeNext_of_none (h : (descr x.kind).wr x.state addr data = none) : x.moved (writeNext x addr data) = x := by
  rw [writeNext, h]
  exact x.moved_self

theorem SlotName.exists_iff {p : SlotName → Prop} : (∃ sl, p sl) ↔ p .P ∨ p .G :=
  ⟨fun | ⟨.P, h⟩ => .inl h | ⟨.G, h⟩ => .inr h, fun | .inl h => ⟨_, h⟩ | .inr h => ⟨_, h⟩⟩

theorem SlotName.forall_iff {p : SlotName → Prop} : (∀ sl, p sl) ↔ p .P ∧ p .G :=
  ⟨fun h => ⟨h .P, h .G⟩, fun h => fun | .P => h.1 | .G => h.2⟩

/-- The byte an occupied slot gives after a transition to `n`, whatever its buffer, size and path. -/
theorem contribution_moved_of_occupied (h : x.kind ≠ .none) (n : StateWord) : contribution (x.moved n) addr = (descr x.kind).status n addr := by
  rw [contribution, Slot.moved_kind, if_neg h, Slot.moved_of_occupied h, statusByte]

theorem idleStatus_and (b : Byte) : Config.idleStatus &&& b = b := BitVec.allOnes_and

/-! ### The events -/

variable {s : State}

theorem State.sameFrame_clearOut (s : State) : s.SameFrame s.clearOut := ⟨⟨rfl, rfl, rfl, rfl⟩, rfl, rfl⟩

/-- In a good state `active` is what the mask and the records make it, the mask as it was before an event that keeps it (10_state.md R16). -/
theorem State.Inv.active_of_sameFrame {t : State} (h : t.Inv) (hf : s.SameFrame t) : t.active = activeOf s.sdxPbMask t.p t.g :=
  hf.sdxPbMask ▸ h.active

theorem exec_ctrlRdPeek (s : State) (addr : Addr) (data : Byte) : exec (.ctrlRdPeek addr data) s =
    .next { s with out := { data := some (contribution s.p addr &&& contribution s.g addr) } } := by
  have hpeek := congrArg answer (s.clearOut.ctrlRead_peek addr)
  rw [idleStatus_and] at hpeek
  exact hpeek

theorem exec_ctrlWrPeek (s : State) (addr : Addr) (data : Byte) : exec (.ctrlWrPeek addr data) s =
    .next { s with out := { handled := some .unhandled } } :=
  congrArg answer (s.clearOut.ctrlWrite_peek addr data)

/-- `on_read` of an occupied slot of a good state answers a byte that the slot's kind and state word determine
(40_control_page_access.md R77, R82). -/
theorem State.onRead_byte (h : s.Inv) {sl : SlotName} (hk : (s.slot sl).kind ≠ .none) (addr : Addr) :
    ∃ t, s.onRead sl addr false = .ok (t, (descr (s.slot sl).kind).status (readNext (s.slot sl) addr) addr) := by
  obtain ⟨t, ht, -⟩ := State.readSlot_spec h sl addr
  rw [State.readSlot, if_neg hk, contribution_moved_of_occupied hk] at ht
  exact ⟨t, ht⟩

end Sys2Proof.Machine

/-! ### The obligations -/

namespace Sys2Proof.Proofs

open Sys2Proof Sys2Proof.Machine

/-- Settles O11: `State.ctrlRead_spec` from a cleared answer; `active` is what the invariants of the next state say. -/
theorem controlReadResult : Obligations.ControlReadResult := by
  intro s h addr data
  obtain ⟨t, ht, hf, hp, hg, hout, hwindow, hinv, -⟩ := State.ctrlRead_spec h.clearOut addr
  have hframe := s.sameFrame_clearOut.trans hf
  exact ⟨t, congrArg answer ht, hp, hg, hinv.active_of_sameFrame hframe, by rw [hp, hg]; exact hout, hwindow, hframe⟩

/-- Settles O12: a peek runs no transition, so its byte is that of the records as they stand; `CTRL_RD` is O11's. -/
theorem controlPeekReadsTheCurrentState : Obligations.ControlPeekReadsTheCurrentState := by
  intro s addr data
  refine ⟨fun hpage => ?_, exec_ctrlRdPeek s addr data, fun h => ?_⟩
  · rw [decode_busWord, busRegion_of_onControlPage hpage]
    rfl
  · obtain ⟨t, ht, hp, hg, -, hout, -⟩ := controlReadResult s h addr data
    exact ⟨t, ht, by rw [hout, hp, hg]⟩

/-- Settles O14: `State.ctrlWrite_spec` from a cleared answer; `active` is what the invariants of the next state say. -/
theorem controlWriteResult : Obligations.ControlWriteResult := by
  intro s h addr data
  obtain ⟨t, ht, hf, hp, hg, hout, hwindow, hinv, -⟩ := State.ctrlWrite_spec h.clearOut addr data
  have hframe := s.sameFrame_clearOut.trans hf
  exact ⟨t, congrArg answer ht, hp, hg, hinv.active_of_sameFrame hframe, hout, hwindow, hframe⟩

/-- Settles O15: the flag is the OR of the two reactions, and a slot that gives no new state moves to the one it has. -/
theorem unhandledWriteKeepsTheState : Obligations.UnhandledWriteKeepsTheState := by
  intro s h addr data
  obtain ⟨t, ht, hp, hg, -, hout, -⟩ := controlWriteResult s h addr data
  refine ⟨t, ht, ?_, ?_, ?_⟩
  · rw [hout, Option.some_inj, Handled.ofBool_eq_handled, Bool.or_eq_true, reacts_iff, reacts_iff, SlotName.exists_iff]
    rfl
  · rw [hout, Option.some_inj, Handled.ofBool_eq_unhandled, Bool.or_eq_false_iff, reacts_eq_false_iff, reacts_eq_false_iff, SlotName.forall_iff]
    rfl
  · exact fun
      | .P => fun hnone => hp.trans (Slot.moved_writeNext_of_none hnone)
      | .G => fun hnone => hg.trans (Slot.moved_writeNext_of_none hnone)

/-- Settles O16: each slot's byte is a function of its kind and state word, by `State.onRead_byte`. -/
theorem readIsTheAndOfIndependentReads : Obligations.ReadIsTheAndOfIndependentReads := by
  intro s h hpk hgk addr data
  obtain ⟨tp, htp⟩ := State.onRead_byte (sl := .P) h hpk addr
  obtain ⟨tg, htg⟩ := State.onRead_byte (sl := .G) h hgk addr
  obtain ⟨t, ht, hp, hg, -, hout, -⟩ := controlReadResult s h addr data
  refine ⟨t, tp, tg, _, _, htp, htg, ht, ?_, fun u hu sl hkind hstate => ?_⟩
  · rw [hout, hp, hg, contribution_moved_of_occupied hpk, contribution_moved_of_occupied hgk]
    rfl
  · have hk : (s.slot sl).kind ≠ .none := by cases sl <;> assumption
    have hku : (u.slot sl).kind ≠ .none := by rwa [hkind]
    obtain ⟨v, hv⟩ := State.onRead_byte hu hku addr
    rw [readNext, hkind, hstate] at hv
    cases sl <;> exact ⟨v, hv⟩

/-- Settles O13, by the spec lemma of each peek. -/
theorem controlPeeksChangeNothing : Obligations.ControlPeeksChangeNothing := fun s addr data =>
  ⟨⟨_, exec_ctrlRdPeek s addr data⟩, exec_ctrlWrPeek s addr data⟩

end Sys2Proof.Proofs
end

section
/-! PROOFS. The designs the document names: what a control-page access does to a slot of each, what the slot shows at a window address, and when the
piggyback behind a primary of the SDX family is the active slot (41_type_descriptors.md R102 to R111). -/

namespace Sys2Proof.Machine

variable {s t : State} {x p g : Slot} {m : MachineKind} {kind : Kind} {mask : StateWord} {seg : Segment} {segs : List Segment} {a k : Nat}
  {addr : Addr} {data : Byte}

/-! ### The active slot -/

theorem activeOf_of_alone (h : g.kind = .none) : activeOf mask p g = .P := by simp [activeOf, h]

theorem activeOf_of_no_passthrough (h : (descr p.kind).passthrough = Option.none) : activeOf mask p g = .P := by
  simp [activeOf, Descriptor.selects, h]

theorem activeOf_moved (n : StateWord) : activeOf mask p (g.moved n) = activeOf mask p g := by simp [activeOf, Slot.moved_kind]

/-- An occupied good record of a cartridge type is on the one machine the type is defined for (41_type_descriptors.md R113). -/
theorem Slot.Inv.machine_eq (h : x.Inv m) (hk : x.kind = kind) (hn : kind ≠ .none) (hu : kind ≠ .unknown) : m = (typeEntry kind).machine := by
  subst hk
  exact acceptsMachine_eq (h.machine hn) hu

/-! ### What a slot shows -/

theorem segmentAt_cons_of_mem (h : seg.lo ≤ a ∧ a ≤ seg.hi) : segmentAt (seg :: segs) a = some seg :=
  List.find?_cons_of_pos (Segment.has_iff.2 h)

theorem segmentAt_cons_of_not_mem (h : ¬(seg.lo ≤ a ∧ a ≤ seg.hi)) : segmentAt (seg :: segs) a = segmentAt segs a :=
  List.find?_cons_of_neg (mt Segment.has_iff.1 h)

theorem shownByte_of_segmentAt (h : x.Inv m) (hk : x.kind ≠ .none)
    (hseg : segmentAt ((descr x.kind).map x.state m x.sizeKb) a = some seg) : shownByte m x a = seg.byteAt x a := by
  simp only [shownByte, segmentOf, h.mapping hk, Option.bind_some, hseg]

theorem shownByte_of_uncovered (h : x.Inv m) (hk : x.kind ≠ .none)
    (hseg : segmentAt ((descr x.kind).map x.state m x.sizeKb) a = Option.none) : shownByte m x a = some Config.fill := by
  simp only [shownByte, segmentOf, h.mapping hk, Option.bind_some, hseg]

/-- A window address fits a CPU address. -/
theorem toNat_ofNat_of_inWindow (h : inWindow m a = true) : (BitVec.ofNat 16 a).toNat = a := by
  have : a ≤ 0xBFFF := by
    cases m with
    | xlxe => exact ((inWindow_xlxe_iff a).1 h).2
    | a5200 => exact ((inWindow_a5200_iff a).1 h).2
  rw [BitVec.toNat_ofNat, Nat.mod_eq_of_lt (by omega)]

/-- Outside the machine's windows nothing is enabled in a good state (10_state.md R22). -/
theorem State.Inv.winRead_outside (h : s.Inv) (ha : inWindow s.machine a = false) : winRead s.window a = Config.fill := by
  have hoff : a ∉ s.window.en := fun hmem => by simp [h.inside.en a hmem] at ha
  simp [winRead, Window.isOn, hoff]

/-- `WIN_RD` where the active slot has no hook gives the byte of the window image and does nothing else (42_window_access.md R120). -/
theorem exec_winRd_of_no_hook (hh : (descr (s.slot s.active).kind).hook = Option.none) (addr : Addr) (data : Byte) :
    exec (.winRd addr data) s = .next { s with out := { data := some (winRead s.window addr.toNat) } } := by
  have hread : s.clearOut.winReadEvent addr = .ok (s.clearOut.giveData (winRead s.window addr.toNat)) := by
    simp [State.winReadEvent, State.fireHook, hh]
  exact congrArg answer hread

/-- `WIN_RD` where the active slot has no hook gives the byte the slot's mapping assigns (43_remap.md R142). -/
theorem exec_winRd_shown (hc : s.Coherent) (hh : (descr (s.slot s.active).kind).hook = Option.none) (ha : inWindow s.machine a = true)
    (data : Byte) : ∃ u, exec (.winRd (BitVec.ofNat 16 a) data) s = .next u ∧ u.out.data = shownByte s.machine (s.slot s.active) a :=
  ⟨_, exec_winRd_of_no_hook hh _ data, by rw [toNat_ofNat_of_inWindow ha]; exact hc.byte a ha⟩

/-! ### A control-page write -/

theorem exec_ctrlWr_coherent (h : s.Inv) (hc : s.Coherent) {addr : Addr} {data : Byte} (ht : exec (.ctrlWr addr data) s = .next t) :
    t.Coherent := by
  obtain ⟨u, hu, -, -, -, -, -, -, hshows, -⟩ := State.ctrlWrite_spec h.clearOut addr data
  cases (congrArg answer hu).symm.trans ht
  exact hshows.coherent hc.clearOut

/-- A good coherent state with the record `x` in the primary slot and no piggyback. -/
structure State.Alone (s : State) (x : Slot) : Prop where
  inv      : s.Inv
  coherent : s.Coherent
  p        : s.p = x
  g        : s.g.kind = .none

theorem State.Alone.slot_inv (h : s.Alone x) : x.Inv s.machine := h.p ▸ h.inv.p

theorem State.Alone.slot_active (h : s.Alone x) : s.slot s.active = x := by rw [h.inv.active, activeOf_of_alone h.g]; exact h.p

/-- The windows show the one record. -/
theorem State.Alone.winRead_eq (h : s.Alone x) (ha : inWindow s.machine a = true) : some (winRead s.window a) = shownByte s.machine x a := by
  rw [h.coherent.byte a ha, h.slot_active]

/-- A control-page write with one cartridge moves its state word and answers whether its type reacted (40_control_page_access.md R73, R78). -/
theorem State.Alone.exec_ctrlWr (h : s.Alone x) (hk : x.kind ≠ .none) (addr : Addr) (data : Byte) :
    ∃ t, exec (.ctrlWr addr data) s = .next t ∧ t.Alone { x with state := writeNext x addr data } ∧
    t.out.handled = some (Handled.ofBool (reacts x addr data)) := by
  obtain ⟨t, ht, hp, hg, -, hout, -⟩ := Proofs.controlWriteResult s h.inv addr data
  rw [h.p, Slot.moved_of_occupied hk] at hp
  have hquiet : reacts s.g addr data = false := by simp [reacts, h.g]
  refine ⟨t, ht, ⟨(exec_served h.inv ht).inv, exec_ctrlWr_coherent h.inv h.coherent ht, hp, by rw [hg, Slot.moved_kind, h.g]⟩, ?_⟩
  rw [hout, h.p, hquiet, Bool.or_false]

/-! ### Types the control page does nothing to -/

/-- No transition by the control page, and the idle status byte (41_type_descriptors.md R93). -/
structure Descriptor.Idle (d : Descriptor) : Prop where
  wr     : ∀ st addr v, d.wr st addr v = Option.none
  rd     : ∀ st addr, d.rd st addr = Option.none
  status : ∀ st addr, d.status st addr = Config.idleStatus

theorem Descriptor.idle_unsupported : Descriptor.unsupported.Idle := ⟨fun _ _ _ => rfl, fun _ _ => rfl, fun _ _ => rfl⟩

theorem descr_none_idle (h : x.kind = .none) : (descr x.kind).Idle := by rw [h]; exact Descriptor.idle_unsupported

theorem hookedDescriptor_idle (init : StateWord) (map : StateWord → List Segment) (hook : Hook) : (hookedDescriptor init map hook).Idle :=
  ⟨fun _ _ _ => rfl, fun _ _ => rfl, fun _ _ => rfl⟩

theorem State.writeSlot_of_idle {sl : SlotName} (h : (descr (s.slot sl).kind).Idle) (addr : Addr) (v : Byte) :
    s.writeSlot sl addr v false = .ok (s, .unhandled) := by
  unfold State.writeSlot
  split
  · rfl
  · simp [State.onWrite, h.wr]

theorem State.readSlot_of_idle {sl : SlotName} (h : (descr (s.slot sl).kind).Idle) (addr : Addr) :
    s.readSlot sl addr false = .ok (s, Config.idleStatus) := by
  unfold State.readSlot
  split
  · rfl
  · simp [State.onRead, State.commitOpt, statusByte, h.rd, h.status]

theorem exec_ctrlWr_of_idle (hp : (descr s.p.kind).Idle) (hg : (descr s.g.kind).Idle) (addr : Addr) (data : Byte) :
    exec (.ctrlWr addr data) s = .next { s with out := { handled := some .unhandled } } := by
  have hwrite : s.clearOut.ctrlWrite addr data false = .ok (s.clearOut.giveHandled .unhandled) := by
    simp only [State.ctrlWrite, State.writeSlot_of_idle (s := s.clearOut) (sl := .P) hp, State.writeSlot_of_idle (s := s.clearOut) (sl := .G) hg,
      Handled.or]
  exact congrArg answer hwrite

theorem exec_ctrlRd_of_idle (hp : (descr s.p.kind).Idle) (hg : (descr s.g.kind).Idle) (addr : Addr) (data : Byte) :
    exec (.ctrlRd addr data) s = .next { s with out := { data := some Config.idleStatus } } := by
  have hread : s.clearOut.ctrlRead addr false = .ok (s.clearOut.giveData Config.idleStatus) := by
    simp only [State.ctrlRead, State.readSlot_of_idle (s := s.clearOut) (sl := .P) hp, State.readSlot_of_idle (s := s.clearOut) (sl := .G) hg,
      idleStatus_and]
  exact congrArg answer hread

/-! ### Inserting a kind given by name -/

/-- A primary insertion of a kind with no line maps is accepted with the size and on the machine the kind accepts (45_slot_operations.md R168). -/
theorem insertFailure_P_of_accepted {bytes : List Byte} {kb : Nat} (hk : kind ≠ .none) (hpos : 0 < kb) (hlen : bytes.length = kb * 1024)
    (hs : acceptsSize kind kb = true) (hm : acceptsMachine kind s.machine = true) (hl : lineMapOf kind = Option.none) :
    insertFailure s .P kind bytes = Option.none := by
  simp [insertFailure, hk, hlen, hs, hm, hl, hpos.ne']

theorem insertedSlot_sizeKb {bytes : List Byte} {kb : Nat} (hlen : bytes.length = kb * 1024) (path : Text) (raw : Bool) :
    (insertedSlot kind bytes path raw).sizeKb = kb := by
  simp [insertedSlot, hlen]

theorem exec_insert_named_refused {sl : SlotName} {bytes : List Byte} {f : InsertFailure} (hf : insertFailure s sl kind bytes = some f)
    (path : Text) (raw : Bool) : exec (.insert sl (.named kind) bytes path raw) s = .refused (.insert f) := by
  have hf' : insertFailure s.clearOut sl kind bytes = some f := hf
  have hins : s.clearOut.insertEvent sl (.named kind) bytes path raw = .error (.insert f) := by
    simp only [State.insertEvent, resolveKind, State.insertQuiet, hf']
  exact congrArg answer hins

theorem exec_insert_named (h : s.Inv) {sl : SlotName} {bytes : List Byte} (hf : insertFailure s sl kind bytes = Option.none) (path : Text)
    (raw : Bool) : ∃ t, exec (.insert sl (.named kind) bytes path raw) s = .next t ∧ t.Inv ∧ t.Coherent ∧ t.machine = s.machine ∧
    t.slot sl = insertedSlot kind bytes path raw ∧ ∀ tl, tl ≠ sl → t.slot tl = s.slot tl := by
  obtain ⟨t, ht, hunder, hinv, hc, hself, hother, -⟩ := State.insertEvent_spec (arg := .named kind) h.clearOut rfl hf path raw
  exact ⟨t, congrArg answer ht, hinv, hc, hunder.machine, hself, fun tl htl => (hother tl htl).trans (s.clearOut_slot tl)⟩

/-! ### `STD_8` (41_type_descriptors.md R103) -/

theorem shownByte_std8 (h : x.Inv m) (hk : x.kind = .std8) (hlt : k < 8192) : shownByte m x (0xA000 + k) = bufRead x k := by
  have hseg : segmentAt ((descr x.kind).map x.state m x.sizeKb) (0xA000 + k) = some ⟨0xA000, 0xBFFF, .romAt 0⟩ := by
    rw [hk]
    exact segmentAt_cons_of_mem ⟨by simp, by simp; omega⟩
  rw [shownByte_of_segmentAt h (by simp [hk]) hseg]
  simp [Segment.byteAt]

theorem shownByte_std8_below (h : x.Inv m) (hk : x.kind = .std8) (ha : a < 0xA000) : shownByte m x a = some 0xFF#8 := by
  refine shownByte_of_uncovered h (by simp [hk]) ?_
  rw [hk]
  exact segmentAt_cons_of_not_mem (by simp; omega)

/-! ### `OSS_16` (41_type_descriptors.md R104, R105) -/

theorem shownByte_oss16_low (h : x.Inv m) (hk : x.kind = .oss16) (hlt : k < 4096) :
    shownByte m x (0xA000 + k) = Segment.byteAt ⟨0xA000, 0xAFFF, ossLowContent x.state⟩ x (0xA000 + k) := by
  refine shownByte_of_segmentAt h (by simp [hk]) ?_
  rw [hk]
  exact segmentAt_cons_of_mem ⟨by simp, by simp; omega⟩

theorem shownByte_oss16_high (h : x.Inv m) (hk : x.kind = .oss16) (hlt : k < 4096) :
    shownByte m x (0xB000 + k) = Segment.byteAt ⟨0xB000, 0xBFFF, ossHighContent x.state⟩ x (0xB000 + k) := by
  refine shownByte_of_segmentAt h (by simp [hk]) ?_
  rw [hk]
  exact (segmentAt_cons_of_not_mem (by simp; omega)).trans (segmentAt_cons_of_mem ⟨by simp, by simp; omega⟩)

theorem shownByte_oss16_s0 (h : x.Inv m) (hk : x.kind = .oss16) (hst : x.state = ossS0) (hlt : k < 4096) :
    shownByte m x (0xB000 + k) = bufRead x k := by
  simp [shownByte_oss16_high h hk hlt, hst, ossHighContent, Segment.byteAt]

theorem shownByte_oss16_s1 (h : x.Inv m) (hk : x.kind = .oss16) (hst : x.state = ossS1) (hlt : k < 4096) :
    shownByte m x (0xB000 + k) = bufRead x (4096 + k) := by
  simp [shownByte_oss16_high h hk hlt, hst, ossHighContent, Segment.byteAt, ossS0, ossS1]

theorem shownByte_oss16_sd (h : x.Inv m) (hk : x.kind = .oss16) (hst : x.state = ossSd) (hlt : k < 8192) :
    shownByte m x (0xA000 + k) = some 0xFF#8 := by
  by_cases hlow : k < 4096
  · simp [shownByte_oss16_low h hk hlow, hst, ossLowContent, Segment.byteAt]
  · obtain ⟨j, rfl⟩ := Nat.exists_eq_add_of_le (Nat.le_of_not_lt hlow)
    rw [← Nat.add_assoc, shownByte_oss16_high h hk (by omega), hst]
    simp [ossHighContent, Segment.byteAt, ossS0, ossS1, ossSd]

theorem writeNext_oss16 (hk : x.kind = .oss16) (addr : Addr) (data : Byte) : writeNext x addr data = (ossWr x.state addr).getD x.state := by
  rw [writeNext, hk]
  rfl

/-! ### `ROT_32` (41_type_descriptors.md R109) -/

theorem rotWr_toNat (st : StateWord) : (rotWr st).toNat = (st.toNat + 1) % 5 := by
  rw [rotWr, BitVec.toNat_ofNat, Config.rotCycle, Nat.mod_eq_of_lt (by omega)]

/-- Five steps of the cycle of five come back. -/
theorem rotWr_five {st : StateWord} (h : st.toNat ≤ 4) : rotWr (rotWr (rotWr (rotWr (rotWr st)))) = st := by
  apply BitVec.eq_of_toNat_eq
  simp only [rotWr_toNat]
  omega

theorem shownByte_rot32 (h : x.Inv m) (hk : x.kind = .rot32) (hst : x.state.toNat ≤ 4) (hlt : k < 8192) : shownByte m x (0xA000 + k) =
    if x.state.toNat = 4 then some 0xFF#8 else bufRead x (x.state.toNat * 8192 + k) := by
  have hseg : segmentAt ((descr x.kind).map x.state m x.sizeKb) (0xA000 + k) = some ⟨0xA000, 0xBFFF, rotContent x.state⟩ := by
    rw [hk]
    exact segmentAt_cons_of_mem ⟨by simp, by simp; omega⟩
  rw [shownByte_of_segmentAt h (by simp [hk]) hseg]
  by_cases h4 : x.state.toNat = 4
  · simp [Segment.byteAt, rotContent, h4]
  · have hbank : x.state.toNat < 4 := by omega
    simp [Segment.byteAt, rotContent, h4, hbank]

/-- A control-page write advances `ROT_32` along its cycle, whatever the address and the value. -/
theorem State.Alone.exec_ctrlWr_rot32 {st : StateWord} (h : s.Alone { x with state := st }) (hk : x.kind = .rot32) (addr : Addr) (data : Byte) :
    ∃ t, exec (.ctrlWr addr data) s = .next t ∧ t.Alone { x with state := rotWr st } ∧ t.out.handled = some .handled := by
  have hwr : (descr x.kind).wr st addr data = some (rotWr st) := by rw [hk]; rfl
  have hk' : x.kind ≠ .none := by simp [hk]
  simpa [writeNext, reacts, hwr, hk', Handled.ofBool] using h.exec_ctrlWr hk' addr data

/-! ### The SDX family (41_type_descriptors.md R106, R107) -/

theorem selects_sdx {v : BitVec 8} (hk : p.kind = .sdx v) (st : StateWord) :
    (descr p.kind).selects mask st = true ↔ st &&& mask = 0b1000#32 := by
  rw [hk]
  exact decide_eq_true_iff

theorem activeOf_sdx {v : BitVec 8} (hk : p.kind = .sdx v) :
    activeOf mask p g = .G ↔ g.kind ≠ .none ∧ p.state &&& mask = 0b1000#32 := by
  simp only [activeOf, selects_sdx hk]
  split <;> simp_all

/-- The condition of 40_control_page_access.md R79 for this family: a piggyback is present and the pattern holds of just one of the two states. -/
theorem switchesSource_sdx {v : BitVec 8} (hk : s.p.kind = .sdx v) (n : StateWord) : switchesSource s n = true ↔
    s.g.kind ≠ .none ∧ ¬(s.p.state &&& s.sdxPbMask = 0b1000#32 ↔ n &&& s.sdxPbMask = 0b1000#32) := by
  rw [switchesSource, hk]
  simp [descr, typeEntry, sdxEntry, selectPattern]

theorem switchesSource_self (s : State) : switchesSource s s.p.state = false := by
  unfold switchesSource
  split <;> simp

theorem primaryCommands_of_switch {n : StateWord} (h : switchesSource s n = true) :
    primaryCommands s n = disableCommands s.machine ++
      shownCommands s.machine (if activeOf s.sdxPbMask { s.p with state := n } s.g = .G then s.g else { s.p with state := n }) := by
  have hne : n ≠ s.p.state := fun heq => by simp [heq, switchesSource_self] at h
  rw [primaryCommands, if_neg hne, if_pos h]

/-- A transition of the primary that is no switch leaves the active slot the one it was (10_state.md R16). -/
theorem activeOf_of_no_switch {n : StateWord} (h : ¬switchesSource s n = true) :
    activeOf s.sdxPbMask { s.p with state := n } s.g = activeOf s.sdxPbMask s.p s.g := by
  rw [← toggles_P] at h
  by_cases hg : s.g.kind = .none
  · rw [activeOf_of_alone hg, activeOf_of_alone hg]
  · have hsel : (descr s.p.kind).selects s.sdxPbMask s.p.state = (descr s.p.kind).selects s.sdxPbMask n := by
      simpa [toggles, hg] using h
    simp only [activeOf, hsel]

theorem primaryCommands_of_no_switch (hinv : s.Inv) {n : StateWord} (h : ¬switchesSource s n = true) : primaryCommands s n =
    if n ≠ s.p.state ∧ activeOf s.sdxPbMask { s.p with state := n } s.g = .P then shownCommands s.machine { s.p with state := n } else [] := by
  rw [activeOf_of_no_switch h, ← hinv.active]
  by_cases hne : n = s.p.state <;> simp [primaryCommands, hne, h]

/-- The commands of the piggyback's own write transition, in terms of the record it leaves (43_remap.md R143). -/
theorem piggybackCommands_writeNext (hg : g = s.g.moved (writeNext s.g addr data)) (active : SlotName) :
    piggybackCommands s active (writeNext s.g addr data) =
      if g.state ≠ s.g.state ∧ active = .G then shownCommands s.machine g else [] := by
  subst hg
  by_cases hk : s.g.kind = .none
  · simp [piggybackCommands, writeNext_none hk, Slot.moved_self]
  · by_cases hn : writeNext s.g addr data = s.g.state <;> simp [piggybackCommands, Slot.moved_of_occupied hk, hn]

/-- The commands of a control-page write, in terms of the records it leaves and the slot active after it (40_control_page_access.md R80). -/
theorem accessCommands_writeNext (hk : s.p.kind ≠ .none) (hp : p = { s.p with state := writeNext s.p addr data })
    (hg : g = s.g.moved (writeNext s.g addr data)) : accessCommands s (writeNext s.p addr data) (writeNext s.g addr data) =
      primaryCommands s p.state ++ if g.state ≠ s.g.state ∧ activeOf s.sdxPbMask p g = .G then shownCommands s.machine g else [] := by
  rw [accessCommands, piggybackCommands_writeNext hg, Slot.moved_of_occupied hk, ← hp, hg, activeOf_moved, hp]

/-- An `STD_8` behind a primary of this family whose state has the pattern is what the windows give (41_type_descriptors.md R107). -/
theorem exec_winRd_std8_behind_sdx {v : BitVec 8} (h : s.Inv) (hc : s.Coherent) (hp : s.p.kind = .sdx v) (hg : s.g.kind = .std8)
    (hpattern : s.p.state &&& s.sdxPbMask = 0b1000#32) (hlt : k < 8192) (data : Byte) :
    ∃ u, exec (.winRd (BitVec.ofNat 16 (0xA000 + k)) data) s = .next u ∧ u.out.data = bufRead s.g k := by
  have hslot : s.slot s.active = s.g := by rw [h.active, (activeOf_sdx hp).2 ⟨by simp [hg], hpattern⟩]; rfl
  have hm : s.machine = .xlxe := h.g.machine_eq hg (by simp) (by simp)
  have hin : inWindow s.machine (0xA000 + k) = true := by rw [hm, inWindow_xlxe_iff]; omega
  obtain ⟨u, hu, hdata⟩ := exec_winRd_shown hc (by rw [hslot, hg]; rfl) hin data
  exact ⟨u, hu, by rw [hdata, hslot, shownByte_std8 h.g hg hlt]⟩

/-! ### The window-switched designs (41_type_descriptors.md R111) -/

/-- What R111 says of a kind: idle on the control page, and a hook whose ranges lie inside the mapped window. -/
structure WindowSwitched (kind : Kind) : Prop where
  idle : (descr kind).Idle
  hook : ∃ h, (descr kind).hook = some h ∧ ∀ m kb st, ∀ r ∈ h.ranges, ∀ a, r.has a = true → covers ((descr kind).map st m kb) a

theorem HookEntry.windowSwitched {entry : HookEntry m} (h : typeEntry kind = entry.entry) : WindowSwitched kind := by
  have hd : descr kind = hookedDescriptor entry.init entry.map entry.hook := by rw [descr, h]; rfl
  refine ⟨?_, entry.hook, ?_⟩ <;> rw [hd]
  · exact hookedDescriptor_idle _ _ _
  · exact ⟨rfl, fun _ _ => entry.mapped⟩

theorem windowSwitched_of_named (h : kind = .bbsb ∨ kind = .sc5200) : WindowSwitched kind := by
  rcases h with rfl | rfl
  · exact HookEntry.windowSwitched (entry := Config.bbsb) rfl
  · exact HookEntry.windowSwitched (entry := Config.sc5200) rfl

theorem acceptsMachine_sc5200 : acceptsMachine .sc5200 m = true ↔ m = .a5200 := decide_eq_true_iff

theorem map_sc5200_inside (st : StateWord) (hseg : seg ∈ (descr .sc5200).map st .a5200 (typeEntry .sc5200).sizeKb) :
    0x4000 ≤ seg.lo ∧ seg.hi ≤ 0xBFFF := by
  obtain ⟨w, hw, hlo, -, hhi⟩ := Config.sc5200.wf.inWindows st seg hseg
  rw [List.mem_singleton.1 hw] at hlo hhi
  exact ⟨hlo, hhi⟩

/-! ### `Unknown` (41_type_descriptors.md R102) -/

theorem descr_unknown_idle (h : x.kind = .unknown) : (descr x.kind).Idle := by rw [h]; exact Descriptor.idle_unsupported

/-- A cartridge of kind `Unknown` alone shows 0xFF at every address. -/
theorem State.Alone.winRead_unknown (h : s.Alone x) (hk : x.kind = .unknown) (a : Nat) : winRead s.window a = 0xFF#8 := by
  cases hin : inWindow s.machine a with
  | false => exact h.inv.winRead_outside hin
  | true =>
    have hshown := h.winRead_eq hin
    rw [shownByte_of_uncovered h.slot_inv (by simp [hk]) (by rw [hk]; rfl)] at hshown
    exact Option.some_inj.1 hshown

end Sys2Proof.Machine

/-! ### The obligations -/

namespace Sys2Proof.Proofs

open Sys2Proof Sys2Proof.Machine

/-- Settles O54: the one segment of `STD_8` covers 0xA000..0xBFFF; its descriptor is otherwise the unsupported one. -/
theorem plainEightKilobyteRom : Obligations.PlainEightKilobyteRom := by
  intro s h bytes path raw hlen
  refine ⟨fun hm => ?_, fun hm => ?_, fun _ _ _ => ⟨rfl, rfl, rfl⟩⟩
  · have hf : insertFailure s .P .std8 bytes = none :=
      insertFailure_P_of_accepted (kb := 8) (by simp) (by simp) hlen rfl (by rw [hm]; rfl) rfl
    obtain ⟨t, ht, hinv, hc, htm, hp, -⟩ := exec_insert_named h hf path raw
    rw [State.slot_P] at hp
    have hk : t.p.kind = .std8 := by rw [hp]; rfl
    have hact : t.active = .P := hinv.active.trans (activeOf_of_no_passthrough (by rw [hk]; rfl))
    have hslot : t.slot t.active = t.p := by rw [hact]; rfl
    have hin : ∀ a, 0x8000 ≤ a → a ≤ 0xBFFF → inWindow t.machine a = true := fun a hlo hhi => by
      rw [htm, hm, inWindow_xlxe_iff]; exact ⟨hlo, hhi⟩
    have hread := fun a hlo hhi data => exec_winRd_shown hc (by rw [hslot, hk]; rfl) (hin a hlo hhi) data
    rw [hslot] at hread
    refine ⟨t, ht, by rw [hp, insertedSlot_sizeKb (kb := 8) hlen], by rw [hp]; rfl, hact, fun k data hlt => ?_, fun k data hlt => ?_⟩
    · obtain ⟨u, hu, hdata⟩ := hread (0xA000 + k) (by omega) (by omega) data
      exact ⟨u, hu, by rw [hdata, shownByte_std8 hinv.p hk hlt, hp]; rfl⟩
    · obtain ⟨u, hu, hdata⟩ := hread (0x8000 + k) (by omega) (by omega) data
      exact ⟨u, hu, by rw [hdata, shownByte_std8_below hinv.p hk (by omega)]⟩
  · have hf : insertFailure s .P .std8 bytes = some .machine := by
      simp [insertFailure, hlen, hm, acceptsSize, acceptsMachine, typeEntry, std8Entry]
    exact exec_insert_named_refused hf path raw

/-- Settles O55: the write moves the state word to the one its nibble selects, and the windows show the two segments of that state. -/
theorem ossLowNibbleSelects : Obligations.OssLowNibbleSelects := by
  intro s h hc hp hg addr data
  have hk : s.p.kind ≠ .none := by simp [hp]
  obtain ⟨t, ht, halone, -⟩ := State.Alone.exec_ctrlWr ⟨h, hc, rfl, hg⟩ hk addr data
  have hm : t.machine = .xlxe := halone.slot_inv.machine_eq hp (by simp) (by simp)
  have hshows : ∀ a, 0x8000 ≤ a → a ≤ 0xBFFF → some (winRead t.window a) = shownByte t.machine t.p a := fun a hlo hhi => by
    rw [halone.winRead_eq (by rw [hm, inWindow_xlxe_iff]; exact ⟨hlo, hhi⟩), halone.p]
  have hinv := halone.inv.p
  have htk : t.p.kind = .oss16 := by rw [halone.p]; exact hp
  have hbuf : ∀ o, bufRead t.p o = bufRead s.p o := fun o => by rw [halone.p]; rfl
  have hst : t.p.state = (ossWr s.p.state addr).getD s.p.state := by rw [halone.p]; exact writeNext_oss16 hp addr data
  refine ⟨t, ht, fun hn => ?_, fun hn => ?_, fun hn => ?_⟩
  · have hs : t.p.state = ossS0 := by simp [hst, ossWr, hn]
    exact ⟨hs, fun k hlt => by rw [hshows _ (by omega) (by omega), shownByte_oss16_s0 hinv htk hs hlt, hbuf]⟩
  · have hs : t.p.state = ossS1 := by rcases hn with hn | hn <;> simp [hst, ossWr, hn]
    exact ⟨hs, fun k hlt => by rw [hshows _ (by omega) (by omega), shownByte_oss16_s1 hinv htk hs hlt, hbuf]⟩
  · have hs : t.p.state = ossSd := by simp [hst, ossWr, hn]
    exact ⟨hs, fun k hlt => Option.some_inj.1 (by rw [hshows _ (by omega) (by omega), shownByte_oss16_sd hinv htk hs hlt])⟩

/-- Settles O56: one write is `State.Alone.exec_ctrlWr_rot32`; five of them are five steps of the cycle. -/
theorem rotateOnEveryWrite : Obligations.RotateOnEveryWrite := by
  refine ⟨fun s h hm bytes path raw hlen => ?_, rfl, fun _ _ => ⟨rfl, rfl⟩, fun s h hc hp hg => ?_⟩
  · have hf : insertFailure s .P .rot32 bytes = none :=
      insertFailure_P_of_accepted (kb := 32) (by simp) (by simp) hlen rfl (by rw [hm]; rfl) rfl
    obtain ⟨t, ht, -, -, -, hself, -⟩ := exec_insert_named h hf path raw
    rw [State.slot_P] at hself
    exact ⟨t, ht, by rw [hself]; rfl, by rw [hself, insertedSlot_sizeKb (kb := 32) hlen], by rw [hself]; rfl⟩
  · have halone : s.Alone { s.p with state := s.p.state } := ⟨h, hc, rfl, hg⟩
    refine ⟨fun addr data => ?_, fun hle a1 a2 a3 a4 a5 d1 d2 d3 d4 d5 => ?_⟩
    · obtain ⟨t, ht, hnext, hhandled⟩ := halone.exec_ctrlWr_rot32 hp addr data
      have hst : t.p.state.toNat = (s.p.state.toNat + 1) % 5 := by rw [hnext.p]; exact rotWr_toNat _
      have htk : t.p.kind = .rot32 := by rw [hnext.p]; exact hp
      have hm : t.machine = .xlxe := hnext.inv.p.machine_eq htk (by simp) (by simp)
      refine ⟨t, ht, hhandled, hst, fun k hlt => ?_⟩
      rw [hnext.winRead_eq (by rw [hm, inWindow_xlxe_iff]; omega), ← hnext.p, shownByte_rot32 hnext.inv.p htk (by omega) hlt, hnext.p]
      rfl
    · obtain ⟨t1, ht1, h1, -⟩ := halone.exec_ctrlWr_rot32 hp a1 d1
      obtain ⟨t2, ht2, h2, -⟩ := h1.exec_ctrlWr_rot32 hp a2 d2
      obtain ⟨t3, ht3, h3, -⟩ := h2.exec_ctrlWr_rot32 hp a3 d3
      obtain ⟨t4, ht4, h4, -⟩ := h3.exec_ctrlWr_rot32 hp a4 d4
      obtain ⟨t5, ht5, h5, -⟩ := h4.exec_ctrlWr_rot32 hp a5 d5
      exact ⟨t1, t2, t3, t4, t5, ht1, ht2, ht3, ht4, ht5, by rw [h5.p, rotWr_five hle]⟩

/-- Settles O57: `active` is the pattern in the primary's new state, and the commands of the access split by whether the pattern changes. -/
theorem piggybackSelectSwitchesTheSource : Obligations.PiggybackSelectSwitchesTheSource := by
  intro s h hc v hpk addr data
  obtain ⟨t, ht, hp, hg, hact, hout, -, hframe⟩ := controlWriteResult s h addr data
  have hinv := (exec_served h ht).inv
  have hcoh := exec_ctrlWr_coherent h hc ht
  rw [Slot.moved_of_occupied (by simp [hpk])] at hp
  have htpk : t.p.kind = .sdx v := by rw [hp]; exact hpk
  have htgk : t.g.kind = s.g.kind := by rw [hg, Slot.moved_kind]
  have hm : s.machine = .xlxe := h.p.machine_eq hpk (by simp) (by simp)
  have hG : t.active = .G ↔ s.g.kind ≠ .none ∧ t.p.state &&& s.sdxPbMask = 0b1000#32 := by rw [hact, activeOf_sdx htpk, htgk]
  have hactive : activeOf s.sdxPbMask t.p s.g = t.active := by rw [hact, hg, activeOf_moved]
  have hcommands : t.out.commands = primaryCommands s t.p.state ++
      if t.g.state ≠ s.g.state ∧ t.active = .G then shownCommands .xlxe t.g else [] := by
    rw [hout, hact, ← hm]
    exact accessCommands_writeNext (by simp [hpk]) hp hg
  have hcross := switchesSource_sdx hpk t.p.state
  have hp' : { s.p with state := t.p.state } = t.p := by rw [hp]
  refine ⟨t, ht, fun hne => by simp [hG, hne], fun hnone => hact.trans (activeOf_of_alone (htgk.trans hnone)), fun a ha => ?_,
    ⟨fun hx => ?_, fun hx => ?_⟩, ?_⟩
  · rw [← hframe.machine] at ha ⊢
    exact hcoh.byte a ha
  · rw [hcommands, primaryCommands_of_switch (hcross.2 hx), hp', hactive, hm]
    rfl
  · rw [hcommands, primaryCommands_of_no_switch h (mt hcross.1 hx), hp', hactive, hm]
  · rintro u (rfl | rfl) hstd hpattern k d hlt
    · exact exec_winRd_std8_behind_sdx h hc hpk hstd hpattern hlt d
    · obtain ⟨w, hw, hdata⟩ := exec_winRd_std8_behind_sdx hinv hcoh htpk (htgk.trans hstd) (by rw [hframe.sdxPbMask]; exact hpattern) hlt d
      exact ⟨w, hw, by rw [hdata, hg, bufRead, Slot.moved_buffer]; rfl⟩

/-- Settles O58: the new state word is the type's write transition, a conditional on the old one. -/
theorem clampTakesTheDefaultArmFromFour : Obligations.ClampTakesTheDefaultArmFromFour := by
  intro s h hk addr data
  obtain ⟨t, ht, hp, -⟩ := controlWriteResult s h addr data
  have hst : t.p.state = (clampWr s.p.state addr data).getD s.p.state := by
    rw [hp, Slot.moved_of_occupied (by simp [hk]), writeNext, hk]
    rfl
  have hle : Config.clampBoundary ≤ s.p.state ↔ 4 ≤ s.p.state.toNat := BitVec.le_def
  exact ⟨t, ht, fun h4 => by rw [hst, clampWr, if_pos (hle.2 h4)], fun h4 => by rw [hst, clampWr, if_neg (mt hle.1 (by omega))]⟩

/-- Settles O59: both kinds are `WindowSwitched`, and the control page does nothing to an idle type. -/
theorem windowSwitchedDesigns : Obligations.WindowSwitchedDesigns := by
  intro kind hkind
  obtain ⟨hidle, hhook⟩ := windowSwitched_of_named hkind
  refine ⟨fun st addr v => ⟨hidle.wr st addr v, hidle.rd st addr, hidle.status st addr⟩, hhook, fun _ => acceptsMachine_sc5200,
    fun st _ hseg => map_sc5200_inside st hseg, fun s _ hp hg addr data => ?_⟩
  rw [← hp] at hidle
  exact ⟨exec_ctrlWr_of_idle hidle (descr_none_idle hg) addr data, exec_ctrlRd_of_idle hidle (descr_none_idle hg) addr data⟩

/-- Settles O60: the descriptor of `Unknown` is idle, maps nothing and has no hook. -/
theorem unknownKindShowsNothing : Obligations.UnknownKindShowsNothing := by
  intro s h hg bytes path raw hpos hmod
  have hf : insertFailure s .P .unknown bytes = none :=
    insertFailure_P_of_accepted (kb := bytes.length / 1024) (by simp) (by omega) (by omega) rfl rfl rfl
  obtain ⟨t, ht, hinv, hc, -, hp, hother⟩ := exec_insert_named h hf path raw
  rw [State.slot_P] at hp
  have htg : t.g.kind = .none := (congrArg Slot.kind (hother .G (by simp))).trans hg
  have halone : t.Alone t.p := ⟨hinv, hc, rfl, htg⟩
  have hk : t.p.kind = .unknown := by rw [hp]; rfl
  refine ⟨t, ht, by rw [hp]; rfl, fun addr data => ⟨exec_ctrlWr_of_idle (descr_unknown_idle hk) (descr_none_idle htg) addr data,
    exec_ctrlRd_of_idle (descr_unknown_idle hk) (descr_none_idle htg) addr data, ?_⟩⟩
  rw [exec_winRd_of_no_hook (by rw [halone.slot_active, hk]; rfl), halone.winRead_unknown hk]

end Sys2Proof.Proofs
end

section
/-! PROOFS. The windows: what an access does where no hook fires, and that a RAM store is one buffer byte and one window byte
(42_window_access.md R120 to R130). -/

namespace Sys2Proof.Machine

variable {s : State} {x : Slot} {addr : Addr} {off : Nat}

/-! ### The peeks -/

theorem exec_winRdPeek (s : State) (addr : Addr) (data : Byte) :
    exec (.winRdPeek addr data) s = .next { s with out := { data := some (winRead s.window addr.toNat) } } := rfl

theorem exec_winWrPeek (s : State) (addr : Addr) (data : Byte) : exec (.winWrPeek addr data) s = .next { s with out := {} } := rfl

/-! ### Where no hook fires -/

theorem firesHook_of_no_hook (h : (descr x.kind).hook = none) (addr : Addr) : firesHook x addr = false := by simp [firesHook, h]

theorem hook_triggers_of_not_fires (hf : firesHook x addr = false) (hk : x.kind ≠ .none) :
    ((descr x.kind).hook.map (·.triggers addr)).getD false = false := by
  simpa [firesHook, hk] using hf

/-- A read off the trigger addresses gives the byte of the window image and does nothing else (42_window_access.md R120). -/
theorem exec_winRd_of_not_fires (h : s.Inv) (hf : firesHook (s.slot s.active) addr = false) (data : Byte) :
    exec (.winRd addr data) s = .next { s with out := { data := some (winRead s.window addr.toNat) } } := by
  obtain ⟨t, ht, -, -, -, -, -, -, -, hsame⟩ := State.winReadEvent_spec h.clearOut addr
  rw [hsame (hookNext_of_not_fires hf _ _)] at ht
  exact congrArg answer ht

/-! ### Where nothing is stored -/

theorem storeOffset_of_no_ram (h : (descr (s.slot s.active).kind).ram = none) (addr : Addr) : storeOffset s addr = none := by
  simp [storeOffset, h]

/-- Locked or read-only RAM takes no store (42_window_access.md R125). -/
theorem storeOffset_of_closed {r : RamOps} (hr : (descr (s.slot s.active).kind).ram = some r)
    (hclosed : r.locked (s.slot s.active).state = true ∨ r.writable (s.slot s.active).state = false) (addr : Addr) :
    storeOffset s addr = none := by
  have hst : r.storesIn (s.slot s.active).state = false := by
    rcases hclosed with hl | hw
    · simp [RamOps.storesIn, hl]
    · simp [RamOps.storesIn, hw]
  simp [storeOffset, hr, hst]

/-- A write that fires no hook and has no store offset is dropped, in every state (42_window_access.md R123, R125). -/
theorem State.winWriteEvent_of_no_store (hf : firesHook (s.slot s.active) addr = false) (ho : storeOffset s addr = none) (v : Byte) :
    s.winWriteEvent addr v = .ok s := by
  unfold State.winWriteEvent
  by_cases hk : (s.slot s.active).kind = .none
  · rw [if_pos hk]
  · rw [if_neg hk, hook_triggers_of_not_fires hf hk, if_neg Bool.false_ne_true]
    cases hr : (descr (s.slot s.active).kind).ram with
    | none => rfl
    | some r =>
      by_cases hshown : (s.window.isOn addr.toNat && s.window.isRam addr.toNat) = true
      · have hst : r.storesIn (s.slot s.active).state = false := by simpa [storeOffset, hk, hf, hr, hshown] using ho
        simp [hshown, State.ramStore, hst]
      · simp [hshown]

theorem exec_winWr_of_no_store (hf : firesHook (s.slot s.active) addr = false) (ho : storeOffset s addr = none) (data : Byte) :
    exec (.winWr addr data) s = .next { s with out := {} } :=
  congrArg answer (State.winWriteEvent_of_no_store (s := s.clearOut) hf ho data)

/-! ### A RAM store -/

theorem firesHook_of_storeOffset (ho : storeOffset s addr = some off) : firesHook (s.slot s.active) addr = false := by
  by_contra hf
  simp [storeOffset, hf] at ho

theorem exec_winWr_of_store (h : s.Inv) (hm : s.Marked) (ho : storeOffset s addr = some off) (data : Byte) :
    exec (.winWr addr data) s = .next (s.clearOut.stored addr off data) := by
  have ho' : storeOffset s.clearOut addr = some off := ho
  obtain ⟨t, ht, -, -, -, -, -, -, hstore⟩ := State.winWriteEvent_spec h.clearOut hm.clearOut addr data
  rw [hstore (firesHook_of_storeOffset ho'), ho'] at ht
  exact congrArg answer ht

theorem bufRead_slot_stored (h : s.Inv) (hm : s.Marked) (ho : storeOffset s addr = some off) (v : Byte) (o : Nat) :
    bufRead ((s.stored addr off v).slot s.active) o = if o = off then some v else bufRead (s.slot s.active) o := by
  obtain ⟨-, -, b, -, -, -, -, -, -, -, -, -, hbuf, hlt⟩ := State.ram_segment h hm ho
  rw [State.stored_slot, bufRead_stored hbuf hlt]

/-- The window copy of the stored byte (42_window_access.md R125; the spec's decision D11). -/
theorem winRead_window_stored (h : s.Inv) (hm : s.Marked) (ho : storeOffset s addr = some off) (v : Byte) :
    winRead (s.stored addr off v).window addr.toNat = v := by
  obtain ⟨-, -, -, -, -, -, hon, -⟩ := State.ram_segment h hm ho
  rw [State.stored_window, winRead_stored, if_pos ⟨hon, rfl⟩]

theorem memRead_window_stored_ne {a : Nat} (ha : a ≠ addr.toNat) (v : Byte) :
    memRead (s.stored addr off v).window.bytes a = memRead s.window.bytes a := by
  rw [State.stored_window, memRead_memWrite, if_neg (by rw [List.length_singleton]; omega)]

/-- A store leaves the hook as it was, which looks at the kind of the record alone. -/
theorem firesHook_slot_stored (s : State) (addr : Addr) (off : Nat) (v : Byte) :
    firesHook ((s.stored addr off v).slot (s.stored addr off v).active) addr = firesHook (s.slot s.active) addr := by
  rw [State.stored_active, State.stored_slot]
  rfl

/-! ### The types with a hook -/

/-- The two window-switched designs and `T_HOOK` are the types with a hook (41_type_descriptors.md R90); a type of the open remainder has none
by its entry's own field. -/
theorem kind_of_hook {k : Kind} (h : (descr k).hook.isSome = true) : k = .bbsb ∨ k = .sc5200 ∨ k = .test .tHook := by
  cases k with
  | bbsb => exact .inl rfl
  | sc5200 => exact .inr (.inl rfl)
  | other n =>
    have hno : (descr (.other n)).hook = none := (Config.openType n).noHook
    rw [hno] at h
    cases h
  | test t =>
    cases t with
    | tHook => exact .inr (.inr rfl)
    | tSdx | tSub | tRdr | tRam | tLine | tNv => cases h
  | none | unknown | std8 | oss16 | sdx v | rot32 | clamp => cases h

end Sys2Proof.Machine

/-! ### The obligations -/

namespace Sys2Proof.Proofs

open Sys2Proof Sys2Proof.Machine

/-- Settles O17: `State.winReadEvent_spec` from a cleared answer; `active` is what the invariants of the next state say. -/
theorem windowReadResult : Obligations.WindowReadResult := by
  intro s h addr data
  obtain ⟨t, ht, hf, hself, hother, hout, hwindow, hinv, -⟩ := State.winReadEvent_spec h.clearOut addr
  have hframe := s.sameFrame_clearOut.trans hf
  exact ⟨t, congrArg answer ht, congrArg answer ht, hself, hother, hinv.active_of_sameFrame hframe, hout, hwindow, hframe⟩

/-- Settles O19: `State.winWriteEvent_spec` from a cleared answer; where it stores, the next state is `State.stored`. -/
theorem windowWriteResult : Obligations.WindowWriteResult := by
  intro s h hm addr data
  obtain ⟨t, ht, hf, hinv, -, -, hother, hfire, hstore⟩ := State.winWriteEvent_spec h.clearOut hm.clearOut addr data
  have hframe := s.sameFrame_clearOut.trans hf
  refine ⟨t, congrArg answer ht, congrArg answer ht, hother, hinv.active_of_sameFrame hframe, hframe, hfire, fun hno ho => ?_, fun off ho => ?_⟩
  · have ho' : storeOffset s.clearOut addr = none := ho
    rw [hstore hno, ho']
    rfl
  · have ho' : storeOffset s.clearOut addr = some off := ho
    have hno := firesHook_of_storeOffset ho
    obtain rfl : t = s.clearOut.stored addr off data := by rw [hstore hno, ho']
    have hbuf := bufRead_slot_stored h.clearOut hm.clearOut ho' data
    refine ⟨hno, State.stored_out _ _ _ _, ?_, fun o hne => ?_, ?_, ?_, ?_, winRead_window_stored h.clearOut hm.clearOut ho' data,
      fun a ha => memRead_window_stored_ne ha data⟩
    · exact (hbuf off).trans (if_pos rfl)
    · exact (hbuf o).trans (if_neg hne)
    · exact congrArg (fun x : Slot => { x with buffer := none }) (s.clearOut.stored_slot addr off data)
    · rw [State.stored_window]; rfl
    · rw [State.stored_window]; rfl

/-- Settles O20: the store leaves the window image on and holding the byte there, and a read after it fires no hook either. -/
theorem ramStoreIsReadBack : Obligations.RamStoreIsReadBack := by
  intro s h hm addr data d off ho
  have hwrite := exec_winWr_of_store h hm ho data
  have hinv := (State.stored_good h.clearOut hm.clearOut ho data).1
  have hread := exec_winRd_of_not_fires hinv ((firesHook_slot_stored _ addr off data).trans (firesHook_of_storeOffset ho)) d
  have hback := congrArg some (winRead_window_stored h.clearOut hm.clearOut ho data)
  have hpeek := exec_winRdPeek (s.clearOut.stored addr off data) addr d
  exact ⟨_, _, _, hwrite, hwrite, hread, hread, hback, hpeek, hpeek, hback⟩

/-- Settles O21: closed RAM has no store offset. -/
theorem closedRamDropsWrites : Obligations.ClosedRamDropsWrites := by
  intro s r addr data hr hclosed hf
  have hdrop := exec_winWr_of_no_store hf (storeOffset_of_closed hr hclosed addr) data
  exact ⟨hdrop, hdrop⟩

/-- Settles O22: with no hook a read is the byte of the window image, and with no RAM either a write has no store offset; the rest is the table. -/
theorem romWindowAccessChangesNothing : Obligations.RomWindowAccessChangesNothing := by
  refine ⟨fun s addr data hhook hram => ?_, fun k hk => ?_, fun k => kind_of_hook⟩
  · rw [Option.isNone_iff_eq_none] at hhook hram
    have hread := exec_winRd_of_no_hook hhook addr data
    have hwrite := exec_winWr_of_no_store (firesHook_of_no_hook hhook addr) (storeOffset_of_no_ram hram addr) data
    simp only [List.forall_mem_cons, List.not_mem_nil, false_implies, implies_true, and_true]
    exact ⟨⟨hread, exec_winRdPeek s addr data, hread, exec_winRdPeek s addr data⟩,
      ⟨hwrite, exec_winWrPeek s addr data, hwrite, exec_winWrPeek s addr data⟩⟩
  · rcases hk with rfl | rfl | ⟨v, rfl⟩ | rfl | rfl <;> exact ⟨rfl, rfl, rfl, fun _ _ => rfl⟩

/-- Settles O18, by the spec lemma of each peek. -/
theorem windowPeeksChangeNothing : Obligations.WindowPeeksChangeNothing := fun s addr data =>
  ⟨exec_winRdPeek s addr data, exec_winRdPeek s addr data, exec_winWrPeek s addr data, exec_winWrPeek s addr data⟩

end Sys2Proof.Proofs
end

section
/-! PROOFS. The remap steps, and that every event leaves the window image showing the active slot's mapping as it was before (43_remap.md R136 to
R142). -/

namespace Sys2Proof.Machine

variable {s t : State} {x : Slot} {m : MachineKind} {sl : SlotName} {cs : List MapperCmd} {lo hi a : Nat} {i : Instr}

/-! ### The mapper's commands (43_remap.md R136) -/

theorem Window.isOn_enable (w : Window) : (w.apply (.enable lo hi)).isOn a = true ↔ (lo ≤ a ∧ a ≤ hi) ∨ w.isOn a = true := by
  rw [Window.isOn_apply, Bool.or_eq_true, decide_eq_true_eq, or_comm]

theorem Window.isOn_disable (w : Window) : (w.apply (.disable lo hi)).isOn a = true ↔ ¬(lo ≤ a ∧ a ≤ hi) ∧ w.isOn a = true := by
  rw [Window.isOn_apply, Bool.and_eq_true, Bool.not_eq_true', decide_eq_false_iff_not, and_comm]

theorem Window.isRam_disable (w : Window) : (w.apply (.disable lo hi)).isRam a = true ↔ ¬(lo ≤ a ∧ a ≤ hi) ∧ w.isRam a = true := by
  rw [Window.isRam_apply, Bool.and_eq_true, Bool.not_eq_true', decide_eq_false_iff_not, and_comm]

theorem Window.isRam_markRam (w : Window) : (w.apply (.markRam lo hi)).isRam a = true ↔ (lo ≤ a ∧ a ≤ hi) ∨ w.isRam a = true := by
  rw [Window.isRam_apply, Bool.or_eq_true, decide_eq_true_eq, or_comm]

theorem Window.isRam_copy (w : Window) (bs : List Byte) :
    (w.apply (.copy lo hi bs)).isRam a = true ↔ ¬(lo ≤ a ∧ a ≤ hi) ∧ w.isRam a = true := by
  rw [Window.isRam_apply, Bool.and_eq_true, Bool.not_eq_true', decide_eq_false_iff_not, and_comm]

theorem Window.memRead_copy_of_mem (w : Window) {bs : List Byte} (hlen : bs.length = hi + 1 - lo) (ha : lo ≤ a ∧ a ≤ hi) :
    bs[a - lo]? = some (memRead (w.apply (.copy lo hi bs)).bytes a) := by
  have hlt : a - lo < bs.length := by omega
  have hread : memRead (w.apply (.copy lo hi bs)).bytes a = bs.getD (a - lo) unlistedByte :=
    (Window.memRead_apply w _ a).trans (if_pos (by omega))
  rw [hread, List.getElem?_eq_getElem hlt, List.getD_eq_getElem _ _ hlt]

theorem Window.memRead_copy_of_not_mem (w : Window) {bs : List Byte} (hlen : bs.length = hi + 1 - lo) (ha : ¬(lo ≤ a ∧ a ≤ hi)) :
    memRead (w.apply (.copy lo hi bs)).bytes a = memRead w.bytes a :=
  (Window.memRead_apply w _ a).trans (if_neg (by omega))

/-! ### The commands of a mapping -/

theorem mappingOf_some {segs : List Segment} (h : mappingOf m x = some segs) : segs = (descr x.kind).map x.state m x.sizeKb := by
  unfold mappingOf at h
  split at h
  · next hk =>
    cases h
    rw [hk]
    rfl
  · split at h <;> cases h
    rfl

/-- The commands of a mapping are those 43_remap.md R138 and R139 write out, segment by segment. -/
theorem segsCommands_written {segs : List Segment} (h : segsCommands x segs = some cs) :
    ∃ parts, List.Forall₂ x.SegmentCommands segs parts ∧ cs = parts.flatten := by
  induction segs generalizing cs with
  | nil =>
    cases h
    exact ⟨[], .nil, rfl⟩
  | cons g gs ih =>
    unfold segsCommands at h
    split at h <;> cases h
    next cs ds hg hgs =>
    obtain ⟨parts, hparts, rfl⟩ := ih hgs
    exact ⟨cs :: parts, .cons (segCommands_written hg) hparts, rfl⟩

theorem shownCommands_of_ok (h : mapCommands m x = .ok cs) : shownCommands m x = cs := by rw [shownCommands, h]

/-- The commands that show a good record are written out by 43_remap.md R138 and R139. -/
theorem Slot.Inv.mappingCommands (h : x.Inv m) : x.MappingCommands m (shownCommands m x) := by
  obtain ⟨segs, cs, hmap, hsegs, hcs, -⟩ := h.commands
  obtain rfl := mappingOf_some hmap
  rw [shownCommands_of_ok hcs]
  exact segsCommands_written hsegs

/-- Showing a good record a second time changes nothing: in a segment its commands set what it shows, and elsewhere they do nothing. -/
theorem Slot.Inv.shownCommands_twice (h : x.Inv m) (hcs : shownCommands m x = cs) (w : Window) (a : Nat) :
    let once := cs.foldl Window.apply w
    let twice := cs.foldl Window.apply once
    twice.isOn a = once.isOn a ∧ twice.isRam a = once.isRam a ∧ winRead twice a = winRead once a := by
  intro once twice
  obtain ⟨segs, cs', -, hsegs, hok, hdis, hle⟩ := h.commands
  obtain rfl : cs' = cs := (shownCommands_of_ok hok).symm.trans hcs
  have heffect := segsCommands_effect hsegs hdis fun g hg => (hle g hg).1
  cases hseg : segmentAt segs a with
  | none =>
    obtain ⟨hon, hram, hbyte⟩ := (heffect once a).1 hseg
    exact ⟨hon, hram, by rw [winRead, winRead, hon, hbyte]⟩
  | some g =>
    obtain ⟨hon, hram, hbyte⟩ := (heffect w a).2 g hseg
    obtain ⟨hon', hram', hbyte'⟩ := (heffect once a).2 g hseg
    exact ⟨hon'.trans hon.symm, hram'.trans hram.symm, Option.some_inj.1 (hbyte'.trans hbyte.symm)⟩

/-! ### `REMAP` and `FULL_REMAP` -/

/-- The commands a `REMAP` issues: those that show the slot where it is the active one (43_remap.md R139, R140). -/
def State.remapCommands (s : State) (sl : SlotName) : List MapperCmd :=
  if sl = s.active then shownCommands s.machine (s.slot sl) else []

/-- `REMAP` of either slot of a good state answers, and does nothing but issue its commands. -/
theorem State.remap_eq (h : s.Inv) (sl : SlotName) : s.remap sl = .ok (s.issueAll (s.remapCommands sl)) := by
  obtain ⟨cs, hcs, -⟩ := State.remap_spec (h.slot sl) h.window h.inside
  rw [hcs, State.remap_ok hcs, State.remapCommands]

theorem exec_remap (h : s.Inv) (sl : SlotName) : exec (.remap sl) s = .next (s.clearOut.issueAll (s.remapCommands sl)) := by
  have hcs : s.clearOut.remapCommands sl = s.remapCommands sl := by simp [State.remapCommands]
  rw [← hcs]
  exact congrArg answer (State.remap_eq h.clearOut sl)

/-- A remap where the marks are right shows the active slot's mapping: its commands act on the addresses of the segments, and the rest is off. -/
theorem State.remap_stillShows (h : s.Inv) (ht : s.remap sl = .ok t) : s.StillShows t := by
  obtain ⟨cs, hcs, hnone, -, -, hshow⟩ := State.remap_spec (h.slot sl) h.window h.inside
  cases hcs.symm.trans ht
  by_cases hsl : sl = s.active
  · subst hsl
    have hall : s.Marked → (s.issueAll cs).Coherent := fun hm => by
      rw [State.coherent_iff, State.issueAll_machine, State.issueAll_active, State.issueAll_slot]
      refine hshow rfl fun a ha hseg => ?_
      rw [hm.on a ha, hm.ram a ha, hseg]
      exact ⟨rfl, rfl⟩
    exact ⟨fun hm => (hall hm).toMarked, fun hc => hall hc.toMarked⟩
  · rw [hnone hsl]
    exact .refl s

/-- The choice of the active slot written out (10_state.md R16; the spec's decision D7). -/
theorem activeOf_eq_G_iff {mask : StateWord} {p g : Slot} : activeOf mask p g = .G ↔
    g.kind ≠ .none ∧ ∃ pt, (descr p.kind).passthrough = some pt ∧ pt.selectsPiggyback mask p.state = true := by
  unfold activeOf Descriptor.selects
  cases (descr p.kind).passthrough <;> simp

/-! ### Every event -/

theorem State.StillShows.of_output {o : Output} {n : Nat}
    (ht : (Host.Outcome.next { s with out := o, ioCount := n } : Answer) = .next t) : s.StillShows t := by
  cases ht
  exact State.SameCore.stillShows ⟨rfl, rfl, rfl, rfl, rfl, rfl⟩

theorem State.StillShows.of_answer {r : Except Refusal State} (ht : answer r = .next t) (hr : r = .ok t → s.clearOut.StillShows t) :
    s.StillShows t := s.sameCore_clearOut.stillShows.trans (hr (answer_eq_next.1 ht))

theorem State.ctrlRead_stillShows (h : s.Inv) {addr : Addr} (ht : s.ctrlRead addr false = .ok t) : s.StillShows t := by
  obtain ⟨u, hu, -, -, -, -, -, -, hshows, -⟩ := State.ctrlRead_spec h addr
  cases hu.symm.trans ht
  exact hshows

theorem State.ctrlWrite_stillShows (h : s.Inv) {addr : Addr} {v : Byte} (ht : s.ctrlWrite addr v false = .ok t) : s.StillShows t := by
  obtain ⟨u, hu, -, -, -, -, -, -, hshows, -⟩ := State.ctrlWrite_spec h addr v
  cases hu.symm.trans ht
  exact hshows

theorem State.winReadEvent_stillShows (h : s.Inv) {addr : Addr} (ht : s.winReadEvent addr = .ok t) : s.StillShows t := by
  obtain ⟨u, hu, -, -, -, -, -, -, hshows, -⟩ := State.winReadEvent_spec h addr
  cases hu.symm.trans ht
  exact hshows

/-- A window write fires the hook or stores one byte; the store stays inside the buffer because the marks are right (`State.stored_good`). -/
theorem State.winWriteEvent_stillShows (h : s.Inv) {addr : Addr} {v : Byte} (ht : s.winWriteEvent addr v = .ok t) : s.StillShows t := by
  have hall : s.Marked → t.Marked ∧ (s.Coherent → t.Coherent) := fun hm => by
    obtain ⟨u, hu, -, -, hmarked, hcoherent, -⟩ := State.winWriteEvent_spec h hm addr v
    cases hu.symm.trans ht
    exact ⟨hmarked, hcoherent⟩
  exact ⟨fun hm => (hall hm).1, fun hc => (hall hc.toMarked).2 hc⟩

theorem State.fullRemap_coherent (h : s.Inv) (ht : s.fullRemap = .ok t) : t.Coherent := by
  obtain ⟨u, hu, -, -, -, -, hc, -⟩ := h.ready.fullRemap
  cases hu.symm.trans ht
  exact hc

theorem State.insertEvent_coherent (h : s.Inv) {arg : KindArg} {bytes : List Byte} {path : Text} {raw : Bool}
    (ht : s.insertEvent sl arg bytes path raw = .ok t) : t.Coherent := by
  obtain ⟨kind, hkind, hf⟩ := State.insertEvent_answers ht
  obtain ⟨u, hu, -, -, hc, -⟩ := State.insertEvent_spec h hkind hf path raw
  cases hu.symm.trans ht
  exact hc

theorem State.removeEvent_coherent (h : s.Inv) (ht : s.removeEvent sl = .ok t) : t.Coherent := by
  obtain ⟨u, hu, -, -, hc, -⟩ := State.removeEvent_spec h sl
  cases hu.symm.trans ht
  exact hc

theorem State.coldStartEvent_coherent (h : s.Inv) (ht : s.coldStartEvent = .ok t) : t.Coherent := by
  obtain ⟨u, hu, -, -, -, -, hc, -⟩ := State.coldStartEvent_spec h
  cases hu.symm.trans ht
  exact hc

theorem execSaveState_stillShows (ht : execSaveState s = .next t) : s.StillShows t := by
  unfold execSaveState at ht
  split at ht
  · cases ht
  · exact .of_output ht

/-- Every event but `LINE_REMAP` leaves what was shown rightly shown rightly: it writes no record and no window byte, or it moves state words by
`commit`, or it stores one RAM byte, or it ends in a remap. -/
theorem exec_stillShows (h : s.Inv) (hi : ∀ sl, i ≠ .lineRemap sl) (ht : exec i s = .next t) : s.StillShows t := by
  have hc := h.clearOut
  cases i with
  | ctrlRd addr data => exact .of_answer ht (State.ctrlRead_stillShows hc)
  | ctrlRdPeek addr data => exact .of_output ((exec_ctrlRdPeek s addr data).symm.trans ht)
  | ctrlWr addr data => exact .of_answer ht (State.ctrlWrite_stillShows hc)
  | ctrlWrPeek addr data => exact .of_output ((exec_ctrlWrPeek s addr data).symm.trans ht)
  | winRd addr data => exact .of_answer ht (State.winReadEvent_stillShows hc)
  | winRdPeek addr data => exact .of_output ht
  | winWr addr data => exact .of_answer ht (State.winWriteEvent_stillShows hc)
  | winWrPeek addr data => exact .of_output ht
  | winRdLo5200 addr data => exact .of_answer ht (State.winReadEvent_stillShows hc)
  | winRdPeekLo5200 addr data => exact .of_output ht
  | winWrLo5200 addr data => exact .of_answer ht (State.winWriteEvent_stillShows hc)
  | winWrPeekLo5200 addr data => exact .of_output ht
  | busOtherQ0 p w addr data => exact .of_output ht
  | busOtherQ1 p w addr data => exact .of_output ht
  | busOtherQ3 p w addr data => exact .of_output ht
  | insert slot kind bytes path raw => exact .of_answer ht fun hr => (State.insertEvent_coherent hc hr).stillShows _
  | remove slot => exact .of_answer ht fun hr => (State.removeEvent_coherent hc hr).stillShows _
  | coldStart => exact .of_answer ht fun hr => (State.coldStartEvent_coherent hc hr).stillShows _
  | lineRemap slot => exact absurd rfl (hi slot)
  | saveState => exact execSaveState_stillShows ht
  | restoreState record files => exact .of_answer ht fun hr => (State.restoreEvent_good hc hr).2.1.stillShows _
  | readImage file => exact .of_output ht
  | writeImage path kind buf raw => exact .of_output ht
  | remap slot => exact .of_answer ht (State.remap_stillShows hc)
  | fullRemap => exact .of_answer ht fun hr => (State.fullRemap_coherent hc hr).stillShows _

/-- Every event keeps the marks, `LINE_REMAP` too: they look at a record's kind, size and state word, and it writes the buffer alone. -/
theorem exec_marked (h : s.Inv) (hm : s.Marked) (ht : exec i s = .next t) : t.Marked := by
  by_cases hi : ∃ sl, i = .lineRemap sl
  · obtain ⟨sl, rfl⟩ := hi
    obtain ⟨-, -, hmarked, -⟩ := State.lineRemap_inv h.clearOut (answer_eq_next.1 ht)
    exact hmarked hm.clearOut
  · exact (exec_stillShows h (not_exists.1 hi) ht).marked hm

end Sys2Proof.Machine

/-! ### The obligations -/

namespace Sys2Proof.Proofs

open Sys2Proof Sys2Proof.Machine

/-- Settles O26: `exec_stillShows`, for the event the step decodes. -/
theorem everyStepKeepsCoherence : Obligations.EveryStepKeepsCoherence := by
  intro s t h hc hno ht
  rcases step_cases ht with ⟨-, rfl⟩ | ⟨e, rest, i, hin, hd, hex⟩
  · exact hc
  · have hsame : s.SameCore { s with input := rest } := ⟨rfl, rfl, rfl, rfl, rfl, rfl⟩
    have hi : ∀ sl, i ≠ .lineRemap sl := fun sl hsl => hno e rest sl hin (hsl ▸ hd)
    exact (exec_stillShows (hsame.inv h) hi hex).coherent (hsame.coherent hc)

/-- Settles O27: `exec_marked`, for the event the step decodes. -/
theorem everyStepKeepsTheMarks : Obligations.EveryStepKeepsTheMarks := by
  intro s t h hm ht
  rcases step_cases ht with ⟨-, rfl⟩ | ⟨e, rest, i, -, -, hex⟩
  · exact hm
  · have hsame : s.SameCore { s with input := rest } := ⟨rfl, rfl, rfl, rfl, rfl, rfl⟩
    exact exec_marked (hsame.inv h) (hsame.marked hm) hex

/-- Settles O23: `State.fullRemap_spec` from a cleared answer, its commands by `State.fullRemap_ok`, and the mapper's effect command by command. -/
theorem fullRemapShowsTheActiveSlot : Obligations.FullRemapShowsTheActiveSlot := by
  refine ⟨fun s hp hg hw hin => ?_, rfl, rfl, fun w lo hi a bs => ?_⟩
  · obtain ⟨t, ht, hkept, htp, htg, hta, -, -, hc⟩ := State.fullRemap_spec (s := s.clearOut) hp hg hw hin
    obtain ⟨hout, hwindow⟩ := State.fullRemap_out ht
    have hslot : ∀ sl, t.slot sl = s.slot sl := SlotName.forall_iff.2 ⟨htp, htg⟩
    rw [hslot, hta] at hout hwindow
    refine ⟨t, congrArg answer ht, htp, htg, hta, hta ▸ activeOf_eq_G_iff, hc, s.sameFrame_clearOut.trans hkept.frame, hout, ?_⟩
    rw [hout]
    exact hwindow
  · exact ⟨w.isOn_enable, Window.isRam_apply w _ a, rfl, w.isOn_disable, w.isRam_disable, rfl, Window.isOn_apply w _ a, w.isRam_markRam, rfl,
      Window.isOn_apply w _ a, w.isRam_copy bs, fun hlen => ⟨w.memRead_copy_of_mem hlen, w.memRead_copy_of_not_mem hlen⟩⟩

/-- Settles O24: `exec_remap`, and the commands of a good record by `Slot.Inv.mappingCommands`. -/
theorem remapShowsTheActiveSlotOnly : Obligations.RemapShowsTheActiveSlotOnly := by
  refine ⟨fun s sl h => ?_, fun m x => Slot.Inv.mappingCommands⟩
  refine ⟨_, exec_remap h sl, State.issueAll_p .., State.issueAll_g .., State.issueAll_active ..,
    s.sameFrame_clearOut.trans (State.Kept.issueAll _ _).frame, fun ha => ?_, ?_, ?_, fun ha => ?_, fun hc => ?_⟩
  · rw [State.issueAll_out, State.remapCommands, if_pos ha]
    exact (h.slot sl).mappingCommands
  · rw [State.issueAll_out, State.remapCommands]
    rfl
  · rw [State.issueAll_window, State.issueAll_out]
    rfl
  · rw [State.remapCommands, if_neg ha]
    rfl
  · exact (exec_stillShows h (fun _ => Instr.noConfusion) (exec_remap h sl)).coherent hc

/-- Settles O25: of the inactive slot neither does anything, of the active one both issue the same commands (`Slot.Inv.shownCommands_twice`). -/
theorem remapIsIdempotent : Obligations.RemapIsIdempotent := by
  intro s sl h
  have hs := exec_remap h sl
  refine ⟨_, _, hs, exec_remap (exec_served h hs).inv sl, fun a => ?_⟩
  have hagain : (s.clearOut.issueAll (s.remapCommands sl)).remapCommands sl = s.remapCommands sl := by simp [State.remapCommands]
  simp only [hagain, State.issueAll_window, State.clearOut_window]
  unfold State.remapCommands
  split
  · exact (h.slot sl).shownCommands_twice rfl s.window a
  · exact ⟨rfl, rfl, rfl⟩

/-- Settles O28: a read's byte is that of the window image of the state after it, which is coherent too. -/
theorem windowReadsShowTheMapping : Obligations.WindowReadsShowTheMapping := by
  intro s h hc addr data ha
  obtain ⟨u, hu, hframe, -, -, hout, -, -, hshows, hsame⟩ := State.winReadEvent_spec h.clearOut addr
  have hbyte := (hc.byte addr.toNat ha).symm
  refine ⟨_, u, _, hbyte, exec_winRdPeek s addr data, exec_winRdPeek s addr data, rfl, congrArg answer hu, congrArg answer hu, fun hf => ?_, ?_⟩
  · rw [hsame (hookNext_of_not_fires hf _ _)]
    rfl
  · have hm : u.machine = s.machine := hframe.machine
    rw [hout, ← hm]
    exact (hshows.coherent hc.clearOut).byte addr.toNat (hm ▸ ha)

end Sys2Proof.Proofs
end

section
/-! PROOFS. The address line remapper: the wiring of a line table as the OR of one line per set bit, its inverse table, and what decoding a buffer
does (44_address_line_remapper.md R150 to R156). -/

namespace Sys2Proof.Machine

/-! ### The OR of masks, and of the lines a table wires -/

/-- Bit `k` of the OR is that of a mask whose bit of `v` is set. -/
theorem testBit_orMasks {k : Nat} : ∀ {ms : List Nat} {v : Nat},
    (orMasks ms v).testBit k = true ↔ ∃ b m, ms[b]? = some m ∧ v.testBit b = true ∧ m.testBit k = true
  | [], v => by simp [orMasks]
  | m :: ms, v => by
    have hbit : (if v % 2 = 1 then m else 0).testBit k = true ↔ v.testBit 0 = true ∧ m.testBit k = true := by
      by_cases hv : v % 2 = 1 <;> simp [hv]
    rw [orMasks, Nat.testBit_or, Bool.or_eq_true, hbit, testBit_orMasks]
    constructor
    · rintro (hm | ⟨b, m', hb, hv, hm⟩)
      · exact ⟨0, m, rfl, hm⟩
      · exact ⟨b + 1, m', hb, by rwa [Nat.testBit_succ], hm⟩
    · rintro ⟨_ | b, m', hb, hv, hm⟩
      · cases hb
        exact .inl ⟨hv, hm⟩
      · exact .inr ⟨b, m', hb, by rwa [Nat.testBit_succ] at hv, hm⟩

/-- A line table: input bit `b` is wired to the line `w[b]`. -/
abbrev LineTable (n : Nat) : Type := Vector (Fin n) n

/-- The OR of the line `w[b]` for each set bit `b`: what `PermAddr` and `PermData` share (44_address_line_remapper.md R153). -/
def orLines {n : Nat} (w : LineTable n) (i : Nat) : Nat := orMasks (w.toList.map fun l => 2 ^ l.val) i

section LineTables

variable {n i k : Nat} {v w : LineTable n}

theorem testBit_orLines : (orLines w i).testBit k = true ↔ ∃ b : Fin n, i.testBit b.val = true ∧ (w[b]).val = k := by
  rw [orLines, testBit_orMasks]
  constructor
  · rintro ⟨b, m, hb, hi, hm⟩
    rw [List.getElem?_map, Option.map_eq_some_iff] at hb
    obtain ⟨l, hl, rfl⟩ := hb
    obtain ⟨hlt, hget⟩ := List.getElem?_eq_some_iff.1 hl
    exact ⟨⟨b, by simpa using hlt⟩, hi, by simpa [← hget, Nat.testBit_two_pow] using hm⟩
  · rintro ⟨b, hi, rfl⟩
    exact ⟨b, 2 ^ (w[b]).val, by simp, hi, Nat.testBit_two_pow_self⟩

theorem orLines_lt : orLines w i < 2 ^ n := by
  refine Nat.lt_pow_two_of_testBit _ fun k hk => Bool.eq_false_iff.2 fun hbit => ?_
  obtain ⟨b, -, rfl⟩ := testBit_orLines.1 hbit
  omega

theorem orLines_zero : orLines w 0 = 0 := by
  refine Nat.zero_of_testBit_eq_false fun k => Bool.eq_false_iff.2 fun hbit => ?_
  obtain ⟨b, hb, -⟩ := testBit_orLines.1 hbit
  simp at hb

/-- A table undoes another when each line leads back to its bit. -/
def LineTable.Undoes (v w : LineTable n) : Prop := ∀ b : Fin n, v[w[b]] = b

theorem LineTable.Undoes.symm (h : v.Undoes w) : w.Undoes v :=
  have hinv : Function.LeftInverse (fun b : Fin n => v[b]) (fun b : Fin n => w[b]) := h
  hinv.rightInverse_of_surjective (Finite.surjective_of_injective hinv.injective)

theorem LineTable.Undoes.orLines_orLines (h : v.Undoes w) (hi : i < 2 ^ n) : orLines v (orLines w i) = i := by
  refine Nat.eq_of_testBit_eq fun k => Bool.eq_iff_iff.2 ?_
  rw [testBit_orLines]
  constructor
  · rintro ⟨l, hl, rfl⟩
    obtain ⟨b, hb, hbl⟩ := testBit_orLines.1 hl
    rwa [← Fin.ext hbl, h b]
  · intro hk
    have hlt : k < n := (Nat.pow_lt_pow_iff_right (by decide)).1 ((Nat.ge_two_pow_of_testBit hk).trans_lt hi)
    exact ⟨w[k], testBit_orLines.2 ⟨⟨k, hlt⟩, hk, rfl⟩, congrArg Fin.val (h ⟨k, hlt⟩)⟩

theorem LineTable.nodup_iff : w.toList.Nodup ↔ Function.Injective fun b : Fin n => w[b] := by
  have hlist : w.toList = List.ofFn fun b : Fin n => w[b] := List.ext_getElem (by simp) (by simp)
  rw [hlist, List.nodup_ofFn]

theorem LineTable.bijective (h : w.toList.Nodup) : Function.Bijective fun b : Fin n => w[b] :=
  Finite.injective_iff_bijective.1 (LineTable.nodup_iff.1 h)

/-- A table that undoes another names no line twice. -/
theorem LineTable.Undoes.nodup (h : v.Undoes w) : v.toList.Nodup :=
  LineTable.nodup_iff.2 (Function.LeftInverse.injective (g := fun b : Fin n => w[b]) h.symm)

/-- A table that names no line twice has an inverse table. -/
theorem LineTable.exists_undoes (h : w.toList.Nodup) : ∃ v : LineTable n, v.Undoes w := by
  obtain ⟨f, hf, -⟩ := Function.bijective_iff_has_inverse.1 (LineTable.bijective h)
  exact ⟨Vector.ofFn f, fun b => by simpa using hf b⟩

theorem orLines_allOnes (h : w.toList.Nodup) : orLines w (2 ^ n - 1) = 2 ^ n - 1 := by
  refine Nat.eq_of_testBit_eq fun k => Bool.eq_iff_iff.2 ?_
  simp only [testBit_orLines, Nat.testBit_two_pow_sub_one, decide_eq_true_eq]
  constructor
  · rintro ⟨b, -, rfl⟩
    exact (w[b]).isLt
  · intro hk
    obtain ⟨b, hb⟩ := (LineTable.bijective h).surjective ⟨k, hk⟩
    exact ⟨b, b.isLt, congrArg Fin.val hb⟩

theorem testBit_orLines_line (h : w.toList.Nodup) (b : Fin n) : (orLines w i).testBit (w[b]).val = i.testBit b.val := by
  rw [Bool.eq_iff_iff, testBit_orLines]
  constructor
  · rintro ⟨c, hc, hcb⟩
    rwa [← (LineTable.bijective h).injective (Fin.ext hcb)]
  · exact fun hb => ⟨b, hb, rfl⟩

theorem bitCount_eq_card : bitCount n i = (Finset.univ.filter fun b : Fin n => i.testBit b.val = true).card := by
  rw [bitCount, ← List.map_coe_finRange_eq_range, List.filter_map, List.length_map]
  exact congrArg List.length (List.filter_congr fun b _ => Bool.decide_eq_true.symm)

/-- The set bits of the OR are the lines of the set bits. -/
theorem bitCount_orLines (h : w.toList.Nodup) : bitCount n (orLines w i) = bitCount n i := by
  rw [bitCount_eq_card, bitCount_eq_card]
  exact (Finset.card_bijective _ (LineTable.bijective h) fun b => by simpa using (testBit_orLines_line h b).symm).symm

end LineTables

/-! ### The two line functions -/

section LineMaps

variable {lm inv : LineMap} {i : Nat} {y : Byte} {old : List Byte}

theorem LineMap.permAddr_eq : lm.permAddr i = orLines lm.amap i := rfl

theorem LineMap.permData_toNat : (lm.permData y).toNat = orLines lm.dmap y.toNat :=
  Nat.mod_eq_of_lt orLines_lt

/-- The lines of one map lead back where those of the other come from (44_address_line_remapper.md R156). -/
structure LineMap.Undoes (inv lm : LineMap) : Prop where
  addr : LineTable.Undoes inv.amap lm.amap
  data : LineTable.Undoes inv.dmap lm.dmap

theorem LineMap.Undoes.symm (h : inv.Undoes lm) : lm.Undoes inv := ⟨h.addr.symm, h.data.symm⟩

theorem LineMap.Undoes.permAddr_permAddr (h : inv.Undoes lm) (hi : i < 2 ^ 17) : inv.permAddr (lm.permAddr i) = i := by
  rw [permAddr_eq, permAddr_eq]
  exact h.addr.orLines_orLines hi

theorem LineMap.Undoes.permData_permData (h : inv.Undoes lm) (y : Byte) : inv.permData (lm.permData y) = y :=
  BitVec.eq_of_toNat_eq <| by rw [permData_toNat, permData_toNat, h.data.orLines_orLines y.isLt]

/-- Every line map has its inverse: no table names a line twice (44_address_line_remapper.md R151). -/
theorem LineMap.exists_undoes (lm : LineMap) : ∃ inv : LineMap, inv.Undoes lm := by
  obtain ⟨a, ha⟩ := LineTable.exists_undoes lm.amapPerm
  obtain ⟨d, hd⟩ := LineTable.exists_undoes lm.dmapPerm
  exact ⟨⟨a, d, ha.nodup, hd.nodup⟩, ha, hd⟩

theorem LineMap.testBit_permAddr {k : Nat} :
    (lm.permAddr i).testBit k = true ↔ ∃ b : Fin 17, i.testBit b.val = true ∧ (lm.amap[b]).val = k := by
  rw [permAddr_eq]
  exact testBit_orLines

theorem LineMap.getLsbD_permData {k : Nat} :
    (lm.permData y).getLsbD k = true ↔ ∃ b : Fin 8, y.getLsbD b.val = true ∧ (lm.dmap[b]).val = k := by
  rw [BitVec.getLsbD, permData_toNat]
  exact testBit_orLines

/-! ### The buffer decoded -/

/-- The preconditions of 44_address_line_remapper.md R154. -/
theorem LineMap.fits_iff {n : Nat} : lm.fits n = true ↔ n ≤ 2 ^ 17 ∧ ∀ i, i < n → lm.permAddr i < n := by
  simp [LineMap.fits]

theorem LineMap.decoded_getElem? (hi : i < old.length) (hp : lm.permAddr i < old.length) :
    (lm.decoded old)[i]? = (old[lm.permAddr i]?).map lm.permData := by
  simp [LineMap.decoded, hi, hp]

/-- Where the lines of a map keep the indices of a buffer inside, so do those of its inverse: they only move them about. -/
theorem LineMap.Undoes.fits (h : inv.Undoes lm) {n : Nat} (hf : lm.fits n = true) : inv.fits n = true := by
  obtain ⟨hn, hin⟩ := fits_iff.1 hf
  have hinj : Set.InjOn lm.permAddr (Finset.range n) := fun i hi j hj hij => by
    rw [Finset.mem_coe, Finset.mem_range] at hi hj
    rw [← h.permAddr_permAddr (hi.trans_le hn), hij, h.permAddr_permAddr (hj.trans_le hn)]
  have hsurj : Set.SurjOn lm.permAddr (Finset.range n) (Finset.range n) :=
    Finset.surjOn_of_injOn_of_card_le _ (fun i hi => by simpa using hin i (by simpa using hi)) hinj le_rfl
  refine fits_iff.2 ⟨hn, fun j hj => ?_⟩
  obtain ⟨i, hi, rfl⟩ := hsurj (by simpa using hj)
  rw [Finset.mem_coe, Finset.mem_range] at hi
  rwa [h.permAddr_permAddr (hi.trans_le hn)]

/-- Decoding with the inverse tables gives the old buffer back: the lines of the two maps cancel at every index and in every byte. -/
theorem LineMap.Undoes.decoded_decoded (h : inv.Undoes lm) (hf : lm.fits old.length = true) : inv.decoded (lm.decoded old) = old := by
  obtain ⟨hn, hin⟩ := fits_iff.1 hf
  obtain ⟨-, hinv⟩ := fits_iff.1 (h.fits hf)
  refine List.ext_getElem? fun i => ?_
  by_cases hi : i < old.length
  · have hback : lm.permAddr (inv.permAddr i) = i := h.symm.permAddr_permAddr (hi.trans_le hn)
    have hcancel : inv.permData ∘ lm.permData = id := funext h.permData_permData
    rw [decoded_getElem? (by rwa [decoded_length]) (by rw [decoded_length]; exact hinv i hi),
      decoded_getElem? (hinv i hi) (by rwa [hback]), hback, Option.map_map, hcancel, Option.map_id, id]
  · have hle : old.length ≤ i := Nat.le_of_not_lt hi
    rw [List.getElem?_eq_none hle, List.getElem?_eq_none (by rwa [decoded_length, decoded_length])]

end LineMaps

/-! ### The event `LINE_REMAP` -/

section Event

variable {s : State} {sl : SlotName} {lm : LineMap} {old : List Byte}

theorem State.lineRemap_of_no_map (hl : lineMapOf (s.slot sl).kind = Option.none) : s.lineRemap sl = .ok s := by
  simp [State.lineRemap, hl]

theorem State.lineRemap_of_map (hl : lineMapOf (s.slot sl).kind = some lm) (hb : (s.slot sl).buffer = some old) : s.lineRemap sl =
    if lm.fits old.length then .ok (s.setSlot sl { s.slot sl with buffer := some (lm.decoded old) }) else .error .lineRemap := by
  simp [State.lineRemap, hl, hb]

end Event

end Sys2Proof.Machine

/-! ### The obligations -/

namespace Sys2Proof.Proofs

open Sys2Proof Sys2Proof.Machine

/-- Settles O44: the two line functions are `orLines` of a table (`testBit_orLines`), and the inverse map undoes both. -/
theorem lineFunctionsPermute : Obligations.LineFunctionsPermute := by
  intro lm
  obtain ⟨inv, hinv⟩ := lm.exists_undoes
  refine ⟨fun _ _ => LineMap.testBit_permAddr, fun _ _ => LineMap.getLsbD_permData, fun j hj => ?_, fun z => ?_,
    fun _ => bitCount_orLines lm.amapPerm, fun y => ?_, orLines_zero, orLines_allOnes lm.amapPerm, ?_, ?_⟩
  · exact ⟨inv.permAddr j, orLines_lt, hinv.symm.permAddr_permAddr hj, fun i hi hij => hij ▸ (hinv.permAddr_permAddr hi).symm⟩
  · exact ⟨inv.permData z, hinv.symm.permData_permData z, fun y hy => hy ▸ (hinv.permData_permData y).symm⟩
  · rw [LineMap.permData_toNat]
    exact bitCount_orLines lm.dmapPerm
  · exact BitVec.eq_of_toNat_eq (LineMap.permData_toNat.trans orLines_zero)
  · exact BitVec.eq_of_toNat_eq (LineMap.permData_toNat.trans (orLines_allOnes lm.dmapPerm))

/-- Settles O45: the decoded buffer by `LineMap.decoded_getElem?`, and a record written alone changes nothing else. -/
theorem lineRemapResult : Obligations.LineRemapResult := by
  intro s sl lm old hl hb hfit
  have hok := State.lineRemap_of_map (s := s.clearOut) (by simpa using hl) (by simpa using hb)
  rw [if_pos (LineMap.fits_iff.2 hfit)] at hok
  refine ⟨_, lm.decoded old, congrArg answer hok, by simp, lm.decoded_length old, fun i hi => LineMap.decoded_getElem? hi (hfit.2 i hi), ?_,
    fun tl htl => ?_, by simp, by simp, by simp, s.sameFrame_clearOut.trans (State.Kept.setSlot ..).frame⟩
  · simp [← hb]
  · rw [State.setSlot_slot_ne _ _ _ htl, State.clearOut_slot]

/-- Settles O46: the two other branches of the event. -/
theorem lineRemapElsewhere : Obligations.LineRemapElsewhere := by
  refine fun s sl => ⟨fun hl => ?_, fun lm old hl hb hfit => ?_⟩
  · exact congrArg answer (State.lineRemap_of_no_map (s := s.clearOut) (by simpa using hl))
  · have herr := State.lineRemap_of_map (s := s.clearOut) (by simpa using hl) (by simpa using hb)
    rw [if_neg (mt LineMap.fits_iff.1 hfit)] at herr
    exact congrArg answer herr

/-- Settles O47: `LineMap.Undoes.decoded_decoded`. -/
theorem inverseTablesRestore : Obligations.InverseTablesRestore := fun _ _ _ ha hd hf => LineMap.Undoes.decoded_decoded ⟨ha, hd⟩ hf

end Sys2Proof.Proofs
end

section
/-! PROOFS. The slot operations: when an insertion is accepted, what a removal, an insertion and a cold start leave, the saved record, and a restore
of any record, from which restoring what was saved follows (45_slot_operations.md R166 to R181). -/

namespace Sys2Proof.Machine

variable {s t v : State} {x : Slot} {m : MachineKind} {sl : SlotName} {arg : KindArg} {kind k : Kind} {bytes : List Byte} {path : Text}
  {raw : Bool} {files : List FileAt} {e e2 : SaveEntry} {rest record : List SaveEntry}

/-! ### When an insertion is accepted (45_slot_operations.md R168) -/

theorem acceptsSize_iff (hn : kind ≠ .none) {kb : Nat} : acceptsSize kind kb = true ↔ kind = .unknown ∨ kb = (typeEntry kind).sizeKb := by
  cases kind <;> simp [acceptsSize] at hn ⊢

theorem acceptsMachine_iff (hn : kind ≠ .none) : acceptsMachine kind m = true ↔ kind = .unknown ∨ m = (typeEntry kind).machine := by
  cases kind <;> simp [acceptsMachine] at hn ⊢

/-- `insertFailure_none` and its converse: an insertion that meets every precondition is accepted. -/
theorem insertFailure_eq_none_iff : insertFailure s sl kind bytes = Option.none ↔
    kind ≠ .none ∧ bytes.length ≠ 0 ∧ bytes.length = bytes.length / Config.kiloByte * Config.kiloByte ∧
    acceptsSize kind (bytes.length / Config.kiloByte) = true ∧ acceptsMachine kind s.machine = true ∧
    (∀ lm, lineMapOf kind = some lm → lm.fits bytes.length = true) ∧ (sl = .G → s.p.kind ≠ .none) ∧
    ((descr kind).nonvolatile = true → lineMapOf kind = Option.none) := by
  refine ⟨insertFailure_none, fun ⟨hkind, hpos, hlen, hsize, hmachine, hlines, hprimary, hnv⟩ => ?_⟩
  have hmod : bytes.length % Config.kiloByte = 0 := by simp only [Config.kiloByte] at *; omega
  have hfits : ((lineMapOf kind).map fun lm => lm.fits bytes.length).getD true = true := by
    cases hl : lineMapOf kind with
    | none => rfl
    | some lm => exact hlines lm hl
  have hnv' : ¬((descr kind).nonvolatile = true ∧ (lineMapOf kind).isSome = true) := fun ⟨h, hsome⟩ => by simp [hnv h] at hsome
  have hprimary' : ¬(sl = .G ∧ s.p.kind = .none) := fun ⟨hsl, hp⟩ => hprimary hsl hp
  simp only [insertFailure, hkind, hpos, hmod, hsize, hmachine, hfits, hprimary', hnv', ne_eq, not_true_eq_false, or_self, if_false,
    Bool.true_eq_false]

/-- A code of at least 1 denotes the cartridge type whose code it is, and no other kind. -/
theorem kindOfCode_of_positive {ops : LoaderOps} {n : Code} (hn : 1 ≤ n.toInt) :
    kindOfCode ops n = some kind ↔ kind ≠ .none ∧ kind ≠ .unknown ∧ codeOf ops kind = n := by
  have hnone : codeOf ops kind = n → kind ≠ .none := by
    rintro rfl rfl
    exact absurd hn (by simp [codeOf])
  rw [kindOfCode_eq_some]
  exact ⟨fun ⟨hu, hc⟩ => ⟨hnone hc, hu, hc⟩, fun ⟨_, hu, hc⟩ => ⟨hu, hc⟩⟩

theorem resolveKind_eq_codeRange_iff {ops : LoaderOps} {n : Code} :
    resolveKind ops (.code n) = .error .codeRange ↔ n.toInt < 1 ∨ (ops.codeMax : Int) < n.toInt := by
  by_cases hr : n.toInt < 1 ∨ (ops.codeMax : Int) < n.toInt
  · simp [resolveKind, hr]
  · cases hk : kindOfCode ops n <;> simp [resolveKind, hr, hk]

/-! ### The write-backs (45_slot_operations.md R171) -/

theorem State.writtenBack_of_empty (hk : (s.slot sl).kind = .none) : s.writtenBack sl = s := by
  have hnv : (descr (s.slot sl).kind).nonvolatile = false := by rw [hk]; rfl
  simp [State.writtenBack, hnv]

/-- A write-back adds to the files written and to no other part of the answer. -/
theorem State.writtenBack_out (s : State) (sl : SlotName) :
    (s.writtenBack sl).out = { s.out with writes := (s.writtenBack sl).out.writes } := by
  unfold State.writtenBack
  split <;> rfl

theorem State.bothRemoved_out (s : State) : s.bothRemoved.out = { s.out with writes := s.bothRemoved.out.writes } := by
  simp only [State.bothRemoved, State.setSlot_out]
  rw [State.writtenBack_out, State.setSlot_out, State.writtenBack_out]

/-- How many files a write-back writes does not depend on the last answer. -/
theorem State.clearOut_writtenBack_ioCount (s : State) (sl : SlotName) : (s.clearOut.writtenBack sl).ioCount = (s.writtenBack sl).ioCount := by
  simp only [State.writtenBack, State.clearOut_slot]
  split <;> rfl

/-! ### What is shown -/

theorem shownCommands_empty (m : MachineKind) : shownCommands m Slot.empty = [] := shownCommands_of_ok rfl

theorem Window.Inside.isOn_of_outside {w : Window} (h : w.Inside m) {a : Nat} (ha : ¬inWindow m a = true) : w.isOn a = false :=
  decide_eq_false fun hmem => ha (h.en a hmem)

/-- A window image that shows an empty slot, and holds nothing outside the windows, is off everywhere. -/
theorem Window.Shows.isOn_of_empty {w : Window} (h : w.Shows m Slot.empty) (hin : w.Inside m) (a : Nat) : w.isOn a = false := by
  by_cases ha : inWindow m a = true
  · rw [(h a ha).1, segmentOf_empty]
    rfl
  · exact hin.isOn_of_outside ha

/-- Two window images that show one slot record, and hold nothing outside the windows, read the same at every address. -/
theorem Window.Shows.winRead_eq {w w' : Window} (h : w.Shows m x) (h' : w'.Shows m x) (hin : w.Inside m) (hin' : w'.Inside m) (a : Nat) :
    winRead w a = winRead w' a := by
  by_cases ha : inWindow m a = true
  · exact Option.some_inj.1 ((h a ha).2.2.trans (h' a ha).2.2.symm)
  · simp [winRead, hin.isOn_of_outside ha, hin'.isOn_of_outside ha]

/-! ### The events -/

theorem exec_insert_unresolved {f : InsertFailure} (ha : resolveKind s.loaderOps arg = .error f) :
    exec (.insert sl arg bytes path raw) s = .refused (.insert f) := by
  have ha' : resolveKind s.clearOut.loaderOps arg = .error f := ha
  have hins : s.clearOut.insertEvent sl arg bytes path raw = .error (.insert f) := by simp only [State.insertEvent, ha']
  exact congrArg answer hins

theorem State.insertQuiet_refused {f : InsertFailure} (hf : insertFailure s sl kind bytes = some f) :
    s.insertQuiet sl kind bytes path raw = .error (.insert f) := by
  simp only [State.insertQuiet, hf]

theorem exec_insert_refused (ha : resolveKind s.loaderOps arg = .ok kind) {f : InsertFailure} (hf : insertFailure s sl kind bytes = some f) :
    exec (.insert sl arg bytes path raw) s = .refused (.insert f) := by
  have ha' : resolveKind s.clearOut.loaderOps arg = .ok kind := ha
  have hins : s.clearOut.insertEvent sl arg bytes path raw = .error (.insert f) := by
    simp only [State.insertEvent, ha', State.insertQuiet_refused (s := s.clearOut) hf]
  exact congrArg answer hins

/-! ### A restore (45_slot_operations.md R180) -/

/-- The record a restore leaves in a slot: the one an insertion of the image leaves, with the saved state word. -/
abbrev restoredSlot (k : Kind) (bytes : List Byte) (e : SaveEntry) : Slot :=
  { insertedSlot k bytes e.path e.raw with state := e.state }

theorem State.restoreSlot_of_no_image {r : LoadResult} (hr : loadPath s.loaderOps files e.path = r) (hl : LoadResult.image r = Option.none) :
    s.restoreSlot sl k e files = .ok (s, some r) := by
  simp only [State.restoreSlot, hr, hl]

theorem State.restoreSlot_refused {f : InsertFailure} (hl : LoadResult.image (loadPath s.loaderOps files e.path) = some bytes)
    (hf : insertFailure s sl k bytes = some f) : s.restoreSlot sl k e files = .error (.insert f) := by
  simp only [State.restoreSlot, hl, State.insertQuiet_refused hf]

/-- Restoring an empty slot writes nothing back. -/
theorem State.restoreSlot_of_empty (hs : s.slot sl = Slot.empty) (hl : LoadResult.image (loadPath s.loaderOps files e.path) = some bytes)
    (hf : insertFailure s sl k bytes = Option.none) : s.restoreSlot sl k e files = .ok (s.setSlot sl (restoredSlot k bytes e), Option.none) := by
  rw [State.restoreSlot_spec (by rw [hs]; exact Slot.empty_inv _) hl hf, State.writtenBack_of_empty (by rw [hs]; rfl)]

theorem State.bothRemoved_loaderOps (s : State) : s.clearOut.bothRemoved.loaderOps = s.loaderOps :=
  State.loaderOps_eq (s := s) s.clearOut.under_bothRemoved.loader

theorem State.bothRemoved_insertFailure : insertFailure s.clearOut.bothRemoved .P k bytes = insertFailure s .P k bytes :=
  insertFailure_eq (t := s) (sl := .P) (tl := .P) s.clearOut.under_bothRemoved.machine nofun nofun k bytes

/-- Behind a restored primary the piggyback slot takes what the primary slot would take. -/
theorem State.bothRemoved_insertFailure_piggyback (hx : x.kind ≠ .none) :
    insertFailure (s.clearOut.bothRemoved.setSlot .P x) .G k bytes = insertFailure s .P k bytes :=
  insertFailure_eq (t := s) (u := s.clearOut.bothRemoved.setSlot .P x) (sl := .P) s.clearOut.under_bothRemoved.machine nofun (fun _ => hx) k
    bytes

theorem State.restoreRecord_of_none (hc : e.code = 0#32) : s.restoreRecord (e :: rest) files = .ok (s, Option.none) := by
  simp only [State.restoreRecord, hc, if_true]

section Record

variable (hc : e.code ≠ 0#32)
include hc

theorem State.restoreRecord_of_no_kind (hk : kindOfCode s.loaderOps (absCode e.code) = Option.none) :
    s.restoreRecord (e :: rest) files = .error .restoreCode := by
  simp only [State.restoreRecord, hc, if_false, hk]

variable (hk : kindOfCode s.loaderOps (absCode e.code) = some k)
include hk

theorem State.restoreRecord_of_refused {f : Refusal} (hp : s.restoreSlot .P k e files = .error f) :
    s.restoreRecord (e :: rest) files = .error f := by
  simp only [State.restoreRecord, hc, if_false, hk, hp]

theorem State.restoreRecord_of_failed {r : LoadResult} (hp : s.restoreSlot .P k e files = .ok (t, some r)) :
    s.restoreRecord (e :: rest) files = .ok (t, some r) := by
  simp only [State.restoreRecord, hc, if_false, hk, hp]

theorem State.restoreRecord_of_restored (hp : s.restoreSlot .P k e files = .ok (t, Option.none)) : s.restoreRecord (e :: rest) files =
    if e.code.toInt < 0 then t.restorePiggyback rest files else .ok (t, Option.none) := by
  simp only [State.restoreRecord, hc, if_false, hk, hp]

end Record

theorem State.restorePiggyback_of_no_kind (hk : kindOfCode s.loaderOps e.code = Option.none) :
    s.restorePiggyback (e :: rest) files = .error .restoreCode := by
  simp only [State.restorePiggyback, hk]

theorem State.restorePiggyback_of_kind (hk : kindOfCode s.loaderOps e.code = some k) :
    s.restorePiggyback (e :: rest) files = s.restoreSlot .G k e files := by
  simp only [State.restorePiggyback, hk]

/-- A restore works on the state after the two removals. -/
theorem exec_restoreState_refused (h : s.Inv) {f : Refusal} (hr : s.clearOut.bothRemoved.restoreRecord record files = .error f) :
    exec (.restoreState record files) s = .refused f := by
  have hev : s.clearOut.restoreEvent record files = .error f := by rw [State.restoreEvent_eq h.clearOut, hr]
  exact congrArg answer hev

/-- A restore whose record writes the two slots of the emptied state, and nothing else, leaves these, or, after a failed load, two empty slots. -/
theorem exec_restoreState (h : s.Inv) {failed : Option LoadResult}
    (hr : s.clearOut.bothRemoved.restoreRecord record files = .ok (v, failed)) (hv : v = { s.clearOut.bothRemoved with p := v.p, g := v.g }) :
    ∃ t, exec (.restoreState record files) s = .next t ∧ (failed = Option.none → s.RestoredTo t v.p v.g Option.none) ∧
      ∀ r, failed = some r → s.RestoredTo t Slot.empty Slot.empty (some r) := by
  obtain ⟨hready, hunder⟩ := State.restoreRecord_ready h.clearOut.ready.bothRemoved hr
  obtain ⟨t, ht, hinv, hc, hunder', hio, hwindow, hok, hfail⟩ := State.restoreEnd_spec hready failed
  have hst : s.Under t := s.sameFrame_clearOut.under.trans ((s.clearOut.under_bothRemoved.trans hunder).trans hunder')
  have hm : v.machine = s.machine := by rw [hv]; exact s.clearOut.under_bothRemoved.machine
  have hvout : v.out = { writes := s.clearOut.bothRemoved.out.writes } := by rw [hv]; exact s.clearOut.bothRemoved_out
  have hvio : v.ioCount = s.clearOut.bothRemoved.ioCount := by rw [hv]
  have hvwindow : v.window = s.window := by rw [hv]; exact s.clearOut.bothRemoved_window
  have hev : s.clearOut.restoreEvent record files = .ok t := by rw [State.restoreEvent_eq h.clearOut, hr]; exact ht
  have hactive : t.active = activeOf s.sdxPbMask t.p t.g := hst.sdxPbMask ▸ hinv.active
  rw [hm, hvwindow] at hwindow
  have hrestored : ∀ {x y : Slot} {r : Option LoadResult}, t.p = x → t.g = y →
      t.out = { load := r, writes := s.clearOut.bothRemoved.out.writes
                commands := disableCommands s.machine ++ shownCommands s.machine (t.slot t.active) } → s.RestoredTo t x y r :=
    fun hp hg hout => ⟨hst.toSameParams, hp, hg, by rw [hactive, hp, hg], hc, hst.input, hio.trans hvio, hout, by rw [hout]; exact hwindow⟩
  rw [hm, hvout] at hok hfail
  refine ⟨t, congrArg answer hev, fun hn => ?_, fun r hn => ?_⟩
  · obtain ⟨hp, hg, hout⟩ := hok hn
    exact hrestored hp hg hout
  · obtain ⟨hp, hg, hout⟩ := hfail r hn
    exact hrestored hp hg hout

theorem exec_restoreState_of_none (h : s.Inv) (hc : e.code = 0#32) : ∃ t, exec (.restoreState (e :: rest) files) s = .next t ∧
    s.RestoredTo t Slot.empty Slot.empty Option.none := by
  obtain ⟨t, ht, hok, -⟩ := exec_restoreState h (State.restoreRecord_of_none hc) rfl
  have hr := hok rfl
  rw [State.bothRemoved_p, State.bothRemoved_g] at hr
  exact ⟨t, ht, hr⟩

section Primary

variable (h : s.Inv) (hc : e.code ≠ 0#32)
include h hc

theorem exec_restoreState_of_no_kind (hk : kindOfCode s.loaderOps (absCode e.code) = Option.none) :
    exec (.restoreState (e :: rest) files) s = .refused .restoreCode :=
  exec_restoreState_refused h (State.restoreRecord_of_no_kind hc (s.bothRemoved_loaderOps ▸ hk))

variable (hk : kindOfCode s.loaderOps (absCode e.code) = some k)
include hk

theorem exec_restoreState_of_no_image (hl : LoadResult.image (loadPath s.loaderOps files e.path) = Option.none) :
    ∃ t, exec (.restoreState (e :: rest) files) s = .next t ∧
      s.RestoredTo t Slot.empty Slot.empty (some (loadPath s.loaderOps files e.path)) := by
  have hslot := State.restoreSlot_of_no_image (sl := .P) (k := k) (congrArg (loadPath · files e.path) s.bothRemoved_loaderOps) hl
  obtain ⟨t, ht, -, hfail⟩ := exec_restoreState h (State.restoreRecord_of_failed (rest := rest) hc (s.bothRemoved_loaderOps ▸ hk) hslot) rfl
  exact ⟨t, ht, hfail _ rfl⟩

variable (hl : LoadResult.image (loadPath s.loaderOps files e.path) = some bytes)
include hl

theorem exec_restoreState_of_refused {f : InsertFailure} (hf : insertFailure s .P k bytes = some f) :
    exec (.restoreState (e :: rest) files) s = .refused (.insert f) := by
  have hf' : insertFailure s.clearOut.bothRemoved .P k bytes = some f := hf ▸ State.bothRemoved_insertFailure
  exact exec_restoreState_refused h (State.restoreRecord_of_refused hc (s.bothRemoved_loaderOps ▸ hk)
    (State.restoreSlot_refused (s.bothRemoved_loaderOps ▸ hl) hf'))

variable (hf : insertFailure s .P k bytes = Option.none)
include hf

omit h in
/-- A restored primary is all of a record whose first code is positive; a negative one goes on with the piggyback. -/
theorem State.bothRemoved_restoreRecord : s.clearOut.bothRemoved.restoreRecord (e :: rest) files =
    if e.code.toInt < 0 then (s.clearOut.bothRemoved.setSlot .P (restoredSlot k bytes e)).restorePiggyback rest files
    else .ok (s.clearOut.bothRemoved.setSlot .P (restoredSlot k bytes e), Option.none) := by
  have hf' : insertFailure s.clearOut.bothRemoved .P k bytes = Option.none := hf ▸ State.bothRemoved_insertFailure
  exact State.restoreRecord_of_restored hc (s.bothRemoved_loaderOps ▸ hk)
    (State.restoreSlot_of_empty s.clearOut.bothRemoved_p (s.bothRemoved_loaderOps ▸ hl) hf')

theorem exec_restoreState_of_positive (hpos : 0 < e.code.toInt) : ∃ t, exec (.restoreState (e :: rest) files) s = .next t ∧
    s.RestoredTo t (restoredSlot k bytes e) Slot.empty Option.none := by
  have hr := State.bothRemoved_restoreRecord (rest := rest) hc hk hl hf
  rw [if_neg (by omega)] at hr
  obtain ⟨t, ht, hok, -⟩ := exec_restoreState h hr rfl
  exact ⟨t, ht, s.clearOut.bothRemoved_g ▸ hok rfl⟩

end Primary

section Piggyback

variable (h : s.Inv) (hneg : e.code.toInt < 0) (hk : kindOfCode s.loaderOps (absCode e.code) = some k)
  (hl : LoadResult.image (loadPath s.loaderOps files e.path) = some bytes) (hf : insertFailure s .P k bytes = Option.none)
include h hneg hk hl hf

omit h in
theorem State.bothRemoved_restoreRecord_of_negative : s.clearOut.bothRemoved.restoreRecord (e :: rest) files =
    (s.clearOut.bothRemoved.setSlot .P (restoredSlot k bytes e)).restorePiggyback rest files := by
  have hc : e.code ≠ 0#32 := fun h0 => by simp [h0] at hneg
  rw [State.bothRemoved_restoreRecord hc hk hl hf, if_pos hneg]

theorem exec_restoreState_of_short : exec (.restoreState [e] files) s = .refused .restoreRecord :=
  exec_restoreState_refused h (State.bothRemoved_restoreRecord_of_negative hneg hk hl hf)

theorem exec_restoreState_of_no_piggyback_kind (hk2 : kindOfCode s.loaderOps e2.code = Option.none) :
    exec (.restoreState (e :: e2 :: rest) files) s = .refused .restoreCode := by
  refine exec_restoreState_refused h ((State.bothRemoved_restoreRecord_of_negative hneg hk hl hf).trans ?_)
  exact State.restorePiggyback_of_no_kind (s.bothRemoved_loaderOps ▸ hk2)

variable {k2 : Kind} {bytes2 : List Byte} (hk2 : kindOfCode s.loaderOps e2.code = some k2)
include hk2

omit h in
theorem State.bothRemoved_restoreRecord_of_piggyback : s.clearOut.bothRemoved.restoreRecord (e :: e2 :: rest) files =
    (s.clearOut.bothRemoved.setSlot .P (restoredSlot k bytes e)).restoreSlot .G k2 e2 files :=
  (State.bothRemoved_restoreRecord_of_negative hneg hk hl hf).trans (State.restorePiggyback_of_kind (s.bothRemoved_loaderOps ▸ hk2))

theorem exec_restoreState_of_no_piggyback_image (hl2 : LoadResult.image (loadPath s.loaderOps files e2.path) = Option.none) :
    ∃ t, exec (.restoreState (e :: e2 :: rest) files) s = .next t ∧
      s.RestoredTo t Slot.empty Slot.empty (some (loadPath s.loaderOps files e2.path)) := by
  have hslot := State.restoreSlot_of_no_image (s := s.clearOut.bothRemoved.setSlot .P (restoredSlot k bytes e)) (sl := .G) (k := k2)
    (congrArg (loadPath · files e2.path) s.bothRemoved_loaderOps) hl2
  have hr := (State.bothRemoved_restoreRecord_of_piggyback (rest := rest) hneg hk hl hf hk2).trans hslot
  obtain ⟨t, ht, -, hfail⟩ := exec_restoreState h hr rfl
  exact ⟨t, ht, hfail _ rfl⟩

variable (hl2 : LoadResult.image (loadPath s.loaderOps files e2.path) = some bytes2)
include hl2

theorem exec_restoreState_of_piggyback_refused {f : InsertFailure} (hf2 : insertFailure s .P k2 bytes2 = some f) :
    exec (.restoreState (e :: e2 :: rest) files) s = .refused (.insert f) := by
  refine exec_restoreState_refused h ((State.bothRemoved_restoreRecord_of_piggyback hneg hk hl hf hk2).trans ?_)
  exact State.restoreSlot_refused (s.bothRemoved_loaderOps ▸ hl2)
    (hf2 ▸ State.bothRemoved_insertFailure_piggyback (insertFailure_none hf).1)

theorem exec_restoreState_of_piggyback (hf2 : insertFailure s .P k2 bytes2 = Option.none) :
    ∃ t, exec (.restoreState (e :: e2 :: rest) files) s = .next t ∧
      s.RestoredTo t (restoredSlot k bytes e) (restoredSlot k2 bytes2 e2) Option.none := by
  have hslot := State.restoreSlot_of_empty (s := s.clearOut.bothRemoved.setSlot .P (restoredSlot k bytes e)) (sl := .G)
    (State.bothRemoved_g _) (s.bothRemoved_loaderOps ▸ hl2) (hf2 ▸ State.bothRemoved_insertFailure_piggyback (insertFailure_none hf).1)
  have hr := (State.bothRemoved_restoreRecord_of_piggyback (rest := rest) hneg hk hl hf hk2).trans hslot
  obtain ⟨t, ht, hok, -⟩ := exec_restoreState h hr rfl
  exact ⟨t, ht, hok rfl⟩

end Piggyback

/-! ### Restoring what was saved (45_slot_operations.md R181) -/

theorem absCode_of_positive {c : Code} (h : 0 < c.toInt) : absCode c = c := if_neg (by omega)

theorem toInt_neg_of_positive {c : Code} (h : 0 < c.toInt) : (-c).toInt = -c.toInt := by
  have hlt : c.toInt < 2 ^ 31 := BitVec.toInt_lt
  rw [BitVec.toInt_neg]
  exact Int.bmod_eq_of_le (by omega) (by omega)

theorem absCode_neg_of_positive {c : Code} (h : 0 < c.toInt) : absCode (-c) = c := by
  have hneg := toInt_neg_of_positive h
  rw [absCode, if_pos (by omega), BitVec.neg_neg]

/-- The record of a slot after its cartridge is loaded from its path again: the buffer is what an insertion makes of the image there. -/
def Slot.reloaded (ops : LoaderOps) (files : List FileAt) (x : Slot) : Slot :=
  { x with buffer := if x.kind = .none then Option.none else (LoadResult.image (loadPath ops files x.path)).map (keptBytes x.kind) }

variable {ops : LoaderOps}

theorem Slot.reloaded_of_empty (h : x.Inv m) (hk : x.kind = .none) : x.reloaded ops files = Slot.empty := by
  rw [h.empty hk]
  rfl

theorem Slot.reloaded_eq_of_buffer (h : (x.reloaded ops files).buffer = x.buffer) : x.reloaded ops files = x :=
  congrArg (fun b => { x with buffer := b }) h

/-- Restoring a slot from its own entry, under whatever code, reloads it, where the image has the slot's size. -/
theorem restoredSlot_saveEntry (hk : x.kind ≠ .none) (hl : LoadResult.image (loadPath ops files x.path) = some bytes)
    (hlen : bytes.length = x.sizeKb * 1024) (c : Code) : restoredSlot x.kind bytes (saveEntry c x) = x.reloaded ops files := by
  have hkb : bytes.length / Config.kiloByte = x.sizeKb := by simp only [Config.kiloByte]; omega
  simp [insertedSlot, saveEntry, Slot.reloaded, hk, hl, hkb]

/-- The kind of a good slot takes every image of the slot's size. -/
theorem Slot.Inv.insertFailure_none (h : x.Inv s.machine) (hk : x.kind ≠ .none) (hlen : bytes.length = x.sizeKb * 1024) :
    insertFailure s .P x.kind bytes = Option.none := by
  have hpos := h.positive hk
  have hkb : bytes.length / Config.kiloByte = x.sizeKb := by simp only [Config.kiloByte]; omega
  refine insertFailure_eq_none_iff.2 ⟨hk, by omega, hkb.symm ▸ hlen, hkb.symm ▸ h.size hk, h.machine hk, fun lm hlm => ?_, nofun, h.writable⟩
  rw [hlen]
  exact h.lines lm hlm hk

/-- A slot that a restore can load: of a kind with a code, and with an image of its size at its path. -/
def Slot.Loads (ops : LoaderOps) (files : List FileAt) (x : Slot) : Prop := x.kind ≠ .unknown ∧
  ∃ bytes, LoadResult.image (loadPath ops files x.path) = some bytes ∧ bytes.length = x.sizeKb * 1024

/-- Restoring the saved record of a good state reloads both slots. -/
theorem exec_restoreState_saveRecord (h : s.Inv) (hload : ∀ sl, (s.slot sl).kind ≠ .none → (s.slot sl).Loads s.loaderOps files) :
    ∃ t, exec (.restoreState (saveRecord s.loaderOps s.p s.g) files) s = .next t ∧
      s.RestoredTo t (s.p.reloaded s.loaderOps files) (s.g.reloaded s.loaderOps files) Option.none := by
  by_cases hp : s.p.kind = .none
  · have hg : s.g.kind = .none := by_contra fun hg => h.chained hg hp
    rw [Slot.reloaded_of_empty h.p hp, Slot.reloaded_of_empty h.g hg, saveRecord, if_pos hg]
    exact exec_restoreState_of_none h (if_pos hp)
  obtain ⟨hpu, bytes, hl, hlen⟩ := hload .P hp
  have hpos := codeOf_positive (ops := s.loaderOps) hp hpu
  have hf := h.p.insertFailure_none hp hlen
  by_cases hg : s.g.kind = .none
  · have hk : kindOfCode s.loaderOps (absCode (codeOf s.loaderOps s.p.kind)) = some s.p.kind :=
      (absCode_of_positive hpos).symm ▸ kindOfCode_codeOf hpu
    have hc : codeOf s.loaderOps s.p.kind ≠ 0#32 := fun h0 => by simp [h0] at hpos
    rw [Slot.reloaded_of_empty h.g hg, saveRecord, if_pos hg, ← restoredSlot_saveEntry hp hl hlen (codeOf s.loaderOps s.p.kind)]
    exact exec_restoreState_of_positive h hc hk hl hf hpos
  · obtain ⟨hgu, bytes2, hl2, hlen2⟩ := hload .G hg
    have hk : kindOfCode s.loaderOps (absCode (-codeOf s.loaderOps s.p.kind)) = some s.p.kind :=
      (absCode_neg_of_positive hpos).symm ▸ kindOfCode_codeOf hpu
    have hneg : (-codeOf s.loaderOps s.p.kind).toInt < 0 := by rw [toInt_neg_of_positive hpos]; omega
    rw [saveRecord, if_neg hg, ← restoredSlot_saveEntry hp hl hlen (-codeOf s.loaderOps s.p.kind),
      ← restoredSlot_saveEntry hg hl2 hlen2 (codeOf s.loaderOps s.g.kind)]
    exact exec_restoreState_of_piggyback (e := saveEntry (-codeOf s.loaderOps s.p.kind) s.p) h hneg hk hl hf (kindOfCode_codeOf hgu) hl2
      (h.g.insertFailure_none hg hlen2)

theorem exec_saveState (hp : s.p.kind ≠ .unknown) (hg : s.g.kind ≠ .unknown) :
    exec .saveState s = .next { s with out := { record := some (saveRecord s.loaderOps s.p s.g) } } :=
  if_neg (not_or.2 ⟨hp, hg⟩)

end Sys2Proof.Machine

/-! ### The obligations -/

namespace Sys2Proof.Proofs

open Sys2Proof Sys2Proof.Machine

/-- Settles O36: the two refusals, and `State.insertEvent_spec` from a cleared answer. -/
theorem insertResult : Obligations.InsertResult := by
  refine fun s h sl arg bytes path raw => ⟨fun f => exec_insert_unresolved, fun kind ha => ⟨fun f => exec_insert_refused ha, fun hf => ?_⟩⟩
  obtain ⟨t, ht, hunder, hinv, hc, hself, hother, hio, hout, hwindow⟩ := State.insertEvent_spec h.clearOut ha hf path raw
  have hst : s.Under t := s.sameFrame_clearOut.under.trans hunder
  rw [State.writtenBack_out] at hout
  refine ⟨t, congrArg answer ht, hself, fun tl htl => (hother tl htl).trans (s.clearOut_slot tl), hst.sdxPbMask ▸ hinv.active, hc,
    hst.toSameParams, hst.input, hio.trans (s.clearOut_writtenBack_ioCount sl), hout, ?_⟩
  rw [hout]
  exact hwindow

/-- Settles O37: `resolveKind_ok`, and the branches of `insertFailure` in `insertFailure_eq_none_iff`. -/
theorem insertPreconditions : Obligations.InsertPreconditions := by
  refine fun s sl kind bytes => ⟨fun arg => ?_, fun n => resolveKind_eq_codeRange_iff, ?_⟩
  · rw [resolveKind_ok]
    refine or_congr_right (exists_congr fun n => and_congr_right fun _ => and_congr_right fun hn => and_congr_right fun _ => ?_)
    exact kindOfCode_of_positive hn
  · rw [insertFailure_eq_none_iff]
    refine and_congr_right fun hkind => ?_
    have hlen : bytes.length = bytes.length / 1024 * 1024 ↔ bytes.length % 1024 = 0 := by omega
    simp only [acceptsSize_iff hkind, acceptsMachine_iff hkind, LineMap.fits_iff, Config.kiloByte, hlen, not_and, Option.not_isSome_iff_eq_none]
    refine and_congr Nat.pos_iff_ne_zero.symm (and_congr_right fun hmod => and_congr_left' (or_congr_right ?_))
    omega

/-- Settles O38: `State.removeEvent_spec` for either slot; no command shows the empty slot a removed primary leaves. -/
theorem removeResult : Obligations.RemoveResult := by
  intro s h
  obtain ⟨t, ht, htu, hti, htc, htg, -, htp, htw, hto, -⟩ := State.removeEvent_spec h.clearOut .G
  obtain ⟨u, hu, huu, hui, huc, hup, hug, -, huw, -, huo⟩ := State.removeEvent_spec h.clearOut .P
  have hst : s.Under t := s.sameFrame_clearOut.under.trans htu
  have hsu : s.Under u := s.sameFrame_clearOut.under.trans huu
  have htp : t.p = s.p := htp rfl
  have hta : t.active = .P := hti.active.trans (activeOf_of_alone (congrArg Slot.kind htg))
  have hua : u.active = .P := hui.active.trans (activeOf_of_alone (congrArg Slot.kind (hug rfl)))
  obtain ⟨htio, hto⟩ := hto rfl
  obtain ⟨huio, huo⟩ := huo rfl
  rw [State.writtenBack_out, hta, State.slot_P, htp] at hto
  rw [hta, State.slot_P, htp] at htw
  rw [State.bothRemoved_out, hua, hup, shownCommands_empty, List.append_nil] at huo
  rw [hua, hup, shownCommands_empty, List.append_nil] at huw
  have hshows := State.coherent_iff.1 huc
  rw [hua, hup] at hshows
  exact ⟨t, u, congrArg answer ht, htg, htp, hta, htc, hst.toSameParams, hst.input, htio.trans (s.clearOut_writtenBack_ioCount .G), hto,
    by rw [hto]; exact htw, congrArg answer hu, hug rfl, hup, hua, huc, hsu.toSameParams, hsu.input, huio, huo, by rw [huo]; exact huw,
    hshows.isOn_of_empty hui.inside⟩

/-- Settles O39: `State.coldStartEvent_spec` from a cleared answer. -/
theorem coldStartResult : Obligations.ColdStartResult := by
  intro s h
  obtain ⟨t, ht, hkept, hp, hg, hinv, hc, hout, hwindow⟩ := State.coldStartEvent_spec h.clearOut
  have hframe := s.sameFrame_clearOut.trans hkept.frame
  refine ⟨t, congrArg answer ht, SlotName.forall_iff.2 ⟨hp, hg⟩, hframe.sdxPbMask ▸ hinv.active, hc, hframe, hout, ?_⟩
  rw [hout]
  exact hwindow

/-- Settles O40: the two branches of the event. -/
theorem saveStateResult : Obligations.SaveStateResult := fun _ => ⟨exec_saveState, fun hu => if_pos hu⟩

/-- Settles O42, by the three ways a restore leaves nothing. -/
theorem restoreOfNothing : Obligations.RestoreOfNothing := fun _ h _ _ =>
  ⟨fun _ _ _ => exec_restoreState_of_none h rfl, fun _ _ hc hk hl => exec_restoreState_of_no_image h hc hk hl,
    fun _ _ _ _ _ hneg hk hl hf hk2 hl2 => exec_restoreState_of_no_piggyback_image h hneg hk hl hf hk2 hl2⟩

/-- Settles O43: a record is refused or restored by its first entry, and, where its code is negative, by its second. -/
theorem restoreResult : Obligations.RestoreResult := by
  refine fun s h files e rest => ⟨exec_restoreState_refused h rfl, exec_restoreState_of_no_kind h, fun k bytes hc hk hl =>
    ⟨fun f => exec_restoreState_of_refused h hc hk hl, fun hf => ⟨exec_restoreState_of_positive h hc hk hl hf, fun hneg =>
      ⟨exec_restoreState_of_short h hneg hk hl hf, fun e2 => ⟨exec_restoreState_of_no_piggyback_kind h hneg hk hl hf, fun k2 bytes2 hk2 hl2 =>
        ⟨fun f => exec_restoreState_of_piggyback_refused h hneg hk hl hf hk2 hl2,
          exec_restoreState_of_piggyback h hneg hk hl hf hk2 hl2⟩⟩⟩⟩⟩⟩

/-- Settles O41: restoring the saved record reloads both slots (`exec_restoreState_saveRecord`), and two coherent window images of one slot record
read the same. -/
theorem saveThenRestore : Obligations.SaveThenRestore := by
  intro s files h hc hload
  have hknown : ∀ sl, (s.slot sl).kind ≠ .unknown := fun sl hu => (hload sl (by rw [hu]; exact Kind.noConfusion)).1 hu
  obtain ⟨u, hu, hr⟩ := exec_restoreState_saveRecord h hload
  have hslot : ∀ sl, u.slot sl = (s.slot sl).reloaded s.loaderOps files := SlotName.forall_iff.2 ⟨hr.p, hr.g⟩
  have hactive : u.active = s.active := hr.active.trans h.active.symm
  refine ⟨_, _, u, exec_saveState (hknown .P) (hknown .G), rfl, hu, hactive, fun sl => by rw [hslot]; rfl, fun sl bytes hk hl => ?_,
    fun hbuf a => ?_⟩
  · rw [hslot, Slot.reloaded, if_neg hk, hl]
    rfl
  · rw [hslot] at hbuf
    have hshows := State.coherent_iff.1 hr.coherent
    rw [hactive, hslot, Slot.reloaded_eq_of_buffer hbuf, hr.machine] at hshows
    exact hshows.winRead_eq (State.coherent_iff.1 hc) (hr.machine ▸ (exec_served h hu).inv.inside) h.inside a

end Sys2Proof.Proofs
end

section
/-! PROOFS. The image loader and writer: what a file reads as, by its length and its header, and what the file written reads back as
(46_image_container.md R185 to R195). -/

namespace Sys2Proof.Machine

variable {s : State} {ops : LoaderOps} {file bytes : List Byte} {k : Kind} {path : Text} {buf : Option (List Byte)} {raw : Bool} {r : LoadResult}

/-! ### The events -/

theorem exec_readImage (s : State) (file : Option (List Byte)) :
    exec (.readImage file) s = .next { s with out := { load := some (readImage s.loaderOps file) } } := rfl

theorem exec_readImage_iff {file : Option (List Byte)} :
    exec (.readImage file) s = .next { s with out := { load := some r } } ↔ readImage s.loaderOps file = r := by
  rw [exec_readImage]
  exact ⟨fun h => Option.some.inj (congrArg Output.load (congrArg State.out (Host.Outcome.next.inj h))), fun h => h ▸ rfl⟩

theorem exec_writeImage (s : State) (path : Text) (k : Kind) (buf : Option (List Byte)) (raw : Bool) : exec (.writeImage path k buf raw) s =
    .next { s with
      ioCount := s.ioCount + 1
      out := { io := some s.nextIo, writes := [⟨path, imageFile s.loaderOps k buf raw, s.nextIo⟩] } } := rfl

/-- The writer leaves the loader's parameters, so the file it wrote is read by the rules it was written by. -/
theorem exec_writeImage_then_readImage (h : readImage s.loaderOps (some (imageFile s.loaderOps k buf raw)) = r) :
    ∃ t w u, exec (.writeImage path k buf raw) s = .next t ∧ t.out.writes = [w] ∧ w.path = path ∧
      exec (.readImage (some w.bytes)) t = .next u ∧ u.out.load = some r :=
  ⟨_, _, _, exec_writeImage s path k buf raw, rfl, rfl, exec_readImage _ _, congrArg some h⟩

/-! ### The two classes of length (46_image_container.md R186) -/

theorem readImage_of_multiple (h : file.length % 1024 = 0) : readImage ops (some file) = readRaw ops file := if_pos h

theorem readImage_of_not_multiple (h : file.length % 1024 ≠ 0) : readImage ops (some file) = readHeadered ops file := if_neg h

/-! ### A raw file (46_image_container.md R187) -/

theorem sizeMatches_zero : sizeMatches ops 0 = [] := if_pos rfl

theorem sizeMatches_of_ne_zero {kb : Nat} (h : kb ≠ 0) :
    sizeMatches ops kb = (ops.sizeTable.filter fun row => decide (row.1 = kb)).map (·.2) := if_neg h

theorem mem_sizeMatches (hk : k ∈ ops.sizeKinds) (h : declaredKb k ≠ 0) : k ∈ sizeMatches ops (declaredKb k) := by
  rw [sizeMatches_of_ne_zero h]
  exact List.mem_map.2 ⟨(declaredKb k, k), List.mem_filter.2 ⟨List.mem_map.2 ⟨k, hk, rfl⟩, decide_eq_true rfl⟩, rfl⟩

/-- The open size table is complete (log 8). -/
theorem State.mem_sizeKinds_of_open (hl : s.loader = Option.none) (hd : declaresSize k = true) : k ∈ s.loaderOps.sizeKinds := by
  have hops : s.loaderOps = Config.loader.ops := by rw [State.loaderOps, hl]
  exact hops ▸ Config.loader.complete k hd

theorem readRaw_of_no_match (h : sizeMatches ops (file.length / 1024) = []) : readRaw ops file = .unknownSize := by
  simp [readRaw, h]

theorem readRaw_of_one_match (h : sizeMatches ops (file.length / 1024) = [k]) : readRaw ops file = .ok k (file.length / 1024) file true := by
  simp [readRaw, h]

theorem readRaw_of_many_matches (h : 2 ≤ (sizeMatches ops (file.length / 1024)).length) :
    readRaw ops file = .ambiguousSize .unknown (file.length / 1024) file true := by
  match hm : sizeMatches ops (file.length / 1024) with
  | [] | [_] => simp [hm] at h
  | _ :: _ :: _ => simp [readRaw, hm]

theorem readRaw_ne_badFormat : readRaw ops file ≠ .badFormat := by
  match hm : sizeMatches ops (file.length / 1024) with
  | [] => simp [readRaw_of_no_match hm]
  | [_] => simp [readRaw_of_one_match hm]
  | _ :: _ :: _ => simp [readRaw_of_many_matches (ops := ops) (file := file) (by simp [hm])]

/-! ### A headered file (46_image_container.md R188 to R192) -/

/-- The header checks of `READ_IMAGE`: the header is there, with the magic and a type code in range (46_image_container.md R189). -/
structure ValidHeader (ops : LoaderOps) (file : List Byte) : Prop where
  long    : 16 ≤ file.length
  magic   : file.take 4 = [0x43#8, 0x41#8, 0x52#8, 0x54#8]
  codeMin : 1 ≤ (readBe32 file 4).toInt
  codeMax : (readBe32 file 4).toInt ≤ ops.codeMax

theorem not_validHeader_iff : ¬ ValidHeader ops file ↔ file.length < 16 ∨ file.take 4 ≠ [0x43#8, 0x41#8, 0x52#8, 0x54#8] ∨
    (readBe32 file 4).toInt < 1 ∨ (ops.codeMax : Int) < (readBe32 file 4).toInt := by
  have hiff : ValidHeader ops file ↔ 16 ≤ file.length ∧ file.take 4 = [0x43#8, 0x41#8, 0x52#8, 0x54#8] ∧
      1 ≤ (readBe32 file 4).toInt ∧ (readBe32 file 4).toInt ≤ ops.codeMax :=
    ⟨fun ⟨hl, hm, h1, h2⟩ => ⟨hl, hm, h1, h2⟩, fun ⟨hl, hm, h1, h2⟩ => ⟨hl, hm, h1, h2⟩⟩
  simp only [hiff, not_and_or, Nat.not_le, Int.not_le, ne_eq]

theorem readHeadered_of_invalid (h : ¬ ValidHeader ops file) : readHeadered ops file = .badFormat := by
  by_cases hmagic : file.length < 16 ∨ file.take 4 ≠ [0x43#8, 0x41#8, 0x52#8, 0x54#8]
  · exact if_pos hmagic
  · have hcode : (readBe32 file 4).toInt < 1 ∨ (ops.codeMax : Int) < (readBe32 file 4).toInt := by
      rw [not_validHeader_iff, ← or_assoc] at h
      exact h.resolve_left hmagic
    exact (if_neg hmagic).trans (if_pos hcode)

theorem readHeadered_of_valid (h : ValidHeader ops file) (hk : kindOfCode ops (readBe32 file 4) = some k) :
    readHeadered ops file = readBody ops file k := by
  obtain ⟨hlong, hmagic, hmin, hmax⟩ := h
  have hpresent : ¬ (file.length < 16 ∨ file.take 4 ≠ [0x43#8, 0x41#8, 0x52#8, 0x54#8]) :=
    not_or.2 ⟨Nat.not_lt.2 hlong, not_not.2 hmagic⟩
  have hrange : ¬ ((readBe32 file 4).toInt < 1 ∨ (ops.codeMax : Int) < (readBe32 file 4).toInt) :=
    not_or.2 ⟨Int.not_lt.2 hmin, Int.not_lt.2 hmax⟩
  refine (if_neg hpresent).trans ((if_neg hrange).trans ?_)
  simp only [Config.hdrTypeAt, hk]

theorem readBody_eq (h : 16 ≤ file.length) : readBody ops file k =
    if file.length < 16 + declaredKb k * 1024 then .tooFewData
    else if ops.checksum ((file.drop 16).take (declaredKb k * 1024)) = readBe32 file 8 then
      .ok k (declaredKb k) ((file.drop 16).take (declaredKb k * 1024)) false
    else .badChecksum k (declaredKb k) ((file.drop 16).take (declaredKb k * 1024)) false :=
  if_congr (by simp only [Config.hdrLen, Config.kiloByte]; omega) rfl rfl

theorem readBody_ne_badFormat (h : 16 ≤ file.length) : readBody ops file k ≠ .badFormat := by
  rw [readBody_eq h]
  split_ifs <;> exact nofun

/-- Where the code is a kind's, `BadFormat` is exactly a length of no size and a header that fails a check. -/
theorem readImage_eq_badFormat_iff (hk : kindOfCode ops (readBe32 file 4) = some k) :
    readImage ops (some file) = .badFormat ↔ file.length % 1024 ≠ 0 ∧ ¬ ValidHeader ops file := by
  by_cases hlen : file.length % 1024 = 0
  · simp [readImage_of_multiple hlen, readRaw_ne_badFormat, hlen]
  · rw [readImage_of_not_multiple hlen]
    by_cases hv : ValidHeader ops file
    · simp [readHeadered_of_valid hv hk, readBody_ne_badFormat hv.long, hv]
    · simp [readHeadered_of_invalid hv, hlen, hv]

/-! ### The file written (46_image_container.md R193) -/

theorem imageFile_raw : imageFile ops k buf true = buf.getD (List.replicate (declaredKb k * 1024) ops.presizeFill) := rfl

theorem imageFile_headered : imageFile ops k (some bytes) false =
    [0x43#8, 0x41#8, 0x52#8, 0x54#8] ++ be32 (codeOf ops k) ++ be32 (ops.checksum bytes) ++ [0#8, 0#8, 0#8, 0#8] ++ bytes := rfl

theorem imageFile_headered_length : (imageFile ops k (some bytes) false).length = bytes.length + 16 := rfl

theorem imageFile_headered_drop : (imageFile ops k (some bytes) false).drop 16 = bytes := rfl

/-- A big-endian field reads back as the code stored there. -/
theorem readBe32_be32 (before after : List Byte) (c : Code) : readBe32 (before ++ be32 c ++ after) before.length = c := by
  have hbytes : readBe32 (before ++ be32 c ++ after) before.length =
      c.extractLsb' 24 8 ++ c.extractLsb' 16 8 ++ c.extractLsb' 8 8 ++ c.extractLsb' 0 8 := by
    simp [readBe32, be32]
  rw [hbytes, BitVec.extractLsb'_append_extractLsb'_eq_extractLsb' (show 24 = 16 + 8 from rfl),
    BitVec.extractLsb'_append_extractLsb'_eq_extractLsb' (show 16 = 8 + 8 from rfl),
    BitVec.extractLsb'_append_extractLsb'_eq_extractLsb' (show 8 = 0 + 8 from rfl)]
  exact BitVec.extractLsb'_eq_self

theorem imageFile_headered_code : readBe32 (imageFile ops k (some bytes) false) 4 = codeOf ops k :=
  readBe32_be32 [0x43#8, 0x41#8, 0x52#8, 0x54#8] _ _

theorem imageFile_headered_checksum : readBe32 (imageFile ops k (some bytes) false) 8 = ops.checksum bytes :=
  readBe32_be32 ([0x43#8, 0x41#8, 0x52#8, 0x54#8] ++ be32 (codeOf ops k)) _ _

theorem imageFile_headered_valid (hn : k ≠ .none) (hu : k ≠ .unknown) (hmax : (codeOf ops k).toInt ≤ ops.codeMax) :
    ValidHeader ops (imageFile ops k (some bytes) false) where
  long := by rw [imageFile_headered_length]; omega
  magic := rfl
  codeMin := by rw [imageFile_headered_code]; exact codeOf_positive hn hu
  codeMax := by rwa [imageFile_headered_code]

/-! ### Reading what was written (46_image_container.md R195) -/

section RoundTrip

variable (hlen : bytes.length = declaredKb k * 1024)
include hlen

theorem readImage_imageFile_headered (hn : k ≠ .none) (hu : k ≠ .unknown) (hmax : (codeOf ops k).toInt ≤ ops.codeMax) :
    readImage ops (some (imageFile ops k (some bytes) false)) = .ok k (declaredKb k) bytes false := by
  have hv := imageFile_headered_valid (bytes := bytes) hn hu hmax
  have hk : kindOfCode ops (readBe32 (imageFile ops k (some bytes) false) 4) = some k := by
    rw [imageFile_headered_code, kindOfCode_codeOf hu]
  have hodd : (imageFile ops k (some bytes) false).length % 1024 ≠ 0 := by rw [imageFile_headered_length]; omega
  have henough : ¬ (imageFile ops k (some bytes) false).length < 16 + declaredKb k * 1024 := by rw [imageFile_headered_length]; omega
  rw [readImage_of_not_multiple hodd, readHeadered_of_valid hv hk, readBody_eq hv.long, if_neg henough, imageFile_headered_drop,
    imageFile_headered_checksum, List.take_of_length_le hlen.le, if_pos rfl]

theorem readImage_imageFile_raw (hne : bytes ≠ []) (hk : k ∈ ops.sizeKinds) : readImage ops (some (imageFile ops k (some bytes) true)) =
    if (ops.sizeTable.filter fun row => decide (row.1 = declaredKb k)).length = 1 then .ok k (declaredKb k) bytes true
    else .ambiguousSize .unknown (declaredKb k) bytes true := by
  have hpos := List.length_pos_of_ne_nil hne
  have hkb : bytes.length / 1024 = declaredKb k := by omega
  have hmem : k ∈ sizeMatches ops (declaredKb k) := mem_sizeMatches hk (by omega)
  have hcount : (ops.sizeTable.filter fun row => decide (row.1 = declaredKb k)).length = (sizeMatches ops (declaredKb k)).length := by
    rw [sizeMatches_of_ne_zero (by omega), List.length_map]
  rw [hcount, imageFile_raw, Option.getD_some, readImage_of_multiple (by omega)]
  split_ifs with hone
  · obtain ⟨l, hl⟩ := List.length_eq_one_iff.1 hone
    obtain rfl : k = l := by simpa [hl] using hmem
    rw [readRaw_of_one_match (hkb ▸ hl), hkb]
  · have hmany := List.length_pos_of_mem hmem
    rw [readRaw_of_many_matches (by rw [hkb]; omega), hkb]

end RoundTrip

end Sys2Proof.Machine

/-! ### The obligations -/

namespace Sys2Proof.Proofs

open Sys2Proof Sys2Proof.Machine

/-- Settles O49: the three branches of the raw read; the empty file matches nothing. -/
theorem rawSizeLookup : Obligations.RawSizeLookup := by
  intro s file ks hlen hks
  have hkb : file ≠ [] → sizeMatches s.loaderOps (file.length / 1024) = ks := fun hne => by
    have hpos := List.length_pos_of_ne_nil hne
    rw [sizeMatches_of_ne_zero (by omega), hks]
  simp only [exec_readImage_iff, readImage_of_multiple hlen]
  refine ⟨fun hnone => readRaw_of_no_match ?_, fun k hne hone => readRaw_of_one_match (hone ▸ hkb hne),
    fun hne hmany => readRaw_of_many_matches (by rwa [hkb hne])⟩
  by_cases hne : file = []
  · rw [hne]
    exact sizeMatches_zero
  · exact (hkb hne).trans (hnone.resolve_left hne)

/-- Settles O50: the failing header checks of a headered read, and `readImage_eq_badFormat_iff` where the code is a kind's. -/
theorem badFormatIsNoSizeAndNoHeader : Obligations.BadFormatIsNoSizeAndNoHeader := by
  intro s file
  simp only [exec_readImage_iff, ← not_validHeader_iff]
  refine ⟨fun hlen hv => ?_, fun hsome hbad => ?_⟩
  · rw [readImage_of_not_multiple hlen, readHeadered_of_invalid hv]
  · obtain ⟨k, hk⟩ := Option.isSome_iff_exists.1 hsome
    exact (readImage_eq_badFormat_iff hk).1 hbad

/-- Settles O53: each form of file reads back (`readImage_imageFile_headered`, `readImage_imageFile_raw`), and the open size table is complete. -/
theorem writeThenRead : Obligations.WriteThenRead := by
  refine fun s path k bytes hlen => ⟨fun hn hu hmax => ?_, fun hne hlisted => ?_⟩
  · exact exec_writeImage_then_readImage (readImage_imageFile_headered hlen hn hu hmax)
  · have hk : k ∈ s.loaderOps.sizeKinds := hlisted.elim id fun ⟨hl, hd⟩ => State.mem_sizeKinds_of_open hl hd
    exact exec_writeImage_then_readImage (readImage_imageFile_raw hlen hne hk)

/-- Settles O48: the event is `exec_readImage`. -/
theorem readImageWritesNothing : Obligations.ReadImageWritesNothing := fun s file =>
  ⟨⟨_, exec_readImage s file⟩, exec_readImage s none⟩

/-- Settles O51: past the header checks the file reads as `readBody` of the code's kind. -/
theorem headeredRead : Obligations.HeaderedRead := by
  intro s file k hlen hlong hmagic hmin hmax hk
  rw [exec_readImage_iff, readImage_of_not_multiple hlen, readHeadered_of_valid ⟨hlong, hmagic, hmin, hmax⟩ hk, readBody_eq hlong]

/-- Settles O52: the event is `exec_writeImage`, and the file is the body, behind the header unless it is raw. -/
theorem writeImageResult : Obligations.WriteImageResult := by
  intro s path kind buf raw
  rw [exec_writeImage]
  cases raw
  · rfl
  · rfl

end Sys2Proof.Proofs
end

section
/-! PROOFS. What an event can raise: no event faults, and none that a bus word spells is refused in a good state whose marks are right
(60_exceptions.md R201, R205). -/

namespace Sys2Proof.Machine

variable {s : State}

/-! ### No fault -/

theorem next_ne_fault (t : State) (f : Fault) : (.next t : Answer) ≠ .fault f := nofun

theorem answer_ne_fault (r : Except Refusal State) (f : Fault) : answer r ≠ .fault f := by
  cases r with
  | ok t => exact next_ne_fault t f
  | error e => exact nofun

theorem execSaveState_ne_fault (s : State) (f : Fault) : execSaveState s ≠ .fault f := by
  unfold execSaveState
  split
  · exact nofun
  · exact next_ne_fault _ f

/-- A meaning is an operation that answers or is refused, or a next state at once (60_exceptions.md R205). -/
theorem exec_ne_fault (i : Instr) (s : State) (f : Fault) : exec i s ≠ .fault f := by
  cases i with
  | ctrlRd | ctrlRdPeek | ctrlWr | ctrlWrPeek | winRd | winWr | winRdLo5200 | winWrLo5200 => exact answer_ne_fault _ f
  | winRdPeek | winWrPeek | winRdPeekLo5200 | winWrPeekLo5200 | busOtherQ0 | busOtherQ1 | busOtherQ3 => exact next_ne_fault _ f
  | insert | remove | coldStart | lineRemap | restoreState | remap | fullRemap => exact answer_ne_fault _ f
  | readImage | writeImage => exact next_ne_fault _ f
  | saveState => exact execSaveState_ne_fault s f

/-! ### A control-page write nothing reacts to -/

/-- A slot whose type gives no new state does nothing with the write, in every state (40_control_page_access.md R74, R78). -/
theorem State.writeSlot_of_no_reaction {sl : SlotName} {addr : Addr} {v : Byte}
    (h : (s.slot sl).kind ≠ .none → (descr (s.slot sl).kind).wr (s.slot sl).state addr v = none) :
    s.writeSlot sl addr v false = .ok (s, .unhandled) := by
  by_cases hk : (s.slot sl).kind = .none
  · simp [State.writeSlot, hk]
  · simp [State.writeSlot, hk, State.onWrite, h hk]

theorem State.ctrlWrite_of_no_reaction {addr : Addr} {v : Byte}
    (h : ∀ sl, (s.slot sl).kind ≠ .none → (descr (s.slot sl).kind).wr (s.slot sl).state addr v = none) :
    s.ctrlWrite addr v false = .ok (s.giveHandled .unhandled) := by
  simp only [State.ctrlWrite, State.writeSlot_of_no_reaction (h .P), State.writeSlot_of_no_reaction (h .G), Handled.or]

/-! ### Every bus event answers -/

theorem exec_selectForm_answers {rd rdPeek wr wrPeek : Instr} (hrd : ∃ t, exec rd s = .next t) (hrdPeek : ∃ t, exec rdPeek s = .next t)
    (hwr : ∃ t, exec wr s = .next t) (hwrPeek : ∃ t, exec wrPeek s = .next t) (p w : Bool) :
    ∃ t, exec (selectForm p w rd rdPeek wr wrPeek) s = .next t := by
  cases p <;> cases w <;> assumption

/-- The event of a region answers: the spec lemma of each form says with what. It takes a good state to serve a transition, and the marks to serve
a RAM store. -/
theorem exec_event_answers (h : s.Inv) (hm : s.Marked) (r : BusRegion) (p w : Bool) (addr : Addr) (data : Byte) :
    ∃ t, exec (r.event p w addr data) s = .next t := by
  cases r with
  | controlPage =>
    obtain ⟨t, hread, -⟩ := Proofs.controlReadResult s h addr data
    obtain ⟨u, hwrite, -⟩ := Proofs.controlWriteResult s h addr data
    exact exec_selectForm_answers ⟨t, hread⟩ ⟨_, exec_ctrlRdPeek s addr data⟩ ⟨u, hwrite⟩ ⟨_, exec_ctrlWrPeek s addr data⟩ p w
  | window =>
    obtain ⟨t, hread, -⟩ := Proofs.windowReadResult s h addr data
    obtain ⟨u, hwrite, -⟩ := Proofs.windowWriteResult s h hm addr data
    obtain ⟨hreadPeek, -, hwritePeek, -⟩ := Proofs.windowPeeksChangeNothing s addr data
    exact exec_selectForm_answers ⟨t, hread⟩ ⟨_, hreadPeek⟩ ⟨u, hwrite⟩ ⟨_, hwritePeek⟩ p w
  | window5200 =>
    obtain ⟨t, -, hread, -⟩ := Proofs.windowReadResult s h addr data
    obtain ⟨u, -, hwrite, -⟩ := Proofs.windowWriteResult s h hm addr data
    obtain ⟨-, hreadPeek, -, hwritePeek⟩ := Proofs.windowPeeksChangeNothing s addr data
    exact exec_selectForm_answers ⟨t, hread⟩ ⟨_, hreadPeek⟩ ⟨u, hwrite⟩ ⟨_, hwritePeek⟩ p w
  | below | between | above => exact ⟨s.clearOut, rfl⟩

/-- A bus word of 26 bits is served: it is the packing of fields, and decodes to the event of the region of its address. -/
theorem step_bus_answers (h : s.Inv) (hm : s.Marked) {word : BitVec 32} {rest : List Event} (hin : s.input = .bus word :: rest)
    (hword : word.toNat < 2 ^ 26) : ∃ t, step s = .next t := by
  have hsame : s.SameCore { s with input := rest } := ⟨rfl, rfl, rfl, rfl, rfl, rfl⟩
  have hd := busWord_fields hword ▸ decode_busWord (m := s.machine) ..
  rw [step_of_decoded hin hd]
  exact exec_event_answers (hsame.inv h) (hsame.marked hm) ..

end Sys2Proof.Machine

/-! ### The obligations -/

namespace Sys2Proof.Proofs

open Sys2Proof Sys2Proof.Machine

/-- Settles O33: an undecodable event is refused, and no meaning faults (`exec_ne_fault`). -/
theorem noStepFaults : Obligations.NoStepFaults := by
  intro s f
  cases hin : s.input with
  | nil => rw [step_of_idle hin]; exact next_ne_fault s f
  | cons e rest =>
    cases hd : decode s.machine e with
    | error r => rw [step_of_undecodable hin hd]; exact nofun
    | ok i => rw [step_of_decoded hin hd]; exact exec_ne_fault i _ f

/-- Settles O31: `step_bus_answers`, and a write in which neither slot does anything. -/
theorem busEventsRaiseNothing : Obligations.BusEventsRaiseNothing := fun s h hm =>
  ⟨fun _ _ => step_bus_answers h hm, fun _ _ hnone => congrArg answer (State.ctrlWrite_of_no_reaction (s := s.clearOut) hnone)⟩

/-- Settles O32, by induction on the number of steps: each step is idle or serves a bus word, and keeps the invariants, the marks and the rest
of the input. -/
theorem runsOfBusEventsAreSafe : Obligations.RunsOfBusEventsAreSafe := by
  intro n
  induction n with
  | zero => exact fun _ _ _ _ => trivial
  | succ n ih =>
    intro s h hm hbus
    have hstep : ∃ t, step s = .next t := by
      cases hin : s.input with
      | nil => exact ⟨s, step_of_idle hin⟩
      | cons e rest =>
        obtain ⟨word, rfl, hword⟩ := hbus e (hin ▸ List.mem_cons_self)
        exact step_bus_answers h hm hin hword
    obtain ⟨t, ht⟩ := hstep
    obtain ⟨hinv, -, hinput⟩ := step_keeps h ht
    exact ⟨t, ht, ih t hinv (everyStepKeepsTheMarks s t h hm ht) fun e he => hbus e (List.mem_of_mem_tail (hinput ▸ he))⟩

end Sys2Proof.Proofs
end
